-- ==== Sys2Proof/Word.lean ====
section
/-! DEFINITION. The word types of the core and their plainest arithmetic: bytes, 64-bit numbers, the 16-bit command
word, byte sequences (00_scope.md section 5) and byte sequences of a fixed length. -/

namespace Sys2Proof

/-- A byte (`u8`), 00_scope.md section 5. -/
abbrev Byte := BitVec 8

/-- An unsigned 64-bit integer, R8. -/
abbrev U64 := BitVec 64

/-- A command word, R70. -/
abbrev CmdWord := BitVec 16

/-- A byte sequence: index 0 is the byte fed first and stored at the lowest offset (00_scope.md section 5). -/
abbrev Bytes := List Byte

/-- A byte sequence of exactly `n` bytes: the type of `T`, `U`, `idig`, `DIG` (32) and of `kbuf`, `pad` (64), R20. -/
abbrev Block (n : Nat) := { b : Bytes // b.length = n }

/-- `rep(v, n)`: `n` bytes each equal to `v`. -/
def rep (v : Byte) (n : Nat) : Bytes := List.replicate n v

/-- `a xor b` on byte sequences, byte by byte. -/
def xorBytes (a b : Bytes) : Bytes := List.zipWith (fun x y => x ^^^ y) a b

/-- `rep(v, n)` as a block. -/
def Block.rep (v : Byte) (n : Nat) : Block n := ⟨Sys2Proof.rep v n, by simp [Sys2Proof.rep]⟩

/-- `Z(n)`: the block of `n` zero bytes. -/
def Z (n : Nat) : Block n := Block.rep 0x00 n

/-- `a xor b` on blocks of one length: independent byte lanes, R149. -/
def Block.xor {n : Nat} (a b : Block n) : Block n := ⟨xorBytes a.val b.val, by simp [xorBytes, a.2, b.2]⟩

end Sys2Proof
end

