-- ==== Sys2Proof/Syntax.lean ====
section
/-! DEFINITION. The five commands of R72, one constructor per row of spec/opcode_table.json. A context index is a number;
`Instr.wf` (WellFormed.lean) says that it fits its 4-bit field. -/

namespace Sys2Proof

/-- The commands of the core, R72: there is no sixth operation. -/
inductive Instr where
  /-- `HSEED cd`, R115. -/
  | hseed (cd : Nat)
  /-- `HUPDATE cd`, R116. -/
  | hupdate (cd : Nat)
  /-- `HFINAL cd`, R117. -/
  | hfinal (cd : Nat)
  /-- `HCLONE cd, cs`, R118: the destination first. -/
  | hclone (cd cs : Nat)
  /-- `DERIVE`, R140. -/
  | derive
  deriving DecidableEq, Repr

end Sys2Proof
end

