-- ==== Sys2Proof/WellFormed.lean ====
section
/-! DEFINITION. What makes a command encodable: each context index fits its 4-bit field (R70). An index that fits but is
not below `NCTX` is well formed: R75 makes it a legal encoding that raises ContextIndex. -/

namespace Sys2Proof

/-- R70: a context index of the command word, 0 to 15. -/
def slotFieldOk (k : Nat) : Bool := decide (k < 16)

/-- A command that a command word can hold, R70, R71. -/
def Instr.wf : Instr → Bool
  | .hseed cd => slotFieldOk cd
  | .hupdate cd => slotFieldOk cd
  | .hfinal cd => slotFieldOk cd
  | .hclone cd cs => slotFieldOk cd && slotFieldOk cs
  | .derive => true

end Sys2Proof
end

