-- ==== Sys2Proof/Decode.lean ====
section
/-! DEFINITION. Decoding of the 16-bit command word, total, with the reason of every rejection (R70, R75, R79); the
opcode table of R72 as data; the encoder of R79. -/

namespace Sys2Proof

/-- `op`, bits 15 to 8 of the command word, R70. -/
def opField (w : CmdWord) : Byte := w.extractLsb' 8 8

/-- `cd`, bits 7 to 4 of the command word, R70. -/
def cdField (w : CmdWord) : Nat := (w.extractLsb' 4 4).toNat

/-- `cs`, bits 3 to 0 of the command word, R70. -/
def csField (w : CmdWord) : Nat := (w.extractLsb' 0 4).toNat

/-- Why a word is illegal, R75. Every reason has the one effect of R184. -/
inductive Illegal where
  /-- `op` is none of the five operation codes: one of the 251 reserved values. -/
  | reservedOp (op : Byte)
  /-- `op` is one of the five, and an index field its format does not use is not 0. -/
  | unusedFieldSet (op : Byte)
  deriving DecidableEq, Repr

/-- What R79 decodes a word to: one of the five forms, or illegal. -/
inductive Decoded where
  | instr (i : Instr)
  | illegal (why : Illegal)
  deriving DecidableEq, Repr

/-- R79's `decode`, with the reason of an illegal word beside it. -/
def decode (w : CmdWord) : Decoded :=
  let op := opField w
  let cd := cdField w
  let cs := csField w
  if op = 0x01 then
    if cs = 0 then .instr (.hseed cd) else .illegal (.unusedFieldSet op)
  else if op = 0x02 then
    if cs = 0 then .instr (.hupdate cd) else .illegal (.unusedFieldSet op)
  else if op = 0x03 then
    if cs = 0 then .instr (.hfinal cd) else .illegal (.unusedFieldSet op)
  else if op = 0x04 then .instr (.hclone cd cs)
  else if op = 0x10 then
    if cd = 0 ∧ cs = 0 then .instr .derive else .illegal (.unusedFieldSet op)
  else .illegal (.reservedOp op)

/-- The command a word stands for, none where it is illegal. -/
def Decoded.instr? : Decoded → Option Instr
  | .instr i => some i
  | .illegal _ => none

/-- R79's `encode`, for a well-formed command. -/
def encode : Instr → CmdWord
  | .hseed cd => BitVec.ofNat 16 (0x0100 + 16 * cd)
  | .hupdate cd => BitVec.ofNat 16 (0x0200 + 16 * cd)
  | .hfinal cd => BitVec.ofNat 16 (0x0300 + 16 * cd)
  | .hclone cd cs => BitVec.ofNat 16 (0x0400 + 16 * cd + cs)
  | .derive => 0x1000#16

/-- The mnemonic of a command, R72. -/
def Instr.mnemonic : Instr → String
  | .hseed _ => "HSEED"
  | .hupdate _ => "HUPDATE"
  | .hfinal _ => "HFINAL"
  | .hclone _ _ => "HCLONE"
  | .derive => "DERIVE"

/-- One row of the opcode map of R72. -/
structure OpcodeRow where
  mnemonic : String
  matchBits : CmdWord
  mask : CmdWord
  deriving DecidableEq, Repr

/-- The opcode map of R72. -/
def opcodeTable : List OpcodeRow :=
  [ ⟨"HSEED", 0x0100, 0xFF0F⟩,
    ⟨"HUPDATE", 0x0200, 0xFF0F⟩,
    ⟨"HFINAL", 0x0300, 0xFF0F⟩,
    ⟨"HCLONE", 0x0400, 0xFF00⟩,
    ⟨"DERIVE", 0x1000, 0xFFFF⟩ ]

/-- R72: a word selects a row when `w and mask = match`. -/
def OpcodeRow.selects (r : OpcodeRow) (w : CmdWord) : Bool := decide (w &&& r.mask = r.matchBits)

/-- The command word that the low `nbits` bits of `w` give, the bits above them 0. -/
def wordOfTable (nbits w : Nat) : CmdWord := BitVec.ofNat 16 (w % 2 ^ nbits)

/-- The command the decoder reads from a word numbered as spec/opcode_table.json numbers it: bit 0 is the least
significant. A command is 16 bits (R76), so more bits are no command (log 17). -/
def decodeTableWord (nbits w : Nat) : Option Instr :=
  if nbits ≤ 16 then (decode (wordOfTable nbits w)).instr? else none

end Sys2Proof
end

