-- ==== Sys2Proof/Config.lean ====
section
/-! DEFINITION. What the source fixes as constants (R6, R7) and the parameters R11 leaves open: the hash primitive with
its `MAX_ABSORB`, and the number of context slots after reset. -/

namespace Sys2Proof

/-- R6: the length of a digest in bytes. -/
abbrev DIGEST_LEN : Nat := 32

/-- R6: the block size of the hash primitive in bytes. -/
abbrev BLOCK_LEN : Nat := 64

/-- R7: the inner pad byte. -/
def IPAD : Byte := 0x36

/-- R7: the outer pad byte. -/
def OPAD : Byte := 0x5c

/-- R7: the largest output length, `32 × (2^32 − 1)` bytes. -/
def MAX_DKLEN : U64 := 0x1FFFFFFFE0#64

/-- R9, R11, R90, R92: the hash primitive, a parameter of the model. `hash` is the one-shot form; the type says that it
is total, deterministic and gives 32 bytes. A running state is the sequence it has absorbed (R91), so `HInit`, `HUpdate`
and `HFinal` follow from `hash` (Machine/Hmac.lean). `maxAbsorb` is `MAX_ABSORB` (R100): `none` is unbounded. -/
structure HashPrimitive where
  hash : Bytes → Block DIGEST_LEN
  maxAbsorb : Option Nat

/-- R11: the number `NCTX` of context slots of the machine that `State.reset` describes, in 2 to 16. The step is generic
in `NCTX`: it reads it as the length of the context file. DESIGN CHOICE (log 2): 4, the value of 95_test_vectors.md. -/
def Config.nctx : Nat := 4

/-- R100: `MAX_ABSORB` of the SHA-256 instance (log 4). -/
def Config.maxAbsorb : Option Nat := some (2 ^ 61 - 1)

end Sys2Proof
end

