-- ==== Sys2Proof/Machine/State.lean ====
section
/-! DEFINITION. The state of the core (10_state.md R20), the byte spaces the host owns (20_memory.md R50), the moves the
host still has to make (the model's own, log 1), the faults and the refusals, and the state after reset (R34). -/

namespace Sys2Proof.Machine

/-- A byte space: offsets and bytes, offsets strictly rising, no entry equal to what an unlisted offset reads as
(`Memory.wf`, Ops.lean). -/
abbrev Memory := List Host.Cell

/-- R21, R91: a running hash state, which stands for the bytes fed to it since `HInit()` and nothing else (log 6). -/
structure Running where
  absorbed : Bytes
  deriving DecidableEq, Repr

/-- R21: a hash state, running or the cleared value `HZERO` (R93). -/
inductive HashState where
  | hzero
  | running (r : Running)
  deriving DecidableEq, Repr

/-- R22: the status of a context. -/
inductive CtxStatus where
  | empty
  | live
  | spent
  deriving DecidableEq, Repr

/-- The two running hash states of a LIVE context: the argument and result of the micro-operations R110 to R113, which
are applied to LIVE contexts only. -/
structure LiveCtx where
  inner : Running
  outer : Running
  deriving DecidableEq, Repr

/-- R22: a context record. A value of this type meets R22's invariant: both hash states run exactly when the status is
LIVE, and are `HZERO` otherwise (log 5). The three fields of R22 are read by `Ctx.st`, `Ctx.inner`, `Ctx.outer`. -/
inductive Ctx where
  | empty
  | live (c : LiveCtx)
  | spent
  deriving DecidableEq, Repr

/-- R25: the phases of the engine's sequencer. -/
inductive Phase where
  | idle
  | pSeed
  | pFirst
  | pIter
  | pCopy
  | pClear
  deriving DecidableEq, Repr

/-- R50: the byte spaces. -/
inductive Space where
  | in0
  | in1
  | out
  deriving DecidableEq, Repr

/-- R30: the parameter registers. -/
inductive Param where
  | len0
  | len1
  | c
  | dklen
  deriving DecidableEq, Repr

/-- What the host can do to the core (10_state.md R35, 30_encoding.md R70, R77, 70_reset_and_hazards.md R210, R211).
Reading is no move: it changes nothing (`State.hostView`, Safety.lean). -/
inductive HostMove where
  /-- The host presents a command word, R70. -/
  | present (w : CmdWord)
  /-- The host writes bytes into a space at an offset, R35, R57. -/
  | write (sp : Space) (off : U64) (bytes : Bytes)
  /-- The host writes a parameter register, R30. -/
  | setParam (r : Param) (v : U64)
  /-- The directive `.in0 <bytes>` of R77: fill `IN0` and set `LEN0` to the length. -/
  | in0 (bytes : Bytes)
  /-- The directive `.in1 <bytes>` of R77: fill `IN1` and set `LEN1` to the length. -/
  | in1 (bytes : Bytes)
  /-- Reset at a command boundary, R210. -/
  | reset
  /-- The host presents a command word and asserts reset after `k` engine steps, R211 (log 12). -/
  | presentThenReset (w : CmdWord) (k : Nat)
  deriving DecidableEq, Repr

/-- R180: the exceptions a command can raise, each with what its information word is made of. -/
inductive Exc where
  /-- Code 1, R181: raised by `DERIVE`. -/
  | rangeError (dklen : U64)
  /-- Code 2, R182: raised by `DERIVE`. -/
  | invalidParameter
  /-- Code 3, R184: raised at decode. -/
  | illegalCommand (w : CmdWord)
  /-- Code 4, R185: raised by `HSEED`, `HUPDATE`, `HFINAL`, `HCLONE`. -/
  | contextIndex (k : Nat)
  /-- Code 5, R186: raised by `HUPDATE`, `HFINAL`, `HCLONE`. -/
  | contextState (k : Nat) (st : CtxStatus)
  deriving DecidableEq, Repr

/-- Where the model stops because the spec gives what happens no meaning. The exceptions of R180 are not here: raising
one is a next state (R189). None of these is reached from a state that `State.Inv` (Safety.lean) holds of, but for
`hostOffset`, which the host's own move causes. -/
inductive Fault where
  /-- Raised by an engine step in a state that breaks what its phase requires (42_pbkdf2.md R144 to R146): the base
  context is not LIVE, or a counter is out of its range. Safe (log 8). -/
  | phaseRequires (p : Phase)
  /-- Raised by phase P_COPY where the write would not lie within `DKLEN` bytes: 20_memory.md R51 gives it no meaning.
  Safe (log 9). -/
  | outBounds
  /-- Raised by a host move that names an offset past `2^64 − 1`, which is no offset (20_memory.md R50). Safe (log 10). -/
  | hostOffset
  deriving DecidableEq, Repr

/-- Where the model gives no meaning to a run. -/
inductive Refusal where
  /-- Raised by an arm of `exec` whose instruction has no meaning yet; safe. No arm does so now. -/
  | notModelled (mnemonic : String)
  /-- Raised by `HSEED`, `HUPDATE`, `HFINAL` and the engine where a hash state would absorb more than `MAX_ABSORB` bytes:
  40_hash_primitive.md R100 has the model refuse such a run. Safe (log 4). -/
  | absorbLimit
  deriving DecidableEq, Repr

/-- The state: 10_state.md R20 in its order and by its names, the host's spaces (R50), and the host's moves to come. -/
structure State where
  /-- R23: the context file; its length is `NCTX` (log 2). -/
  ctx : List Ctx
  /-- R24: the base context of a derivation. -/
  base : Ctx
  /-- R24: the working context of a derivation. -/
  work : Ctx
  /-- R25: where the engine is. -/
  phase : Phase
  /-- R26: the current output block, 1-based. -/
  i : U64
  /-- R26: PRF applications done for the current block. -/
  j : U64
  /-- R26: the number of output blocks. -/
  blocks : U64
  /-- R27: the accumulator. -/
  T : Block 32
  /-- R27: the chaining register. -/
  U : Block 32
  /-- R28: the raw or reduced key, while seeding. -/
  kbuf : Block 64
  /-- R28: valid bytes of `kbuf`, 0 to 64. -/
  klen : Fin 65
  /-- R28: the pad block, while seeding. -/
  pad : Block 64
  /-- R28: the intermediate digest, while finalizing. -/
  idig : Block 32
  /-- R29: the result of the last `HFINAL` that completed. -/
  DIG : Block 32
  /-- R29: `DIG` holds a digest produced since reset. -/
  DIGV : Bool
  /-- R30: iteration count. -/
  C : U64
  /-- R30: requested output length. -/
  DKLEN : U64
  /-- R30: length of the operand in `IN0`. -/
  LEN0 : U64
  /-- R30: length of the operand in `IN1`. -/
  LEN1 : U64
  /-- R31: outcome code of the most recent command. -/
  ERR : BitVec 8
  /-- R31: information word of the most recent fault. -/
  ERRINFO : U64
  /-- R50: the first input space, the host's. -/
  IN0 : Memory
  /-- R50: the second input space, the host's. -/
  IN1 : Memory
  /-- R50: the output space, the host's. -/
  OUT : Memory
  /-- The host's moves still to come, first first: the model's own field (log 1). -/
  moves : List HostMove
  deriving DecidableEq, Repr

/-- The answer of a meaning, of an engine step and of a step of the machine. -/
abbrev Answer := Host.Outcome State Fault Refusal

/-- R34, R210: the state after reset of a core with `nctx` context slots, over spaces in which nothing is listed. -/
def State.resetWith (nctx : Nat) : State where
  ctx := List.replicate nctx .empty
  base := .empty
  work := .empty
  phase := .idle
  i := 0
  j := 0
  blocks := 0
  T := Z 32
  U := Z 32
  kbuf := Z 64
  klen := 0
  pad := Z 64
  idig := Z 32
  DIG := Z 32
  DIGV := false
  C := 0
  DKLEN := 0
  LEN0 := 0
  LEN1 := 0
  ERR := 0
  ERRINFO := 0
  IN0 := []
  IN1 := []
  OUT := []
  moves := []

/-- The machine right after reset, R34, with `Config.nctx` slots (log 2), empty spaces (log 3) and no move to come
(log 1). -/
def State.reset : State := State.resetWith Config.nctx

end Sys2Proof.Machine
end

