-- ==== Sys2Proof/Machine/Flags.lean ====
section
/-! DEFINITION. The flags and the codes: the three fields of a context record and the status code (R22), the flag BUSY
(R25), the outcome codes and the information words of the exceptions (R180). -/

namespace Sys2Proof.Machine

/-- R22: the status field of a context record. -/
def Ctx.st : Ctx → CtxStatus
  | .empty => .empty
  | .live _ => .live
  | .spent => .spent

/-- R22: the inner hash state of a context record. -/
def Ctx.inner : Ctx → HashState
  | .live c => .running c.inner
  | .empty => .hzero
  | .spent => .hzero

/-- R22: the outer hash state of a context record. -/
def Ctx.outer : Ctx → HashState
  | .live c => .running c.outer
  | .empty => .hzero
  | .spent => .hzero

/-- R22: the code of a status. -/
def CtxStatus.code : CtxStatus → Nat
  | .empty => 0
  | .live => 1
  | .spent => 2

/-- R25: `BUSY` is a name for `phase ≠ IDLE`. -/
def State.busy (s : State) : Bool := decide (s.phase ≠ .idle)

/-- R180: the code that `ERR` receives. -/
def Exc.code : Exc → BitVec 8
  | .rangeError _ => 1
  | .invalidParameter => 2
  | .illegalCommand _ => 3
  | .contextIndex _ => 4
  | .contextState _ _ => 5

/-- R180 to R186: the information word that `ERRINFO` receives. -/
def Exc.info : Exc → U64
  | .rangeError dklen => dklen
  | .invalidParameter => 0
  | .illegalCommand w => w.setWidth 64
  | .contextIndex k => BitVec.ofNat 64 k
  | .contextState k st => BitVec.ofNat 64 (k * 256 + st.code)

end Sys2Proof.Machine
end

