-- ==== Sys2Proof/Machine/Ops.lean ====
section
/-! DEFINITION. The named operations over memory and registers: the byte spaces (R50, R51), the context file (R23), the
blocks, raising an exception (R189), completing a command (R31) and reset (R210). -/

namespace Sys2Proof.Machine

/-! ### Byte spaces -/

/-- What an offset reads as that nothing has written: DESIGN CHOICE, unsafe (log 3). -/
def Memory.blank : Byte := 0x00

/-- One past the last offset: offsets are `u64`, R50. -/
def Memory.size : Nat := 2 ^ 64

/-- The byte at an offset. -/
def Memory.read : Memory → Nat → Byte
  | [], _ => Memory.blank
  | (b, w) :: m, a => if a = b then w else Memory.read m a

/-- A list that starts with the cell of an offset, unless the byte is what an unlisted offset reads as. -/
def Memory.cons (a : Nat) (v : Byte) (m : Memory) : Memory := if v = Memory.blank then m else (a, v) :: m

/-- Write one byte, keeping the canonical form. -/
def Memory.write : Memory → Nat → Byte → Memory
  | [], a, v => Memory.cons a v []
  | (b, w) :: m, a, v =>
    if a < b then Memory.cons a v ((b, w) :: m)
    else if a = b then Memory.cons a v m
    else (b, w) :: Memory.write m a v

/-- The canonical form from an offset on: offsets strictly rising, inside the space, no unlisted value. -/
def Memory.wfFrom : Nat → Memory → Bool
  | _, [] => true
  | lo, (a, v) :: m => decide (lo ≤ a) && decide (a < Memory.size) && decide (v ≠ Memory.blank) && Memory.wfFrom (a + 1) m

/-- The canonical form of a byte space. -/
def Memory.wf (m : Memory) : Bool := Memory.wfFrom 0 m

/-- R51: the `n` bytes at offsets `off` to `off + n − 1`, index order. -/
def Memory.readBytes (m : Memory) : Nat → Nat → Bytes
  | _, 0 => []
  | off, n + 1 => Memory.read m off :: Memory.readBytes m (off + 1) n

/-- R51: write a byte sequence at offsets `off` on: byte `t` lands at `off + t`. -/
def Memory.writeBytes (m : Memory) : Nat → Bytes → Memory
  | _, [] => m
  | off, v :: vs => Memory.writeBytes (Memory.write m off v) (off + 1) vs

/-- R50: the content of a space. -/
def State.space (s : State) : Space → Memory
  | .in0 => s.IN0
  | .in1 => s.IN1
  | .out => s.OUT

/-- Replace the content of a space. -/
def State.setSpace (s : State) : Space → Memory → State
  | .in0, m => { s with IN0 := m }
  | .in1, m => { s with IN1 := m }
  | .out, m => { s with OUT := m }

/-- R51: `MemRead(space, off, n)`. -/
def memRead (sp : Space) (off n : Nat) (s : State) : Bytes := (s.space sp).readBytes off n

/-- R51: `MemWrite(OUT, off, n, v)` with `n = len(v)`. -/
def memWriteOut (off : Nat) (v : Bytes) (s : State) : State := { s with OUT := s.OUT.writeBytes off v }

/-! ### The context file -/

/-- R11, R23: the number of context slots. -/
def State.nctx (s : State) : Nat := s.ctx.length

/-- R23: read slot `k`, for `k < NCTX`. -/
def State.slot (s : State) (k : Nat) : Ctx := s.ctx.getD k .empty

/-- R23, R33: write slot `k` and no other. -/
def State.setSlot (s : State) (k : Nat) (c : Ctx) : State := { s with ctx := s.ctx.set k c }

/-! ### Parameter registers -/

/-- R30: read a parameter register. -/
def State.param (s : State) : Param → U64
  | .len0 => s.LEN0
  | .len1 => s.LEN1
  | .c => s.C
  | .dklen => s.DKLEN

/-- R35: the host writes a parameter register. -/
def State.setParam (s : State) : Param → U64 → State
  | .len0, v => { s with LEN0 := v }
  | .len1, v => { s with LEN1 := v }
  | .c, v => { s with C := v }
  | .dklen, v => { s with DKLEN := v }

/-! ### Blocks -/

/-- `b[0 ..< len(d)] <- d`, the rest of `b` kept; bytes of `d` past the end of `b` have no place. -/
def fillHead {n : Nat} (b : Block n) (d : Bytes) : Block n :=
  ⟨(d ++ b.val.drop d.length).take n, by simp [b.2]; omega⟩

/-- `for t in 0 .. k-1: pad[t] <- pad[t] xor key[t]`, R110. -/
def xorHead {n : Nat} (pad key : Block n) (k : Nat) : Block n :=
  ⟨xorBytes (pad.val.take k) (key.val.take k) ++ pad.val.drop k, by simp [xorBytes, pad.2, key.2]; omega⟩

/-! ### Ending a command -/

/-- R189: taking an exception. `ERR` and `ERRINFO` receive the code and the information word and nothing else changes:
there is no handler, no saved register and no mode (R189), and nothing to return from (R190), so the core is at once
ready for the next command. -/
def raise (e : Exc) (s : State) : Answer := .next { s with ERR := e.code, ERRINFO := e.info }

/-- R31, R115 to R118, R140: a command that completes sets `ERR` and `ERRINFO` to 0. -/
def complete (s : State) : Answer := .next { s with ERR := 0, ERRINFO := 0 }

/-- R210, R211: reset of a core that may be running. The core's state takes its values of R34; the host's spaces keep
their bytes; the number of slots is the machine's; the host's moves to come are the host's. -/
def State.hardReset (s : State) : State :=
  { State.resetWith s.nctx with IN0 := s.IN0, IN1 := s.IN1, OUT := s.OUT, moves := s.moves }

end Sys2Proof.Machine
end

