-- ==== Sys2Proof/Machine/Operands.lean ====
section
/-! DEFINITION. Operand binding (30_encoding.md R73) and the block counter `INT(i)` (R74). An operand is always read
whole (20_memory.md R51). -/

namespace Sys2Proof.Machine

/-- R73: the key of `HSEED`, the data of `HUPDATE`, the passphrase of `DERIVE`: `MemRead(IN0, 0, LEN0)`. -/
def operand0 (s : State) : Bytes := memRead .in0 0 s.LEN0.toNat s

/-- R73: the salt of `DERIVE`: `MemRead(IN1, 0, LEN1)`. -/
def operand1 (s : State) : Bytes := memRead .in1 0 s.LEN1.toNat s

/-- R74: `INT(i)`, the four bytes `i[31:24], i[23:16], i[15:8], i[7:0]`, most significant first. -/
def INT (i : U64) : Bytes :=
  [i.extractLsb' 24 8, i.extractLsb' 16 8, i.extractLsb' 8 8, i.extractLsb' 0 8]

/-- R143: `(DKLEN + 31) div 32`, in `u64`. -/
def blocksOf (dklen : U64) : U64 := (dklen + 31) / 32

/-- R146: the offset in `OUT` at which output block `i` starts, `(i − 1) × 32`, in `u64`. -/
def outOffset (i : U64) : U64 := (i - 1) * 32

/-- R146: how many bytes of block `i` are copied, `min(32, DKLEN − off)`, in `u64`. -/
def outCount (dklen i : U64) : U64 := if dklen - outOffset i < 32 then dklen - outOffset i else 32

end Sys2Proof.Machine
end

