-- ==== Sys2Proof/Machine/Sha256.lean ====
section
/-! DEFINITION. SHA-256 (40_hash_primitive.md R96 to R98), its concrete running state (R99), and the primitive the model
is instantiated with (R95, log 11). -/

namespace Sys2Proof.Machine.Sha256

/-- R96: SHA-256 works on 32-bit words. -/
abbrev W := BitVec 32

/-- The eight chaining words, in the order `h[0]` to `h[7]`. -/
structure Chain where
  a : W
  b : W
  c : W
  d : W
  e : W
  f : W
  g : W
  h : W
  deriving DecidableEq, Repr

/-- R96: the initial chaining value. -/
def h0 : Chain :=
  ⟨0x6a09e667, 0xbb67ae85, 0x3c6ef372, 0xa54ff53a, 0x510e527f, 0x9b05688c, 0x1f83d9ab, 0x5be0cd19⟩

/-- R97: the table of the round constants, its eight lines as they stand there, each the 256 bits of its eight words. -/
def roundLines : List (BitVec 256) :=
  [ 0x428a2f9871374491b5c0fbcfe9b5dba53956c25b59f111f1923f82a4ab1c5ed5#256,
    0xd807aa9812835b01243185be550c7dc372be5d7480deb1fe9bdc06a7c19bf174#256,
    0xe49b69c1efbe47860fc19dc6240ca1cc2de92c6f4a7484aa5cb0a9dc76f988da#256,
    0x983e5152a831c66db00327c8bf597fc7c6e00bf3d5a7914706ca635114292967#256,
    0x27b70a852e1b21384d2c6dfc53380d13650a7354766a0abb81c2c92e92722c85#256,
    0xa2bfe8a1a81a664bc24b8b70c76c51a3d192e819d6990624f40e3585106aa070#256,
    0x19a4c1161e376c082748774c34b0bcb5391c0cb34ed8aa4a5b9cca4f682e6ff3#256,
    0x748f82ee78a5636f84c878148cc7020890befffaa4506cebbef9a3f7c67178f2#256 ]

/-- The eight words of a line of R97, the leftmost first. -/
def wordsOfLine (line : BitVec 256) : List W :=
  (List.range 8).map fun n => line.extractLsb' (32 * (7 - n)) 32

/-- R97: the 64 round constants, in order. -/
def roundK : List W := roundLines.flatMap wordsOfLine

/-- R98: the schedule's `s0`. -/
def smallSigma0 (x : W) : W := x.rotateRight 7 ^^^ x.rotateRight 18 ^^^ (x >>> 3)

/-- R98: the schedule's `s1`. -/
def smallSigma1 (x : W) : W := x.rotateRight 17 ^^^ x.rotateRight 19 ^^^ (x >>> 10)

/-- R98: the round's `S1`. -/
def bigSigma1 (e : W) : W := e.rotateRight 6 ^^^ e.rotateRight 11 ^^^ e.rotateRight 25

/-- R98: the round's `S0`. -/
def bigSigma0 (a : W) : W := a.rotateRight 2 ^^^ a.rotateRight 13 ^^^ a.rotateRight 22

/-- R98: `ch`. -/
def choose (e f g : W) : W := (e &&& f) ^^^ (~~~e &&& g)

/-- R98: `mj`. -/
def majority (a b c : W) : W := (a &&& b) ^^^ (a &&& c) ^^^ (b &&& c)

/-- R96: the words of a byte sequence, each read big-endian; a tail of fewer than four bytes is no word. -/
def wordsOf : Bytes → List W
  | b0 :: b1 :: b2 :: b3 :: rest => (b0 ++ b1 ++ b2 ++ b3) :: wordsOf rest
  | _ => []

/-- R98: `n` more words of the schedule, the newest word first: of a list `w[t-1], w[t-2], …` the entries 1, 6, 14, 15
are `w[t-2]`, `w[t-7]`, `w[t-15]`, `w[t-16]`. -/
def extendSchedule : Nat → List W → List W
  | 0, ws => ws
  | n + 1, ws =>
    extendSchedule n ((ws.getD 15 0 + smallSigma0 (ws.getD 14 0) + ws.getD 6 0 + smallSigma1 (ws.getD 1 0)) :: ws)

/-- R98: the schedule `w[0]` to `w[63]` of a block of 64 bytes. -/
def schedule (blk : Bytes) : List W := (extendSchedule 48 (wordsOf blk).reverse).reverse

/-- R98: one round; every right-hand side uses the values from before the round. -/
def oneRound (v : Chain) (k w : W) : Chain :=
  let t1 := v.h + bigSigma1 v.e + choose v.e v.f v.g + k + w
  let t2 := bigSigma0 v.a + majority v.a v.b v.c
  ⟨t1 + t2, v.a, v.b, v.c, v.d + t1, v.e, v.f, v.g⟩

/-- R98: the rounds, one for each constant and word. -/
def allRounds : List W → List W → Chain → Chain
  | k :: ks, w :: ws, v => allRounds ks ws (oneRound v k w)
  | _, _, v => v

/-- R98: `compress(h, B)`. -/
def compress (h : Chain) (blk : Bytes) : Chain :=
  let v := allRounds roundK (schedule blk) h
  ⟨h.a + v.a, h.b + v.b, h.c + v.c, h.d + v.d, h.e + v.e, h.f + v.f, h.g + v.g, h.h + v.h⟩

/-- R96: a word written big-endian. -/
def bytesOfWord (x : W) : Bytes :=
  [x.extractLsb' 24 8, x.extractLsb' 16 8, x.extractLsb' 8 8, x.extractLsb' 0 8]

/-- R98 step (3): the digest. -/
def digestOf (v : Chain) : Block DIGEST_LEN :=
  ⟨bytesOfWord v.a ++ bytesOfWord v.b ++ bytesOfWord v.c ++ bytesOfWord v.d ++ bytesOfWord v.e ++ bytesOfWord v.f
    ++ bytesOfWord v.g ++ bytesOfWord v.h, rfl⟩

/-- R98 step (1): `len8`, the bit length `8 × L` as eight bytes, big-endian. -/
def lengthField (len : Nat) : Bytes :=
  let n : U64 := BitVec.ofNat 64 (8 * len)
  [n.extractLsb' 56 8, n.extractLsb' 48 8, n.extractLsb' 40 8, n.extractLsb' 32 8, n.extractLsb' 24 8,
    n.extractLsb' 16 8, n.extractLsb' 8 8, n.extractLsb' 0 8]

/-- R98 step (1): `k`, the least number with `(L + 1 + k) mod 64 = 56`. -/
def zeroCount (len : Nat) : Nat := (119 - len % 64) % 64

/-- R98 step (1): what follows a message of `len` bytes. -/
def padding (len : Nat) : Bytes := 0x80 :: rep 0x00 (zeroCount len) ++ lengthField len

/-- R98 step (2): `compress` over the first `n` blocks of 64 bytes. -/
def compressBlocks : Nat → Chain → Bytes → Chain
  | 0, h, _ => h
  | n + 1, h, m => compressBlocks n (compress h (m.take 64)) (m.drop 64)

/-- R98 step (2): `compress` over every whole block of 64 bytes. -/
def compressAll (h : Chain) (m : Bytes) : Chain := compressBlocks (m.length / 64) h m

/-- R98: SHA-256 of a message. -/
def hash (m : Bytes) : Block DIGEST_LEN := digestOf (compressAll h0 (m ++ padding m.length))

/-- R99: a concrete running state: the chaining words, the bytes not yet compressed, the bytes absorbed so far (a 64-bit
count). -/
structure Concrete where
  chain : Chain
  buffer : Bytes
  count : U64
  deriving DecidableEq, Repr

/-- R99: `HInit()`. -/
def Concrete.init : Concrete := ⟨h0, [], 0⟩

/-- R99: `HUpdate`: append to the buffer and compress each whole block. -/
def Concrete.update (s : Concrete) (d : Bytes) : Concrete :=
  let m := s.buffer ++ d
  ⟨compressAll s.chain m, m.drop (64 * (m.length / 64)), s.count + BitVec.ofNat 64 d.length⟩

/-- R99: `HFinal`: pad the buffered tail using the total count. -/
def Concrete.final (s : Concrete) : Block DIGEST_LEN :=
  digestOf (compressAll s.chain (s.buffer ++ padding s.count.toNat))

/-- D19: the cleared state of the SHA-256 instance, the all-zero record. -/
def Concrete.zero : Concrete := ⟨⟨0, 0, 0, 0, 0, 0, 0, 0⟩, [], 0⟩

end Sys2Proof.Machine.Sha256

namespace Sys2Proof.Machine

/-- R95, R100: the hash primitive of this model, SHA-256 with its `MAX_ABSORB` (log 4, log 11). -/
def theHash : HashPrimitive where
  hash := Sha256.hash
  maxAbsorb := Config.maxAbsorb

end Sys2Proof.Machine
end

