-- ==== Sys2Proof/Machine/Hmac.lean ====
section
/-! DEFINITION. The HMAC context unit (41_hmac.md): the hash primitive's incremental form (R90 to R92), the
micro-operations R110 to R114, and the four host commands R115 to R118. Everything is written over a primitive `P`
(R9); the meanings that `exec` calls take it to be `theHash`. -/

namespace Sys2Proof.Machine

/-! ### The primitive's incremental form -/

/-- R90, R91: `HInit()`. -/
def HInit : Running := ⟨[]⟩

/-- R90, R91: `HUpdate(s, d)`. -/
def HUpdate (r : Running) (d : Bytes) : Running := ⟨r.absorbed ++ d⟩

/-- R90, R91: `HFinal(s)`, which is `Hash(absorbed(s))`. -/
def HFinal (P : HashPrimitive) (r : Running) : Block 32 := P.hash r.absorbed

/-- R100: a hash state may absorb `n` bytes. -/
def absorbs (P : HashPrimitive) (n : Nat) : Bool :=
  match P.maxAbsorb with
  | none => true
  | some limit => decide (n ≤ limit)

/-- R100: the hash states of `hmac_seed` stay within `MAX_ABSORB`, for a key of `n` bytes: the two pads of 64 bytes, and
the key itself where it is reduced. -/
def seedAbsorbs (P : HashPrimitive) (n : Nat) : Bool := absorbs P 64 && (decide (n ≤ 64) || absorbs P n)

/-- R100: feeding `n` bytes to the inner state stays within `MAX_ABSORB`. -/
def updateAbsorbs (P : HashPrimitive) (c : LiveCtx) (n : Nat) : Bool := absorbs P (c.inner.absorbed.length + n)

/-- R100: `hmac_final` feeds the 32 bytes of the inner digest to the outer state. -/
def finalAbsorbs (P : HashPrimitive) (c : LiveCtx) : Bool := absorbs P (c.outer.absorbed.length + 32)

/-! ### Micro-operations -/

/-- R110 step 1, R121: the key, reduced if it is longer than 64 bytes. -/
def reducedKey (P : HashPrimitive) (key : Bytes) : Bytes :=
  if 64 < key.length then (P.hash key).val else key

/-- R121: a reduced key has at most 64 bytes. -/
theorem reducedKey_length (P : HashPrimitive) (key : Bytes) : (reducedKey P key).length < 65 := by
  unfold reducedKey
  split
  · have h : ((P.hash key).val).length = 32 := (P.hash key).2
    omega
  · omega

/-- R110 step 1: `kbuf` and `klen` receive the key, raw or reduced. -/
def loadKey (P : HashPrimitive) (key : Bytes) (s : State) : State :=
  { s with
    kbuf := fillHead s.kbuf (reducedKey P key)
    klen := ⟨(reducedKey P key).length, reducedKey_length P key⟩ }

/-- R110 steps 2 and 3: build a pad block from a constant and the key in `kbuf`. -/
def buildPad (c : Byte) (s : State) : State := { s with pad := xorHead (Block.rep c 64) s.kbuf s.klen.val }

/-- R110 step 4, R28: clear the key material. -/
def clearSeedBuffers (s : State) : State := { s with kbuf := Z 64, klen := 0, pad := Z 64 }

/-- R110: `hmac_seed(key)`: the context and what the state is when it returns. -/
def hmacSeed (P : HashPrimitive) (key : Bytes) (s : State) : LiveCtx × State :=
  let s1 := loadKey P key s
  let s2 := buildPad IPAD s1
  let inner := HUpdate HInit s2.pad.val
  let s3 := buildPad OPAD s2
  let outer := HUpdate HInit s3.pad.val
  (⟨inner, outer⟩, clearSeedBuffers s3)

/-- R111: `hmac_update(c, data)`. -/
def hmacUpdate (c : LiveCtx) (data : Bytes) : LiveCtx := { inner := HUpdate c.inner data, outer := c.outer }

/-- R112: `hmac_final(c)`: the digest and what the state is when it returns. The spent context record it also returns
is `Ctx.spent`, which the caller writes. -/
def hmacFinal (P : HashPrimitive) (c : LiveCtx) (s : State) : Block 32 × State :=
  let s1 := { s with idig := HFinal P c.inner }
  let o := HUpdate c.outer s1.idig.val
  let d := HFinal P o
  (d, { s1 with idig := Z 32 })

/-- R113: `hmac_clone(c)`. -/
def hmacClone (c : LiveCtx) : LiveCtx := { inner := c.inner, outer := c.outer }

/-- R114: `ctx_cleared()`. -/
def ctxCleared : Ctx := .empty

/-! ### Host commands, over a primitive -/

/-- R115: `HSEED cd`. -/
def hseedWith (P : HashPrimitive) (cd : Nat) (s : State) : Answer :=
  if s.nctx ≤ cd then raise (.contextIndex cd) s
  else if seedAbsorbs P s.LEN0.toNat then
    let seeded := hmacSeed P (operand0 s) s
    complete (seeded.2.setSlot cd (.live seeded.1))
  else .refused .absorbLimit

/-- R116: `HUPDATE cd`. -/
def hupdateWith (P : HashPrimitive) (cd : Nat) (s : State) : Answer :=
  if s.nctx ≤ cd then raise (.contextIndex cd) s
  else
    match s.slot cd with
    | .live c =>
      if updateAbsorbs P c s.LEN0.toNat then complete (s.setSlot cd (.live (hmacUpdate c (operand0 s))))
      else .refused .absorbLimit
    | .empty => raise (.contextState cd .empty) s
    | .spent => raise (.contextState cd .spent) s

/-- R117: `HFINAL cd`. -/
def hfinalWith (P : HashPrimitive) (cd : Nat) (s : State) : Answer :=
  if s.nctx ≤ cd then raise (.contextIndex cd) s
  else
    match s.slot cd with
    | .live c =>
      if finalAbsorbs P c then
        let done := hmacFinal P c s
        complete { done.2.setSlot cd .spent with DIG := done.1, DIGV := true }
      else .refused .absorbLimit
    | .empty => raise (.contextState cd .empty) s
    | .spent => raise (.contextState cd .spent) s

/-- R118: `HCLONE cd, cs`. -/
def hcloneSlots (cd cs : Nat) (s : State) : Answer :=
  if s.nctx ≤ cd then raise (.contextIndex cd) s
  else if s.nctx ≤ cs then raise (.contextIndex cs) s
  else
    match s.slot cs with
    | .live c => complete (s.setSlot cd (.live (hmacClone c)))
    | .empty => raise (.contextState cs .empty) s
    | .spent => raise (.contextState cs .spent) s

/-! ### The meanings -/

/-- `HSEED cd`, R115, with the model's primitive. -/
def execHseed (cd : Nat) (s : State) : Answer := hseedWith theHash cd s

/-- `HUPDATE cd`, R116, with the model's primitive. -/
def execHupdate (cd : Nat) (s : State) : Answer := hupdateWith theHash cd s

/-- `HFINAL cd`, R117, with the model's primitive. -/
def execHfinal (cd : Nat) (s : State) : Answer := hfinalWith theHash cd s

/-- `HCLONE cd, cs`, R118; it uses no hash primitive. -/
def execHclone (cd cs : Nat) (s : State) : Answer := hcloneSlots cd cs s

end Sys2Proof.Machine
end

