-- ==== Sys2Proof/Machine/Engine.lean ====
section
/-! DEFINITION. The PBKDF2 engine (42_pbkdf2.md): the steps of its phases (R143 to R147), its run, and the command
`DERIVE` (R140). A phase step answers a fault where the state breaks what the phase requires (log 8, log 9): no run of
`DERIVE` meets such a state. -/

namespace Sys2Proof.Machine

/-- R143: phase `P_SEED`. -/
def phaseSeed (P : HashPrimitive) (s : State) : Answer :=
  if seedAbsorbs P s.LEN0.toNat && absorbs P (64 + s.LEN1.toNat) then
    let passwd := operand0 s
    let salt := operand1 s
    let seeded := hmacSeed P passwd s
    let s1 := { seeded.2 with base := .live (hmacUpdate seeded.1 salt), blocks := blocksOf s.DKLEN, i := 1 }
    .next { s1 with phase := if 1 ≤ s1.blocks then .pFirst else .pClear }
  else .refused .absorbLimit

/-- R144, R145: where an engine goes after a PRF application. -/
def afterPrf (s : State) : Phase := if s.j < s.C then .pIter else .pCopy

/-- R144: phase `P_FIRST`, which requires a LIVE base context and `1 ≤ i ≤ blocks`. -/
def phaseFirst (P : HashPrimitive) (s : State) : Answer :=
  match s.base with
  | .live b =>
    if 1 ≤ s.i ∧ s.i ≤ s.blocks then
      let work := hmacClone b
      if updateAbsorbs P work 4 && finalAbsorbs P work then
        let done := hmacFinal P (hmacUpdate work (INT s.i)) s
        let s1 := { done.2 with work := .spent, U := done.1, T := done.1, j := 1 }
        .next { s1 with phase := afterPrf s1 }
      else .refused .absorbLimit
    else .fault (.phaseRequires .pFirst)
  | .empty => .fault (.phaseRequires .pFirst)
  | .spent => .fault (.phaseRequires .pFirst)

/-- R145: phase `P_ITER`, which requires `1 ≤ j < C`. -/
def phaseIter (P : HashPrimitive) (s : State) : Answer :=
  if 1 ≤ s.j ∧ s.j < s.C then
    if seedAbsorbs P s.LEN0.toNat && absorbs P 96 then
      let passwd := operand0 s
      let seeded := hmacSeed P passwd s
      let done := hmacFinal P (hmacUpdate seeded.1 s.U.val) seeded.2
      let s1 := { done.2 with work := .spent, U := done.1, T := s.T.xor done.1, j := s.j + 1 }
      .next { s1 with phase := afterPrf s1 }
    else .refused .absorbLimit
  else .fault (.phaseRequires .pIter)

/-- R146: phase `P_COPY`, which requires `1 ≤ i ≤ blocks` and `j = C`. -/
def phaseCopy (s : State) : Answer :=
  if (1 ≤ s.i ∧ s.i ≤ s.blocks) ∧ s.j = s.C then
    if outOffset s.i < s.DKLEN then
      let off := (outOffset s.i).toNat
      let n := (outCount s.DKLEN s.i).toNat
      let s1 := memWriteOut off (s.T.val.take n) s
      if s.i = s.blocks then .next { s1 with phase := .pClear }
      else .next { s1 with i := s.i + 1, phase := .pFirst }
    else .fault .outBounds
  else .fault (.phaseRequires .pCopy)

/-- R147: phase `P_CLEAR`. -/
def phaseClear (s : State) : Answer :=
  .next { s with
    base := ctxCleared, work := ctxCleared, T := Z 32, U := Z 32, i := 0, j := 0, blocks := 0, phase := .idle }

/-- R142: one step of the engine performs the action of the current phase; in `IDLE` there is none. -/
def engineStep (P : HashPrimitive) (s : State) : Answer :=
  match s.phase with
  | .idle => .next s
  | .pSeed => phaseSeed P s
  | .pFirst => phaseFirst P s
  | .pIter => phaseIter P s
  | .pCopy => phaseCopy s
  | .pClear => phaseClear s

/-- R140: `while phase != IDLE: perform the step of the current phase`, for at most `n` steps. -/
def engineRun (P : HashPrimitive) : Nat → State → Answer
  | 0, s => .next s
  | n + 1, s =>
    if s.phase = .idle then .next s
    else
      match engineStep P s with
      | .next t => engineRun P n t
      | .fault r => .fault r
      | .refused r => .refused r

/-- R151: the steps from `P_SEED` to `IDLE`, `2 + blocks × (C + 1)`: the fuel of the engine's run (log 7). -/
def engineSteps (s : State) : Nat := 2 + (blocksOf s.DKLEN).toNat * (s.C.toNat + 1)

/-- R140: the exception `DERIVE` raises before any computation, none where both checks pass; R188: the range first. -/
def deriveCheck (s : State) : Option Exc :=
  if MAX_DKLEN < s.DKLEN then some (.rangeError s.DKLEN)
  else if s.C = 0 then some .invalidParameter
  else none

/-- R140: `phase <- P_SEED`. -/
def engineStart (s : State) : State := { s with phase := .pSeed }

/-- R140: `DERIVE`. -/
def deriveWith (P : HashPrimitive) (s : State) : Answer :=
  match deriveCheck s with
  | some e => raise e s
  | none =>
    match engineRun P (engineSteps s) (engineStart s) with
    | .next t => complete t
    | .fault r => .fault r
    | .refused r => .refused r

/-- `DERIVE`, R140, with the model's primitive. -/
def execDerive (s : State) : Answer := deriveWith theHash s

/-- A step of a machine whose engine runs (`phase ≠ IDLE`): one engine step, and the end of the command when it leads
to `IDLE` (R140, R142). -/
def busyStep (P : HashPrimitive) (s : State) : Answer :=
  match engineStep P s with
  | .next t => if t.phase = .idle then complete t else .next t
  | .fault r => .fault r
  | .refused r => .refused r

end Sys2Proof.Machine
end

