-- ==== Sys2Proof/Machine/Dispatch.lean ====
section
/-! DEFINITION. One arm per command of Instr. -/

namespace Sys2Proof.Machine

def exec (i : Instr) (s : State) : Host.Outcome State Fault Refusal :=
  match i with
  | .hseed cd => Sys2Proof.Machine.execHseed cd s
  | .hupdate cd => Sys2Proof.Machine.execHupdate cd s
  | .hfinal cd => Sys2Proof.Machine.execHfinal cd s
  | .hclone cd cs => Sys2Proof.Machine.execHclone cd cs s
  | .derive => Sys2Proof.Machine.execDerive s

end Sys2Proof.Machine
end

