-- ==== Sys2Proof/Machine/Command.lean ====
section
/-! DEFINITION. What the core does with the host's next move: a command word is decoded and performed (30_encoding.md
R70, R75, R79), the host's writes land (10_state.md R35, 30_encoding.md R77), reset is taken (70_reset_and_hazards.md
R210, R211). -/

namespace Sys2Proof.Machine

/-- R70, R75, R184: perform a command word: the command it decodes to, as `run` gives it, or IllegalCommand before any
operand or register is looked at (R188). -/
def runWordOver (run : Instr → State → Answer) (w : CmdWord) (s : State) : Answer :=
  match decode w with
  | .instr i => run i s
  | .illegal _ => raise (.illegalCommand w) s

/-- R70: perform a command word with the commands of `exec`. -/
def runWord (w : CmdWord) (s : State) : Answer := runWordOver exec w s

/-- R35, R57: the host writes bytes into a space; an offset past `2^64 − 1` is none (log 10). -/
def hostWrite (sp : Space) (off : Nat) (bytes : Bytes) (s : State) : Answer :=
  if off + bytes.length ≤ Memory.size then .next (s.setSpace sp ((s.space sp).writeBytes off bytes))
  else .fault .hostOffset

/-- R77: `.in0` and `.in1`: fill a space from offset 0 and set its length register (log 15); the length is a `u64`. -/
def hostFill (sp : Space) (r : Param) (bytes : Bytes) (s : State) : Answer :=
  if bytes.length < Memory.size then
    .next ((s.setSpace sp ((s.space sp).writeBytes 0 bytes)).setParam r (BitVec.ofNat 64 bytes.length))
  else .fault .hostOffset

/-- R210: reset after what was run; a run that stops is not reached by the reset. -/
def thenReset (a : Answer) : Answer :=
  match a with
  | .next t => .next t.hardReset
  | .fault r => .fault r
  | .refused r => .refused r

/-- R211: the host presents a command word and asserts reset after `k` engine steps. Only `DERIVE`, once it has passed
its checks, takes steps; what it has copied to `OUT` stays. Every other command is one atomic transaction (D1), so reset
can only follow it, and R100 refuses it where it would be refused alone (log 12). -/
def resetDuring (P : HashPrimitive) (run : Instr → State → Answer) (w : CmdWord) (k : Nat) (s : State) : Answer :=
  match decode w, deriveCheck s with
  | .instr .derive, none => thenReset (engineRun P k (engineStart s))
  | _, _ => thenReset (runWordOver run w s)

/-- One move of the host, R35, R70, R77, R210, R211, on a core with the primitive `P` and the commands `run`. -/
def performOver (P : HashPrimitive) (run : Instr → State → Answer) (m : HostMove) (s : State) : Answer :=
  match m with
  | .present w => runWordOver run w s
  | .write sp off bytes => hostWrite sp off.toNat bytes s
  | .setParam r v => .next (s.setParam r v)
  | .in0 bytes => hostFill .in0 .len0 bytes s
  | .in1 bytes => hostFill .in1 .len1 bytes s
  | .reset => .next s.hardReset
  | .presentThenReset w k => resetDuring P run w k s

/-- One move of the host, on the core of `exec`. -/
def perform (m : HostMove) (s : State) : Answer := performOver theHash exec m s

/-- R142 (row `IDLE`), R219: a core that waits takes the host's next move; with none it goes on waiting. -/
def idleStepOver (P : HashPrimitive) (run : Instr → State → Answer) (s : State) : Answer :=
  match s.moves with
  | [] => .next s
  | m :: rest => performOver P run m { s with moves := rest }

/-- One step of a core, R58, R142, R216: an engine step while `phase ≠ IDLE`, when the host's moves wait (log 13), else
the host's next move. -/
def stepOver (P : HashPrimitive) (run : Instr → State → Answer) (s : State) : Answer :=
  if s.phase = .idle then idleStepOver P run s else busyStep P s

/-- The host presents a word as its next move to a core that waits: where `step` takes its next command from. -/
def presentWord (w : CmdWord) (s : State) : State := { s with phase := .idle, moves := .present w :: s.moves }

end Sys2Proof.Machine
end

