-- ==== Sys2Proof/Machine/Step.lean ====
section
/-! DEFINITION. One step of the machine: an engine step while the engine runs (R142), else the host's next move. -/

namespace Sys2Proof.Machine

/-- One step of the core whose commands are `exec` (log 11). -/
def step (s : State) : Host.Outcome State Fault Refusal := stepOver theHash exec s

/-- The state in which the next step performs the command word `w`, numbered as spec/opcode_table.json numbers it: the
host presents it to a core that waits (log 1, log 17). -/
def State.withFetchWord (s : State) (nbits w : Nat) : State := presentWord (wordOfTable nbits w) s

end Sys2Proof.Machine
end

