-- ==== Sys2Proof/Machine/Assembler.lean ====
section
/-! DEFINITION. The assembler text of R77 and the pseudo-instruction of R78. -/

namespace Sys2Proof.Machine

/-- R77: a context operand, `c<k>`. -/
def slotText (k : Nat) : String := "c" ++ toString k

/-- R77: the text of a command, the destination first. -/
def commandText : Instr → String
  | .hseed cd => "HSEED " ++ slotText cd
  | .hupdate cd => "HUPDATE " ++ slotText cd
  | .hfinal cd => "HFINAL " ++ slotText cd
  | .hclone cd cs => "HCLONE " ++ slotText cd ++ ", " ++ slotText cs
  | .derive => "DERIVE"

/-- R72, R77: the source's function names, accepted as aliases of the mnemonics. -/
def sourceName : Instr → String
  | .hseed _ => "HmacSeed"
  | .hupdate _ => "HmacUpdate"
  | .hfinal _ => "HmacFinalize"
  | .hclone _ _ => "HmacClone"
  | .derive => "Derive"

/-- R77: the host presents a command. -/
def issue (i : Instr) : HostMove := .present (encode i)

/-- R77: the directive `.c`. -/
def dirC (n : U64) : HostMove := .setParam .c n

/-- R77: the directive `.dklen`. -/
def dirDklen (n : U64) : HostMove := .setParam .dklen n

/-- R78: the pseudo-instruction `HMAC c<k>, <key bytes>, <message bytes>`; its result is in `DIG`. -/
def pseudoHmac (k : Nat) (key m : Bytes) : List HostMove :=
  [.in0 key, issue (.hseed k), .in0 m, issue (.hupdate k), issue (.hfinal k)]

end Sys2Proof.Machine
end

