-- ==== Sys2Proof/Machine/Parametric.lean ====
section
/-! DEFINITION. The machine with its parameters open (00_scope.md R9, R11): `Hash` and `MAX_ABSORB` are the argument `P`,
`NCTX` is the length of the context file of the state. `exec`, `step` and `core` are this machine at `theHash`
(Laws/Step.lean), the one primitive the spec writes out. -/

namespace Sys2Proof.Machine

/-- R9, R11: what a command does on a core with the primitive `P`. -/
def execWith (P : HashPrimitive) (i : Instr) (s : State) : Answer :=
  match i with
  | .hseed cd => hseedWith P cd s
  | .hupdate cd => hupdateWith P cd s
  | .hfinal cd => hfinalWith P cd s
  | .hclone cd cs => hcloneSlots cd cs s
  | .derive => deriveWith P s

/-- R70: a command word performed on a core with the primitive `P`. -/
def runWordWith (P : HashPrimitive) (w : CmdWord) (s : State) : Answer := runWordOver (execWith P) w s

/-- R9, R11: one step of a core with the primitive `P`. -/
def stepWith (P : HashPrimitive) (s : State) : Answer := stepOver P (execWith P) s

/-- R9, R11: the machine with the primitive `P` and `nctx` context slots. -/
def coreWith (P : HashPrimitive) (nctx : Nat) : Host.Core :=
  { State := State, Fault := Fault, Refusal := Refusal, step := stepWith P, reset := State.resetWith nctx }

end Sys2Proof.Machine
end

