-- ==== Sys2Proof/Machine/Function.lean ====
section
/-! DEFINITION. What the two units compute, as functions on byte sequences: `HMAC(K, m)` (41_hmac.md R119) and
`PBKDF2(P, S, c, dkLen)` (42_pbkdf2.md R141). The machine does not call them; claims compare it with them. -/

namespace Sys2Proof.Machine

/-- R119: `K'`, the key, raw or reduced, extended on the right with zero bytes to 64 bytes. -/
def keyBlock (P : HashPrimitive) (key : Bytes) : Bytes :=
  reducedKey P key ++ rep 0x00 (64 - (reducedKey P key).length)

/-- R119: `HMAC(K, m)`. -/
def hmac (P : HashPrimitive) (key m : Bytes) : Block 32 :=
  P.hash (xorBytes (keyBlock P key) (rep 0x5c 64)
    ++ (P.hash (xorBytes (keyBlock P key) (rep 0x36 64) ++ m)).val)

/-- R110, R119: the context `hmac_seed(key)` returns: the inner state has absorbed `K' xor rep(0x36, 64)`, the outer
state `K' xor rep(0x5c, 64)`. -/
def seedCtx (P : HashPrimitive) (key : Bytes) : LiveCtx where
  inner := ⟨xorBytes (keyBlock P key) (rep 0x36 64)⟩
  outer := ⟨xorBytes (keyBlock P key) (rep 0x5c 64)⟩

/-- R141: `U(i, j)` for `j = n + 1`. -/
def pbkdf2U (P : HashPrimitive) (passwd salt : Bytes) (i : Nat) : Nat → Block 32
  | 0 => hmac P passwd (salt ++ INT (BitVec.ofNat 64 i))
  | n + 1 => hmac P passwd (pbkdf2U P passwd salt i n).val

/-- R141: `T(i) = U(i, 1) xor … xor U(i, c)` for `c = n + 1`. -/
def pbkdf2T (P : HashPrimitive) (passwd salt : Bytes) (i : Nat) : Nat → Block 32
  | 0 => pbkdf2U P passwd salt i 0
  | n + 1 => (pbkdf2T P passwd salt i n).xor (pbkdf2U P passwd salt i (n + 1))

/-- R141: `T(1) ‖ T(2) ‖ … ‖ T(n)`. -/
def pbkdf2Blocks (P : HashPrimitive) (passwd salt : Bytes) (c : Nat) : Nat → Bytes
  | 0 => []
  | n + 1 => pbkdf2Blocks P passwd salt c n ++ (pbkdf2T P passwd salt (n + 1) (c - 1)).val

/-- R141: `PBKDF2(P, S, c, dkLen)`, for `c ≥ 1`. -/
def pbkdf2 (P : HashPrimitive) (passwd salt : Bytes) (c dkLen : Nat) : Bytes :=
  (pbkdf2Blocks P passwd salt c ((dkLen + 31) / 32)).take dkLen

end Sys2Proof.Machine
end

