-- ==== Sys2Proof/Safety.lean ====
section
/-! DEFINITION. What counts as a good state and a good run: the command-boundary invariant (10_state.md R36), the
invariant of every step, what the host can see (R35), a command that completed (R196), and the frames that claims speak of. -/

namespace Sys2Proof.Machine

/-- R28, R123: the transient buffers are cleared. -/
abbrev State.BuffersCleared (s : State) : Prop :=
  s.kbuf = Z 64 ∧ s.pad = Z 64 ∧ s.klen = 0 ∧ s.idig = Z 32

/-- R36: the command-boundary invariant. -/
abbrev State.AtBoundary (s : State) : Prop :=
  s.phase = .idle ∧ s.base = .empty ∧ s.work = .empty ∧ s.i = 0 ∧ s.j = 0 ∧ s.blocks = 0 ∧ s.T = Z 32 ∧ s.U = Z 32 ∧
    s.BuffersCleared

/-- R11: the number of context slots is a legal `NCTX`. -/
abbrev State.NctxLegal (s : State) : Prop := 2 ≤ s.nctx ∧ s.nctx ≤ 16

/-- The three byte spaces are in canonical form. -/
abbrev State.MemoryWf (s : State) : Prop := s.IN0.wf = true ∧ s.IN1.wf = true ∧ s.OUT.wf = true

/-- R140: what `DERIVE` checks before it starts the engine. -/
abbrev State.ChecksPassed (s : State) : Prop := s.DKLEN ≤ MAX_DKLEN ∧ 1 ≤ s.C

/-- R26, R143: while a block is being computed, the base context is LIVE, `blocks` is `ceil(DKLEN / 32)` and
`1 ≤ i ≤ blocks`. -/
abbrev State.InBlock (s : State) : Prop :=
  s.base.st = .live ∧ s.blocks = blocksOf s.DKLEN ∧ 1 ≤ s.i ∧ s.i ≤ s.blocks

/-- R142 to R147: what holds at the start of each phase. -/
def State.PhaseInv (s : State) : Prop :=
  match s.phase with
  | .idle => s.AtBoundary
  | .pSeed => s.ChecksPassed
  | .pFirst => s.ChecksPassed ∧ s.InBlock
  | .pIter => s.ChecksPassed ∧ s.InBlock ∧ 1 ≤ s.j ∧ s.j < s.C
  | .pCopy => s.ChecksPassed ∧ s.InBlock ∧ s.j = s.C
  | .pClear => s.ChecksPassed

/-- The invariant that every step keeps: `NCTX` is legal, the spaces are canonical, the transient buffers are cleared
(R36, R123), and what the current phase requires holds; at a command boundary that is R36. -/
def State.Inv (s : State) : Prop := s.NctxLegal ∧ s.MemoryWf ∧ s.BuffersCleared ∧ s.PhaseInv

/-- R100: no hash state of a context record has absorbed more than `n` bytes. -/
def Ctx.AbsorbedWithin (n : Nat) : Ctx → Prop
  | .live c => c.inner.absorbed.length ≤ n ∧ c.outer.absorbed.length ≤ n
  | .empty => True
  | .spent => True

/-- R100: no hash state of the core has absorbed more than `n` bytes: neither of a slot nor of the engine's contexts. -/
abbrev State.AbsorbedWithin (n : Nat) (s : State) : Prop :=
  (∀ c ∈ s.ctx, c.AbsorbedWithin n) ∧ s.base.AbsorbedWithin n ∧ s.work.AbsorbedWithin n

/-- What the host can read at a command boundary, R35. -/
structure HostView where
  DIG : Block 32
  DIGV : Bool
  C : U64
  DKLEN : U64
  LEN0 : U64
  LEN1 : U64
  ERR : BitVec 8
  ERRINFO : U64
  IN0 : Memory
  IN1 : Memory
  OUT : Memory
  deriving DecidableEq, Repr

/-- R35: the host's view of a state. -/
def State.hostView (s : State) : HostView :=
  { DIG := s.DIG, DIGV := s.DIGV, C := s.C, DKLEN := s.DKLEN, LEN0 := s.LEN0, LEN1 := s.LEN1, ERR := s.ERR,
    ERRINFO := s.ERRINFO, IN0 := s.IN0, IN1 := s.IN1, OUT := s.OUT }

/-- R196: the most recent command completed. -/
abbrev State.Completed (s : State) : Prop := s.ERR = 0

/-- R35, R186: what a host can learn of the slots, their statuses, through the faults. -/
def State.slotStatuses (s : State) : List CtxStatus := s.ctx.map Ctx.st

/-! ### Frames -/

/-- The parameter registers are as before (R30: the core never writes them). -/
abbrev State.SameParams (s t : State) : Prop :=
  t.C = s.C ∧ t.DKLEN = s.DKLEN ∧ t.LEN0 = s.LEN0 ∧ t.LEN1 = s.LEN1

/-- The engine's registers and contexts are as before. -/
abbrev State.SameEngine (s t : State) : Prop :=
  t.base = s.base ∧ t.work = s.work ∧ t.phase = s.phase ∧ t.i = s.i ∧ t.j = s.j ∧ t.blocks = s.blocks ∧ t.T = s.T ∧
    t.U = s.U

/-- The result register and its flag are as before. -/
abbrev State.SameDigest (s t : State) : Prop := t.DIG = s.DIG ∧ t.DIGV = s.DIGV

/-- Every byte of the two input spaces reads as before. -/
def State.SameInputs (s t : State) : Prop := ∀ a, t.IN0.read a = s.IN0.read a ∧ t.IN1.read a = s.IN1.read a

/-- Every byte of `OUT` reads as before. -/
def State.SameOut (s t : State) : Prop := ∀ a, t.OUT.read a = s.OUT.read a

/-- Every context slot but `k` is as before, and there are as many. -/
def State.SameSlotsBut (k : Nat) (s t : State) : Prop := t.nctx = s.nctx ∧ ∀ l, l ≠ k → t.slot l = s.slot l

/-! ### What a command names -/

/-- R70, R71: the context indices a command names, in the order in which they are checked (R188). -/
def slotsNamed : Instr → List Nat
  | .hseed cd => [cd]
  | .hupdate cd => [cd]
  | .hfinal cd => [cd]
  | .hclone cd cs => [cd, cs]
  | .derive => []

/-- R180, R186: the context a command operates on, which must be LIVE: for `HCLONE` the source. -/
def liveNeeded : Instr → Option Nat
  | .hseed _ => none
  | .hupdate cd => some cd
  | .hfinal cd => some cd
  | .hclone _ cs => some cs
  | .derive => none

/-! ### Operands, as the spec names them -/

/-- R140: the passphrase, `MemRead(IN0, 0, LEN0)`. -/
abbrev State.passwd (s : State) : Bytes := memRead .in0 0 s.LEN0.toNat s

/-- R140: the salt, `MemRead(IN1, 0, LEN1)`. -/
abbrev State.salt (s : State) : Bytes := memRead .in1 0 s.LEN1.toNat s

/-- R100: no hash state of a `DERIVE` on these operands absorbs more than the primitive supports. -/
def deriveAbsorbs (P : HashPrimitive) (s : State) : Bool :=
  absorbs P (64 + s.LEN1.toNat + 4) && absorbs P 96 && (decide (s.LEN0.toNat ≤ 64) || absorbs P s.LEN0.toNat)

end Sys2Proof.Machine
end

