-- ==== Sys2Proof/Certificates/Slice0/Obligations.lean ====
section
/-! DEFINITION. The statements for the provers, file by file of spec/. The docstring of each names the rule it
formalises; log <n> is a row of the assumption log that a clause rests on. -/

open Sys2Proof Sys2Proof.Machine

/-! ### 30_encoding.md -/

/-- R79: `decode` reads the three fields as R79 writes them out, `encode` is R79's formula, and the two are inverse to
each other on the well-formed commands and on the words that are not illegal. -/
def Obligations.DecodeAndEncodeFollowR79 : Prop :=
  (∀ w : CmdWord,
    let op := w.toNat / 256
    let cd := w.toNat / 16 % 16
    let cs := w.toNat % 16
    (decode w).instr? =
      if op = 0x01 ∧ cs = 0 then some (.hseed cd)
      else if op = 0x02 ∧ cs = 0 then some (.hupdate cd)
      else if op = 0x03 ∧ cs = 0 then some (.hfinal cd)
      else if op = 0x04 then some (.hclone cd cs)
      else if op = 0x10 ∧ cd = 0 ∧ cs = 0 then some .derive
      else none) ∧
  (∀ cd, cd < 16 →
    (encode (.hseed cd)).toNat = 0x0100 + 16 * cd ∧
    (encode (.hupdate cd)).toNat = 0x0200 + 16 * cd ∧
    (encode (.hfinal cd)).toNat = 0x0300 + 16 * cd ∧
    (∀ cs, cs < 16 → (encode (.hclone cd cs)).toNat = 0x0400 + 16 * cd + cs)) ∧
  (encode .derive).toNat = 0x1000 ∧
  (∀ i : Instr, i.wf = true → decode (encode i) = .instr i) ∧
  (∀ (w : CmdWord) (i : Instr), decode w = .instr i → i.wf = true ∧ encode i = w)

/-- 95_test_vectors.md section 4, the words of its decode round trip, and the illegal words of its vectors 4.8 to 4.11. -/
def Obligations.WordsOfTheSpecDecode : Prop :=
  decode 0x0100 = .instr (.hseed 0) ∧ decode 0x0130 = .instr (.hseed 3) ∧ decode 0x0210 = .instr (.hupdate 1) ∧
  decode 0x03F0 = .instr (.hfinal 15) ∧ decode 0x0410 = .instr (.hclone 1 0) ∧
  decode 0x0401 = .instr (.hclone 0 1) ∧ decode 0x04FF = .instr (.hclone 15 15) ∧ decode 0x1000 = .instr .derive ∧
  ((decode 0x0000).instr? = none ∧ (decode 0x0101).instr? = none ∧ (decode 0x1001).instr? = none ∧
    (decode 0x1010).instr? = none ∧ (decode 0x0500).instr? = none ∧ (decode 0xFFFF).instr? = none)

/-- R72: a word selects a row of the opcode map (`w and mask = match`) exactly when it decodes to a command of that
row, and no word selects two rows. -/
def Obligations.OpcodeMapSelectsTheDecodedRow : Prop :=
  ∀ w : CmdWord,
    (∀ r ∈ opcodeTable, (r.selects w = true ↔ ∃ i, decode w = .instr i ∧ i.mnemonic = r.mnemonic)) ∧
    (∀ r ∈ opcodeTable, ∀ r' ∈ opcodeTable, r.selects w = true → r'.selects w = true → r = r')

/-- R184, R75: a word that decodes to nothing, or selects no row of the opcode map, raises IllegalCommand with the word,
zero-extended, as its information, in every state, and changes nothing else. -/
def Obligations.IllegalWordRaisesIllegalCommand : Prop :=
  ∀ (w : CmdWord) (s : State), ((decode w).instr? = none ∨ ∀ r ∈ opcodeTable, r.selects w = false) →
    runWord w s = .next { s with ERR := 3, ERRINFO := BitVec.ofNat 64 w.toNat }

/-- R74: `INT(i)` is the four bytes of `i`, the most significant first; the phase that applies it, `P_FIRST`, is entered
with `i` in its range (under the invariant of every step). -/
def Obligations.IntIsFourBytesBigEndian : Prop :=
  (∀ i : U64, 1 ≤ i.toNat → i.toNat ≤ 2 ^ 32 - 1 →
    INT i = [BitVec.ofNat 8 (i.toNat / 2 ^ 24), BitVec.ofNat 8 (i.toNat / 2 ^ 16 % 256),
      BitVec.ofNat 8 (i.toNat / 2 ^ 8 % 256), BitVec.ofNat 8 (i.toNat % 256)]) ∧
  INT 1 = [0x00, 0x00, 0x00, 0x01] ∧ INT 2 = [0x00, 0x00, 0x00, 0x02] ∧ INT 256 = [0x00, 0x00, 0x01, 0x00] ∧
  INT (BitVec.ofNat 64 (2 ^ 32 - 1)) = [0xff, 0xff, 0xff, 0xff] ∧
  (∀ s : State, s.Inv → s.phase = .pFirst → 1 ≤ s.i.toNat ∧ s.i.toNat ≤ 2 ^ 32 - 1)

/-! ### Steps -/

/-- R70, R142 (row IDLE), R75: a waiting core takes the word the host presents; where it decodes to a command, the step
is that command's `exec` on the state with the host's move taken, and nothing else is added. -/
def Obligations.StepRunsTheDecodedCommand : Prop :=
  (∀ (s : State) (w : CmdWord) (rest : List HostMove) (i : Instr),
    s.phase = .idle → s.moves = .present w :: rest → decode w = .instr i → step s = exec i { s with moves := rest }) ∧
  (∀ (s : State) (i : Instr), i.wf = true →
    step (s.withFetchWord 16 (encode i).toNat) = exec i { s with phase := .idle })

/-- R142: the transfer graph of the phases, for one engine step of any core; a core in `IDLE` waits for a command, and
`DERIVE` starts the engine in `P_SEED` when it passes its checks; a core that is not in `IDLE` takes engine steps. -/
def Obligations.PhasesFollowTheTransferGraph : Prop :=
  (∀ (P : HashPrimitive) (s t : State), engineStep P s = .next t →
    match s.phase with
    | .idle => t = s
    | .pSeed => t.phase = if 1 ≤ t.blocks.toNat then .pFirst else .pClear
    | .pFirst => t.phase = if t.j.toNat < t.C.toNat then .pIter else .pCopy
    | .pIter => t.phase = if t.j.toNat < t.C.toNat then .pIter else .pCopy
    | .pCopy => if s.i = s.blocks then t.phase = .pClear ∧ t.i = s.i else t.phase = .pFirst ∧ t.i = s.i + 1
    | .pClear => t.phase = .idle) ∧
  (∀ s : State, s.phase = .idle → s.moves = [] → step s = .next s) ∧
  (∀ (P : HashPrimitive) (s t : State), s.ChecksPassed → engineRun P (engineSteps s) { s with phase := .pSeed } = .next t →
    deriveWith P s = .next { t with ERR := 0, ERRINFO := 0 }) ∧
  (∀ s : State, s.phase ≠ .idle → step s = busyStep theHash s)

/-- R216, A1 (log 13): while the engine runs, a step takes no move of the host and leaves what the host may write. -/
def Obligations.BusyStepTakesNoHostMove : Prop :=
  ∀ s t : State, s.phase ≠ .idle → step s = .next t →
    t.moves = s.moves ∧ State.SameParams s t ∧ State.SameInputs s t

/-- R35, R77: what the host's writes do, and that they touch nothing else: each parameter register, `.in0` and `.in1`
(log 15), and bytes written into each of the three spaces. A write past the last u64 offset, and a fill of `2^64` bytes
or more, stops (log 10). -/
def Obligations.HostWritesTouchOnlyWhatTheyName : Prop :=
  ∀ (s : State) (rest : List HostMove), s.phase = .idle →
    (∀ v, s.moves = .setParam .c v :: rest → step s = .next { s with C := v, moves := rest }) ∧
    (∀ v, s.moves = .setParam .dklen v :: rest → step s = .next { s with DKLEN := v, moves := rest }) ∧
    (∀ v, s.moves = .setParam .len0 v :: rest → step s = .next { s with LEN0 := v, moves := rest }) ∧
    (∀ v, s.moves = .setParam .len1 v :: rest → step s = .next { s with LEN1 := v, moves := rest }) ∧
    (∀ bs, s.moves = .in0 bs :: rest → bs.length < 2 ^ 64 →
      step s = .next { s with IN0 := s.IN0.writeBytes 0 bs, LEN0 := BitVec.ofNat 64 bs.length, moves := rest }) ∧
    (∀ bs, s.moves = .in1 bs :: rest → bs.length < 2 ^ 64 →
      step s = .next { s with IN1 := s.IN1.writeBytes 0 bs, LEN1 := BitVec.ofNat 64 bs.length, moves := rest }) ∧
    (∀ off bs, s.moves = .write .in0 off bs :: rest → off.toNat + bs.length ≤ 2 ^ 64 →
      step s = .next { s with IN0 := s.IN0.writeBytes off.toNat bs, moves := rest }) ∧
    (∀ off bs, s.moves = .write .in1 off bs :: rest → off.toNat + bs.length ≤ 2 ^ 64 →
      step s = .next { s with IN1 := s.IN1.writeBytes off.toNat bs, moves := rest }) ∧
    (∀ off bs, s.moves = .write .out off bs :: rest → off.toNat + bs.length ≤ 2 ^ 64 →
      step s = .next { s with OUT := s.OUT.writeBytes off.toNat bs, moves := rest }) ∧
    (∀ sp off bs, s.moves = .write sp off bs :: rest → 2 ^ 64 < off.toNat + bs.length →
      step s = .fault .hostOffset) ∧
    (∀ bs : Bytes, (s.moves = .in0 bs :: rest ∨ s.moves = .in1 bs :: rest) → 2 ^ 64 ≤ bs.length →
      step s = .fault .hostOffset)

/-! ### 41_hmac.md: the commands -/

/-- R115: `HSEED cd`, whatever the slot held. The premise on `LEN0` is R100's limit of the SHA-256 instance. -/
def Obligations.HseedSeedsTheSlot : Prop :=
  ∀ (cd : Nat) (s : State),
    let key := memRead .in0 0 s.LEN0.toNat s
    (cd < s.nctx → s.LEN0.toNat ≤ 2 ^ 61 - 1 →
      exec (.hseed cd) s = .next { s with
        ctx := s.ctx.set cd (.live
          { inner := ⟨xorBytes (keyBlock theHash key) (rep 0x36 64)⟩
            outer := ⟨xorBytes (keyBlock theHash key) (rep 0x5c 64)⟩ })
        kbuf := Z 64, klen := 0, pad := Z 64, ERR := 0, ERRINFO := 0 }) ∧
    (s.nctx ≤ cd → exec (.hseed cd) s = .next { s with ERR := 4, ERRINFO := BitVec.ofNat 64 cd }) ∧
    (cd < 16 → runWord (BitVec.ofNat 16 (0x0100 + 16 * cd)) s = exec (.hseed cd) s)

/-- R116: `HUPDATE cd` feeds the data to the inner state of a LIVE slot; on a slot that is not LIVE it raises
ContextState, past the context file ContextIndex. -/
def Obligations.HupdateFeedsTheInnerState : Prop :=
  ∀ (cd : Nat) (s : State),
    let data := memRead .in0 0 s.LEN0.toNat s
    (∀ c : LiveCtx, cd < s.nctx → s.slot cd = .live c → c.inner.absorbed.length + s.LEN0.toNat ≤ 2 ^ 61 - 1 →
      exec (.hupdate cd) s = .next { s with
        ctx := s.ctx.set cd (.live { inner := ⟨c.inner.absorbed ++ data⟩, outer := c.outer })
        ERR := 0, ERRINFO := 0 }) ∧
    (cd < s.nctx → s.slot cd = .empty →
      exec (.hupdate cd) s = .next { s with ERR := 5, ERRINFO := BitVec.ofNat 64 (cd * 256 + 0) }) ∧
    (cd < s.nctx → s.slot cd = .spent →
      exec (.hupdate cd) s = .next { s with ERR := 5, ERRINFO := BitVec.ofNat 64 (cd * 256 + 2) }) ∧
    (s.nctx ≤ cd → exec (.hupdate cd) s = .next { s with ERR := 4, ERRINFO := BitVec.ofNat 64 cd }) ∧
    (cd < 16 → runWord (BitVec.ofNat 16 (0x0200 + 16 * cd)) s = exec (.hupdate cd) s)

/-- R117: `HFINAL cd` puts the MAC of a LIVE slot into `DIG`, sets `DIGV`, and leaves the slot SPENT and cleared; on a
slot that is not LIVE it raises ContextState, past the context file ContextIndex. -/
def Obligations.HfinalPutsTheMacInDig : Prop :=
  ∀ (cd : Nat) (s : State),
    (∀ c : LiveCtx, cd < s.nctx → s.slot cd = .live c → c.outer.absorbed.length + 32 ≤ 2 ^ 61 - 1 →
      exec (.hfinal cd) s = .next { s with
        ctx := s.ctx.set cd .spent
        idig := Z 32
        DIG := theHash.hash (c.outer.absorbed ++ (theHash.hash c.inner.absorbed).val)
        DIGV := true, ERR := 0, ERRINFO := 0 }) ∧
    (cd < s.nctx → s.slot cd = .empty →
      exec (.hfinal cd) s = .next { s with ERR := 5, ERRINFO := BitVec.ofNat 64 (cd * 256 + 0) }) ∧
    (cd < s.nctx → s.slot cd = .spent →
      exec (.hfinal cd) s = .next { s with ERR := 5, ERRINFO := BitVec.ofNat 64 (cd * 256 + 2) }) ∧
    (s.nctx ≤ cd → exec (.hfinal cd) s = .next { s with ERR := 4, ERRINFO := BitVec.ofNat 64 cd }) ∧
    (Ctx.spent.inner = .hzero ∧ Ctx.spent.outer = .hzero) ∧
    (cd < 16 → runWord (BitVec.ofNat 16 (0x0300 + 16 * cd)) s = exec (.hfinal cd) s)

/-- R118: `HCLONE cd, cs` copies a LIVE slot, both hash states, also onto itself; the destination index is checked
first, then the source index, then the status of the source. -/
def Obligations.HcloneCopiesTheSlot : Prop :=
  ∀ (cd cs : Nat) (s : State),
    (∀ c : LiveCtx, cd < s.nctx → cs < s.nctx → s.slot cs = .live c →
      exec (.hclone cd cs) s = .next { s with ctx := s.ctx.set cd (.live c), ERR := 0, ERRINFO := 0 }) ∧
    (∀ c : LiveCtx, cd < s.nctx → s.slot cd = .live c → s.ctx.set cd (.live c) = s.ctx) ∧
    (s.nctx ≤ cd → exec (.hclone cd cs) s = .next { s with ERR := 4, ERRINFO := BitVec.ofNat 64 cd }) ∧
    (cd < s.nctx → s.nctx ≤ cs →
      exec (.hclone cd cs) s = .next { s with ERR := 4, ERRINFO := BitVec.ofNat 64 cs }) ∧
    (cd < s.nctx → cs < s.nctx → s.slot cs = .empty →
      exec (.hclone cd cs) s = .next { s with ERR := 5, ERRINFO := BitVec.ofNat 64 (cs * 256 + 0) }) ∧
    (cd < s.nctx → cs < s.nctx → s.slot cs = .spent →
      exec (.hclone cd cs) s = .next { s with ERR := 5, ERRINFO := BitVec.ofNat 64 (cs * 256 + 2) }) ∧
    (cd < 16 → cs < 16 → runWord (BitVec.ofNat 16 (0x0400 + 16 * cd + cs)) s = exec (.hclone cd cs) s)

/-- R23, R35: the frame of the four HMAC commands, completing or raising. -/
def Obligations.HmacCommandsFrame : Prop :=
  ∀ (s t : State) (cd cs : Nat),
    (exec (.hseed cd) s = .next t →
      State.SameEngine s t ∧ State.SameParams s t ∧ State.SameDigest s t ∧ State.SameInputs s t ∧ State.SameOut s t ∧
      State.SameSlotsBut cd s t ∧ t.idig = s.idig ∧ t.moves = s.moves) ∧
    (exec (.hupdate cd) s = .next t →
      State.SameEngine s t ∧ State.SameParams s t ∧ State.SameDigest s t ∧ State.SameInputs s t ∧ State.SameOut s t ∧
      State.SameSlotsBut cd s t ∧ (t.slot cd).outer = (s.slot cd).outer ∧
      t.kbuf = s.kbuf ∧ t.klen = s.klen ∧ t.pad = s.pad ∧ t.idig = s.idig ∧ t.moves = s.moves) ∧
    (exec (.hfinal cd) s = .next t →
      State.SameEngine s t ∧ State.SameParams s t ∧ State.SameInputs s t ∧ State.SameOut s t ∧
      State.SameSlotsBut cd s t ∧ t.kbuf = s.kbuf ∧ t.klen = s.klen ∧ t.pad = s.pad ∧ t.moves = s.moves) ∧
    (exec (.hclone cd cs) s = .next t →
      State.SameEngine s t ∧ State.SameParams s t ∧ State.SameDigest s t ∧ State.SameInputs s t ∧ State.SameOut s t ∧
      State.SameSlotsBut cd s t ∧
      t.kbuf = s.kbuf ∧ t.klen = s.klen ∧ t.pad = s.pad ∧ t.idig = s.idig ∧ t.moves = s.moves)

/-- R122: the status of every slot after every command, the dash of the table included: a slot that is not LIVE is left
as it is and the command raises ContextState. A command changes no slot but the one it writes; reset makes every slot
EMPTY. -/
def Obligations.SlotStatusLifeCycle : Prop :=
  (∀ (i : Instr) (s t : State), exec i s = .next t → ∀ k, k < s.nctx →
    (t.slot k).st =
      match i with
      | .hseed cd => if k = cd then .live else (s.slot k).st
      | .hupdate _ => (s.slot k).st
      | .hfinal cd => if k = cd ∧ (s.slot k).st = .live then .spent else (s.slot k).st
      | .hclone cd cs => if k = cd ∧ cs < s.nctx ∧ (s.slot cs).st = .live then .live else (s.slot k).st
      | .derive => (s.slot k).st) ∧
  (∀ (i : Instr) (s t : State) (k : Nat), exec i s = .next t → (∀ l ∈ slotsNamed i, l < s.nctx) →
    liveNeeded i = some k → (s.slot k).st ≠ .live → t.ERR = 5 ∧ t.slot k = s.slot k) ∧
  (∀ (i : Instr) (s t : State) (k : Nat), exec i s = .next t →
    (match i with
      | .hseed cd => k ≠ cd
      | .hupdate cd => k ≠ cd
      | .hfinal cd => k ≠ cd
      | .hclone cd _ => k ≠ cd
      | .derive => True) → t.slot k = s.slot k) ∧
  (∀ (s : State) (k : Nat), (s.hardReset.slot k).st = .empty)

/-- R33, R113, R214: after `HCLONE cd, cs` on two slots, feeding or finalizing the source leaves the copy as it was, and
feeding or finalizing the copy leaves the source as it was. -/
def Obligations.CloneIsIndependent : Prop :=
  ∀ (cd cs : Nat) (s t u : State), cd ≠ cs → cd < s.nctx → cs < s.nctx → (s.slot cs).st = .live →
    exec (.hclone cd cs) s = .next t →
    (exec (.hupdate cs) t = .next u ∨ exec (.hfinal cs) t = .next u → u.slot cd = s.slot cs) ∧
    (exec (.hupdate cd) t = .next u ∨ exec (.hfinal cd) t = .next u → u.slot cs = s.slot cs)

/-! ### 41_hmac.md: what the unit computes -/

/-- R119: seeding, feeding a message in any pieces and finalizing gives HMAC as R119 writes it, for every primitive. -/
def Obligations.FinalOfSplitUpdatesIsHmac : Prop :=
  ∀ (P : HashPrimitive) (K : Bytes) (chunks : List Bytes) (s s' : State),
    let K0 := if 64 < K.length then (P.hash K).val else K
    let K' := K0 ++ rep 0x00 (64 - K0.length)
    (hmacFinal P (chunks.foldl hmacUpdate (hmacSeed P K s).1) s').1 =
      P.hash (xorBytes K' (rep 0x5c 64) ++ (P.hash (xorBytes K' (rep 0x36 64) ++ chunks.flatten)).val)

/-- R120: a key longer than 64 bytes and its digest give the same MAC, of every message and with no update. -/
def Obligations.LongKeyFolding : Prop :=
  ∀ (P : HashPrimitive) (K : Bytes), 64 < K.length →
    (∀ m : Bytes, hmac P K m = hmac P (P.hash K).val m) ∧
    (∀ s : State, (hmacFinal P (hmacSeed P K s).1 s).1 = (hmacFinal P (hmacSeed P (P.hash K).val s).1 s).1)

/-- R121: `klen` at the key-length boundary, and every byte of the two pad blocks. -/
def Obligations.KeyLengthBoundary : Prop :=
  ∀ (P : HashPrimitive) (key : Bytes) (s : State),
    let k := reducedKey P key
    let c := (hmacSeed P key s).1
    (loadKey P key s).klen.val = (if key.length ≤ 64 then key.length else 32) ∧
    k = (if key.length ≤ 64 then key else (P.hash key).val) ∧
    c.inner.absorbed.length = 64 ∧ c.outer.absorbed.length = 64 ∧
    (∀ t, t < 64 →
      c.inner.absorbed.getD t 0 = (if t < k.length then 0x36 ^^^ k.getD t 0 else 0x36) ∧
      c.outer.absorbed.getD t 0 = (if t < k.length then 0x5c ^^^ k.getD t 0 else 0x5c))

/-- R155: seeding is a function of the key alone, so a clone of a context seeded once serves as well as seeding again;
the transient buffers end cleared whatever they held (R123). -/
def Obligations.SeedDependsOnTheKeyAlone : Prop :=
  ∀ (P : HashPrimitive) (key : Bytes) (s s' : State),
    hmacClone (hmacSeed P key s).1 = (hmacSeed P key s').1 ∧
    (hmacSeed P key s).2.kbuf = Z 64 ∧ (hmacSeed P key s).2.klen = 0 ∧ (hmacSeed P key s).2.pad = Z 64

/-! ### 42_pbkdf2.md: the command -/

/-- R140: `DERIVE` at a command boundary. When both checks pass it writes PBKDF2 of its operands to `OUT` from offset 0
and leaves all else as it was, but for `ERR` and `ERRINFO`, which are 0; in a canonical `OUT` those bytes are then read
back. The two checks, the range first, raise and change nothing else. The premises on `LEN0` and `LEN1` are R100's limit
of the SHA-256 instance. -/
def Obligations.DeriveWritesPbkdf2 : Prop :=
  ∀ s : State, s.AtBoundary →
    let dk := pbkdf2 theHash s.passwd s.salt s.C.toNat s.DKLEN.toNat
    (s.DKLEN.toNat ≤ 137438953440 → s.C ≠ 0 → s.LEN0.toNat ≤ 2 ^ 61 - 1 → s.LEN1.toNat + 68 ≤ 2 ^ 61 - 1 →
      exec .derive s = .next { s with OUT := s.OUT.writeBytes 0 dk, ERR := 0, ERRINFO := 0 } ∧
      (s.OUT.wf = true → (s.OUT.writeBytes 0 dk).readBytes 0 s.DKLEN.toNat = dk)) ∧
    (137438953440 < s.DKLEN.toNat → exec .derive s = .next { s with ERR := 1, ERRINFO := s.DKLEN }) ∧
    (s.DKLEN.toNat ≤ 137438953440 → s.C = 0 → exec .derive s = .next { s with ERR := 2, ERRINFO := 0 }) ∧
    runWord 0x1000 s = exec .derive s ∧
    (∀ w : CmdWord, w.toNat / 256 = 0x10 → w ≠ 0x1000 →
      runWord w s = .next { s with ERR := 3, ERRINFO := BitVec.ofNat 64 w.toNat })

/-- R9, R141, R147, R151: for every primitive and from every state, whatever the engine's registers held, `DERIVE` that
passes its checks writes PBKDF2 of its operands to `OUT` and leaves every engine register and every transient buffer
cleared; but with `DKLEN = 0` no digest is finalized, so `idig` is then left as it was. -/
def Obligations.DeriveComputesPbkdf2ForEveryPrimitive : Prop :=
  ∀ (P : HashPrimitive) (s : State), s.ChecksPassed → deriveAbsorbs P s = true →
    deriveWith P s = .next { s with
      OUT := s.OUT.writeBytes 0 (pbkdf2 P s.passwd s.salt s.C.toNat s.DKLEN.toNat)
      base := .empty, work := .empty, phase := .idle, i := 0, j := 0, blocks := 0, T := Z 32, U := Z 32
      kbuf := Z 64, klen := 0, pad := Z 64, idig := if s.DKLEN = 0 then s.idig else Z 32
      ERR := 0, ERRINFO := 0 }

/-- R151: running the engine from `P_SEED` to `IDLE` takes exactly `2 + blocks × (C + 1)` steps: one `P_SEED`, then per
block one `P_FIRST`, `C − 1` times `P_ITER` and one `P_COPY`, then one `P_CLEAR`. Its effect on `OUT` is R141's, on the
engine's registers R147's, and it leaves the rest alone. -/
def Obligations.EngineTakesExactlyTheStepsOfR151 : Prop :=
  ∀ (P : HashPrimitive) (s : State), s.ChecksPassed → deriveAbsorbs P s = true →
    let B := (s.DKLEN.toNat + 31) / 32
    let c := s.C.toNat
    (engineStart s).phase = .pSeed ∧
    (∀ m r, m < B → r ≤ c → ∃ t, engineRun P (1 + m * (c + 1) + r) (engineStart s) = .next t ∧
      t.phase = (if r = 0 then .pFirst else if r < c then .pIter else .pCopy)) ∧
    (∃ t, engineRun P (1 + B * (c + 1)) (engineStart s) = .next t ∧ t.phase = .pClear) ∧
    engineRun P (2 + B * (c + 1)) (engineStart s) = .next { s with
      OUT := s.OUT.writeBytes 0 (pbkdf2 P s.passwd s.salt c s.DKLEN.toNat)
      base := .empty, work := .empty, phase := .idle, i := 0, j := 0, blocks := 0, T := Z 32, U := Z 32
      kbuf := Z 64, klen := 0, pad := Z 64, idig := if s.DKLEN = 0 then s.idig else Z 32 }

/-- R142, R151: the machine's own small steps, from a core whose engine has just started, end after as many steps where
the one big step of `exec` ends. -/
def Obligations.SmallStepsAgreeWithDerive : Prop :=
  ∀ s : State, s.ChecksPassed → deriveAbsorbs theHash s = true →
    Sys2Proof.core.run (2 + (s.DKLEN.toNat + 31) / 32 * (s.C.toNat + 1)) (engineStart s) = exec .derive s

/-- R23, R55, R62: the frame of `DERIVE`, from every state, completing or raising. It writes no byte of `OUT` at offset
`DKLEN` or beyond, none at all when it raises, and none when `DKLEN = 0`. -/
def Obligations.DeriveFrame : Prop :=
  ∀ s t : State, exec .derive s = .next t →
    t.ctx = s.ctx ∧ State.SameDigest s t ∧ State.SameParams s t ∧ State.SameInputs s t ∧ t.moves = s.moves ∧
    (∀ a, s.DKLEN.toNat ≤ a → t.OUT.read a = s.OUT.read a) ∧
    (t.ERR ≠ 0 → t = { s with ERR := t.ERR, ERRINFO := t.ERRINFO })

/-- R12: what a completed `DERIVE` puts into `OUT` is a function of the passphrase, the salt, the iteration count and the
length: two cores that agree on those four give the same bytes, whatever else they hold. -/
def Obligations.DeriveIsDeterministic : Prop :=
  ∀ s s' t t' : State, s.passwd = s'.passwd → s.salt = s'.salt → s.C = s'.C → s.DKLEN = s'.DKLEN →
    s.OUT.wf = true → s'.OUT.wf = true → exec .derive s = .next t → exec .derive s' = .next t' →
    t.ERR = t'.ERR ∧ (t.ERR = 0 → ∀ q, q < s.DKLEN.toNat → t.OUT.read q = t'.OUT.read q)

/-- R152: the length contract and block-prefix consistency. -/
def Obligations.LengthAndPrefixConsistency : Prop :=
  ∀ (P : HashPrimitive) (passwd salt : Bytes) (c n n' : Nat), n ≤ n' →
    (pbkdf2 P passwd salt c n).length = n ∧
    pbkdf2 P passwd salt c n = (pbkdf2 P passwd salt c n').take n

/-- R150, R141: byte `q` of the output of a completed `DERIVE` is byte `q mod 32` of `T(q div 32 + 1)`: each block is cut
at its end only. With `DKLEN = 32` all 32 bytes of `T(1)` reach `OUT`, the first byte included. -/
def Obligations.OutputBytesAreTheHeadsOfTheBlocks : Prop :=
  ∀ s t : State, s.OUT.wf = true → exec .derive s = .next t → t.ERR = 0 →
    (∀ q, q < s.DKLEN.toNat →
      t.OUT.read q = (pbkdf2T theHash s.passwd s.salt (q / 32 + 1) (s.C.toNat - 1)).val.getD (q % 32) 0) ∧
    (s.DKLEN = 32 → t.OUT.readBytes 0 32 = (pbkdf2T theHash s.passwd s.salt 1 (s.C.toNat - 1)).val)

/-- R153: with `C = 1` the engine never enters `P_ITER`, and each block of the output is its `U_1`. -/
def Obligations.OneIterationIsOnePrf : Prop :=
  (∀ (P : HashPrimitive) (s t : State) (k : Nat), s.C = 1 → engineRun P k (engineStart s) = .next t →
    t.phase ≠ .pIter ∧ (t.phase = .pCopy → t.T = t.U)) ∧
  (∀ (P : HashPrimitive) (passwd salt : Bytes) (i : Nat),
    pbkdf2T P passwd salt i (1 - 1) = hmac P passwd (salt ++ INT (BitVec.ofNat 64 i)))

/-- R154: `DKLEN = 0` is valid: no byte is written, the engine goes from `P_SEED` to `P_CLEAR`, `ERR` is 0. -/
def Obligations.ZeroLengthIsValid : Prop :=
  ∀ s : State, s.AtBoundary → s.DKLEN = 0 → s.C ≠ 0 → s.LEN0.toNat ≤ 2 ^ 61 - 1 → s.LEN1.toNat + 64 ≤ 2 ^ 61 - 1 →
    exec .derive s = .next { s with ERR := 0, ERRINFO := 0 } ∧
    (∃ t, engineStep theHash (engineStart s) = .next t ∧ t.phase = .pClear ∧ t.blocks = 0 ∧ t.base.st = .live ∧
      t.OUT = s.OUT)

/-! ### 42_pbkdf2.md: the phases -/

/-- R143: phase `P_SEED`. The bound on `DKLEN` is what `DERIVE` has checked. -/
def Obligations.PhaseSeedBuildsTheBase : Prop :=
  ∀ (P : HashPrimitive) (s : State), s.phase = .pSeed → s.DKLEN ≤ MAX_DKLEN → deriveAbsorbs P s = true →
    engineStep P s = .next { s with
      kbuf := Z 64, klen := 0, pad := Z 64
      base := .live
        { inner := ⟨xorBytes (keyBlock P s.passwd) (rep 0x36 64) ++ s.salt⟩
          outer := ⟨xorBytes (keyBlock P s.passwd) (rep 0x5c 64)⟩ }
      blocks := BitVec.ofNat 64 ((s.DKLEN.toNat + 31) / 32)
      i := 1
      phase := if 1 ≤ (s.DKLEN.toNat + 31) / 32 then .pFirst else .pClear }

/-- R144: phase `P_FIRST` on the base context of a passphrase and a salt: `U = T = HMAC(passwd, salt ‖ INT(i))`. -/
def Obligations.PhaseFirstComputesU1 : Prop :=
  ∀ (P : HashPrimitive) (s : State) (passwd salt : Bytes), s.phase = .pFirst →
    s.base = .live
      { inner := ⟨xorBytes (keyBlock P passwd) (rep 0x36 64) ++ salt⟩
        outer := ⟨xorBytes (keyBlock P passwd) (rep 0x5c 64)⟩ } →
    1 ≤ s.i.toNat → s.i.toNat ≤ s.blocks.toNat →
    absorbs P (64 + salt.length + 4) = true → absorbs P 96 = true →
    engineStep P s = .next { s with
      idig := Z 32
      work := .spent
      U := hmac P passwd (salt ++ INT s.i)
      T := hmac P passwd (salt ++ INT s.i)
      j := 1
      phase := if 1 < s.C.toNat then .pIter else .pCopy }

/-- R145, R149: phase `P_ITER`: `U` becomes `HMAC(passwd, U)` with the passphrase read again, and each byte of `T` is
XORed with the byte of the new `U`; `j` does not wrap (R156). -/
def Obligations.PhaseIterChainsAndAccumulates : Prop :=
  ∀ (P : HashPrimitive) (s : State), s.phase = .pIter → 1 ≤ s.j.toNat → s.j.toNat < s.C.toNat →
    seedAbsorbs P s.LEN0.toNat = true → absorbs P 96 = true →
    ∃ t, engineStep P s = .next t ∧
      t = { s with
        kbuf := Z 64, klen := 0, pad := Z 64, idig := Z 32
        work := .spent
        U := t.U, T := t.T, j := t.j, phase := t.phase } ∧
      t.U = hmac P s.passwd s.U.val ∧
      (∀ q, q < 32 → t.T.val.getD q 0 = s.T.val.getD q 0 ^^^ t.U.val.getD q 0) ∧
      t.j.toNat = s.j.toNat + 1 ∧ t.j.toNat ≤ s.C.toNat ∧
      t.phase = (if t.j.toNat < s.C.toNat then .pIter else .pCopy)

/-- R146: phase `P_COPY`: the first `n` bytes of `T` go to `OUT` at `(i − 1) × 32`; every other byte of `OUT` reads as
before; `i` is incremented only when a block is left. -/
def Obligations.PhaseCopyWritesTheHeadOfT : Prop :=
  ∀ (P : HashPrimitive) (s : State), s.phase = .pCopy → s.DKLEN ≤ MAX_DKLEN →
    s.blocks.toNat = (s.DKLEN.toNat + 31) / 32 → 1 ≤ s.i.toNat → s.i.toNat ≤ s.blocks.toNat → s.j = s.C →
    let off := (s.i.toNat - 1) * 32
    let n := min 32 (s.DKLEN.toNat - off)
    1 ≤ n ∧ n ≤ 32 ∧ (s.i ≠ s.blocks → n = 32) ∧ (s.i = s.blocks → n = s.DKLEN.toNat - 32 * (s.blocks.toNat - 1)) ∧
    engineStep P s = .next { s with
      OUT := s.OUT.writeBytes off (s.T.val.take n)
      i := if s.i = s.blocks then s.i else s.i + 1
      phase := if s.i = s.blocks then .pClear else .pFirst } ∧
    (∀ a, a < off ∨ off + n ≤ a → (s.OUT.writeBytes off (s.T.val.take n)).read a = s.OUT.read a) ∧
    (s.OUT.wf = true → ∀ q, q < n → (s.OUT.writeBytes off (s.T.val.take n)).read (off + q) = s.T.val.getD q 0)

/-- R147: phase `P_CLEAR`; where the transient buffers are cleared, the command-boundary invariant holds after it. -/
def Obligations.PhaseClearClearsTheEngine : Prop :=
  ∀ (P : HashPrimitive) (s : State), s.phase = .pClear →
    engineStep P s = .next { s with
      base := .empty, work := .empty, T := Z 32, U := Z 32, i := 0, j := 0, blocks := 0, phase := .idle } ∧
    (Ctx.empty.st = .empty ∧ Ctx.empty.inner = .hzero ∧ Ctx.empty.outer = .hzero) ∧
    (s.BuffersCleared → ∀ t, engineStep P s = .next t → t.AtBoundary)

/-- R148: no quantity of the engine wraps, given `DKLEN ≤ MAX_DKLEN`; past that bound `DERIVE` computes none of them. -/
def Obligations.EngineArithmeticDoesNotWrap : Prop :=
  ∀ dklen i : U64, dklen ≤ MAX_DKLEN →
    dklen.toNat + 31 ≤ 137438953471 ∧
    (blocksOf dklen).toNat = (dklen.toNat + 31) / 32 ∧ (blocksOf dklen).toNat ≤ 2 ^ 32 - 1 ∧
    (1 ≤ i → i ≤ blocksOf dklen →
      (outOffset i).toNat = (i.toNat - 1) * 32 ∧ (outOffset i).toNat ≤ 32 * (2 ^ 32 - 2) ∧
      1 ≤ dklen.toNat - (outOffset i).toNat ∧
      (outCount dklen i).toNat = min 32 (dklen.toNat - (outOffset i).toNat)) ∧
    (∀ j c : U64, j < c → (j + 1).toNat = j.toNat + 1 ∧ (j + 1).toNat ≤ c.toNat) ∧
    (∀ (P : HashPrimitive) (s : State), MAX_DKLEN < s.DKLEN →
      deriveWith P s = .next { s with ERR := 1, ERRINFO := s.DKLEN })

/-! ### 60_exceptions.md -/

/-- R189: raising an exception writes `ERR` and `ERRINFO` and nothing else; a command that ends with `ERR ≠ 0` has had no
other effect; no engine step raises, and a step of a core that is not in `IDLE` leaves `ERR` or sets it to 0. -/
def Obligations.FaultChangesOnlyErrAndErrinfo : Prop :=
  (∀ (e : Exc) (s : State), raise e s = .next { s with ERR := e.code, ERRINFO := e.info }) ∧
  (∀ (w : CmdWord) (s t : State), runWord w s = .next t → t.ERR ≠ 0 →
    t = { s with ERR := t.ERR, ERRINFO := t.ERRINFO }) ∧
  (∀ (P : HashPrimitive) (s t : State), engineStep P s = .next t → t.ERR = s.ERR ∧ t.ERRINFO = s.ERRINFO) ∧
  (∀ s t : State, s.phase ≠ .idle → step s = .next t → t.ERR = s.ERR ∨ t.ERR = 0)

/-- R180: the complete list of outcomes of a command, each with its cause and its information word. -/
def Obligations.OutcomesOfACommand : Prop :=
  ∀ (w : CmdWord) (s t : State), runWord w s = .next t →
    (t.ERR = 0 ∧ t.ERRINFO = 0) ∨
    (t.ERR = 1 ∧ decode w = .instr .derive ∧ MAX_DKLEN < s.DKLEN ∧ t.ERRINFO = s.DKLEN) ∨
    (t.ERR = 2 ∧ decode w = .instr .derive ∧ s.C = 0 ∧ t.ERRINFO = 0) ∨
    (t.ERR = 3 ∧ (decode w).instr? = none ∧ t.ERRINFO = BitVec.ofNat 64 w.toNat) ∨
    (t.ERR = 4 ∧ ∃ i k, decode w = .instr i ∧ k ∈ slotsNamed i ∧ s.nctx ≤ k ∧ t.ERRINFO = BitVec.ofNat 64 k) ∨
    (t.ERR = 5 ∧ ∃ i k, decode w = .instr i ∧ liveNeeded i = some k ∧ (s.slot k).st ≠ .live ∧
      t.ERRINFO = BitVec.ofNat 64 (k * 256 + (s.slot k).st.code))

/-- R181, R182: the two checks of `DERIVE`: the range error exactly above `MAX_DKLEN`, the invalid parameter exactly for
`C = 0` in range; in range with `C ≥ 1` it completes (within R100's limit), `DKLEN = MAX_DKLEN` included. -/
def Obligations.DeriveRejectsExactly : Prop :=
  ∀ s : State,
    (137438953440 < s.DKLEN.toNat → exec .derive s = .next { s with ERR := 1, ERRINFO := s.DKLEN }) ∧
    (s.DKLEN.toNat ≤ 137438953440 → s.C = 0 → exec .derive s = .next { s with ERR := 2, ERRINFO := 0 }) ∧
    (∀ t, exec .derive s = .next t →
      (t.ERR = 1 ↔ 137438953440 < s.DKLEN.toNat) ∧ (t.ERR = 2 ↔ s.DKLEN.toNat ≤ 137438953440 ∧ s.C = 0)) ∧
    (s.DKLEN.toNat ≤ 137438953440 → s.C ≠ 0 → deriveAbsorbs theHash s = true → ∃ t, exec .derive s = .next t ∧ t.ERR = 0)

/-- R185: ContextIndex for each of the four HMAC commands, the destination of `HCLONE` first; with `NCTX = 16` no word
raises it. -/
def Obligations.ContextIndexRaisedPastTheFile : Prop :=
  (∀ (cd cs : Nat) (s : State),
    (s.nctx ≤ cd →
      exec (.hseed cd) s = .next { s with ERR := 4, ERRINFO := BitVec.ofNat 64 cd } ∧
      exec (.hupdate cd) s = .next { s with ERR := 4, ERRINFO := BitVec.ofNat 64 cd } ∧
      exec (.hfinal cd) s = .next { s with ERR := 4, ERRINFO := BitVec.ofNat 64 cd } ∧
      exec (.hclone cd cs) s = .next { s with ERR := 4, ERRINFO := BitVec.ofNat 64 cd }) ∧
    (cd < s.nctx → s.nctx ≤ cs →
      exec (.hclone cd cs) s = .next { s with ERR := 4, ERRINFO := BitVec.ofNat 64 cs })) ∧
  (∀ (w : CmdWord) (s t : State), s.nctx = 16 → runWord w s = .next t → t.ERR ≠ 4)

/-- R188: which exception a command reports when several conditions hold. -/
def Obligations.ExceptionPriority : Prop :=
  (∀ (w : CmdWord) (s t : State), (decode w).instr? = none → runWord w s = .next t → t.ERR = 3) ∧
  (∀ (cd cs : Nat) (s t : State), s.nctx ≤ cd → s.nctx ≤ cs → exec (.hclone cd cs) s = .next t →
    t.ERR = 4 ∧ t.ERRINFO = BitVec.ofNat 64 cd) ∧
  (∀ (cd cs : Nat) (s t : State), s.nctx ≤ cd → cs < s.nctx → (s.slot cs).st ≠ .live →
    exec (.hclone cd cs) s = .next t → t.ERR = 4 ∧ t.ERRINFO = BitVec.ofNat 64 cd) ∧
  (∀ (cd cs : Nat) (s t : State), cd < s.nctx → cs < s.nctx → (s.slot cs).st ≠ .live →
    exec (.hclone cd cs) s = .next t → t.ERR = 5) ∧
  (∀ s t : State, MAX_DKLEN < s.DKLEN → s.C = 0 → exec .derive s = .next t → t.ERR = 1)

/-- R31, R190: no outcome is sticky: what `ERR` and `ERRINFO` held before a command has no part in what it does. -/
def Obligations.OutcomeIsNotSticky : Prop :=
  ∀ (i : Instr) (s : State) (e : BitVec 8) (n : U64), exec i { s with ERR := e, ERRINFO := n } = exec i s

/-- R100: the model refuses exactly the runs in which a hash state would absorb more than `MAX_ABSORB` bytes, here
`2^61 − 1` (log 4). -/
def Obligations.RefusesExactlyPastMaxAbsorb : Prop :=
  ∀ (s : State) (cd cs : Nat),
    (∀ r, exec (.hseed cd) s = .refused r ↔ cd < s.nctx ∧ 2 ^ 61 - 1 < s.LEN0.toNat ∧ r = .absorbLimit) ∧
    (∀ r, exec (.hupdate cd) s = .refused r ↔ cd < s.nctx ∧
      (∃ c, s.slot cd = .live c ∧ 2 ^ 61 - 1 < c.inner.absorbed.length + s.LEN0.toNat) ∧ r = .absorbLimit) ∧
    (∀ r, exec (.hfinal cd) s = .refused r ↔ cd < s.nctx ∧
      (∃ c, s.slot cd = .live c ∧ 2 ^ 61 - 1 < c.outer.absorbed.length + 32) ∧ r = .absorbLimit) ∧
    (∀ r, exec (.hclone cd cs) s ≠ .refused r) ∧
    (∀ r, exec .derive s = .refused r ↔ s.ChecksPassed ∧
      (2 ^ 61 - 1 < s.LEN0.toNat ∨ 2 ^ 61 - 1 < 64 + s.LEN1.toNat ∨
        (s.DKLEN ≠ 0 ∧ 2 ^ 61 - 1 < 64 + s.LEN1.toNat + 4)) ∧ r = .absorbLimit)

/-! ### 10_state.md, 20_memory.md, 70_reset_and_hazards.md -/

/-- R51: `MemRead` gives the bytes of the space in index order and `MemWrite` puts them at their offsets and changes no
other byte. That a space has a canonical form, which `MemWrite` keeps, is the model's choice (log 3). -/
def Obligations.MemoryPrimitives : Prop :=
  (∀ (sp : Space) (off n : Nat) (s : State), (memRead sp off n s).length = n ∧
    ∀ q, q < n → (memRead sp off n s).getD q 0 = (s.space sp).read (off + q)) ∧
  (∀ (off : Nat) (v : Bytes) (s : State), s.OUT.wf = true → off + v.length ≤ s.DKLEN.toNat →
    (∀ q, q < v.length → (memWriteOut off v s).OUT.read (off + q) = v.getD q 0) ∧
    (∀ a, a < off ∨ off + v.length ≤ a → (memWriteOut off v s).OUT.read a = s.OUT.read a) ∧
    (memWriteOut off v s).OUT.wf = true)

/-- R35: the access rights of the core: a command writes no parameter register and no byte of the input spaces; only
`DERIVE` writes `OUT`; only `HFINAL` writes `DIG` and `DIGV`. -/
def Obligations.CoreWritesOnlyWhatR35Allows : Prop :=
  ∀ (i : Instr) (s t : State), exec i s = .next t →
    State.SameParams s t ∧ t.IN0 = s.IN0 ∧ t.IN1 = s.IN1 ∧ t.moves = s.moves ∧
    (i ≠ .derive → t.OUT = s.OUT) ∧ ((∀ cd, i ≠ .hfinal cd) → State.SameDigest s t)

/-- R29: `HFINAL` that completes puts the MAC into `DIG` and sets `DIGV`; a step changes `DIG` or `DIGV` only so, or by
reset. -/
def Obligations.DigestRegisterRule : Prop :=
  (∀ (cd : Nat) (s t : State), exec (.hfinal cd) s = .next t → t.ERR = 0 →
    t.DIGV = true ∧ ∃ c, s.slot cd = .live c ∧
      t.DIG = theHash.hash (c.outer.absorbed ++ (theHash.hash c.inner.absorbed).val)) ∧
  ∀ s t : State, step s = .next t →
    State.SameDigest s t ∨
    (∃ w cd rest, s.phase = .idle ∧ s.moves = .present w :: rest ∧ decode w = .instr (.hfinal cd) ∧ t.ERR = 0 ∧
      t.DIGV = true) ∨
    (∃ m rest, s.phase = .idle ∧ s.moves = m :: rest ∧ (m = .reset ∨ ∃ w k, m = .presentThenReset w k) ∧
      t.DIG = Z 32 ∧ t.DIGV = false)

/-- R23, R35: what the host can see of a command depends on the hash states of the slots only through the digest that
`HFINAL` puts in `DIG`: after `HSEED`, `HUPDATE`, `HCLONE` or `DERIVE` two cores with equal views and equal slot
statuses have equal views and statuses again. -/
def Obligations.HostSeesNoHashState : Prop :=
  ∀ (i : Instr) (s s' t t' : State), (∀ cd, i ≠ .hfinal cd) → s.hostView = s'.hostView →
    s.slotStatuses = s'.slotStatuses → exec i s = .next t → exec i s' = .next t' →
    t.hostView = t'.hostView ∧ t.slotStatuses = t'.slotStatuses

/-- R34: the values after reset, of the machine's own reset state and of every core that is reset; reset touches no byte
of the host's spaces. The number of slots of `State.reset` is the model's choice (log 2). -/
def Obligations.ResetValues : Prop :=
  (∀ (s : State) (rest : List HostMove), s.phase = .idle → s.moves = .reset :: rest →
    step s = .next
      { ctx := List.replicate s.nctx .empty, base := .empty, work := .empty, phase := .idle, i := 0, j := 0, blocks := 0,
        T := Z 32, U := Z 32, kbuf := Z 64, klen := 0, pad := Z 64, idig := Z 32, DIG := Z 32, DIGV := false,
        C := 0, DKLEN := 0, LEN0 := 0, LEN1 := 0, ERR := 0, ERRINFO := 0,
        IN0 := s.IN0, IN1 := s.IN1, OUT := s.OUT, moves := rest }) ∧
  State.reset.hardReset = State.reset ∧
  (∀ k, (State.reset.slot k).st = .empty ∧ (State.reset.slot k).inner = .hzero ∧
    (State.reset.slot k).outer = .hzero)

/-- R211: reset after `k` steps of a `DERIVE` that passed its checks: the core's state takes its values of R34, and
`OUT` holds the bytes of the blocks whose `P_COPY` had been performed, the rest as the host left it (log 12). -/
def Obligations.ResetDuringDerive : Prop :=
  ∀ (s : State) (w : CmdWord) (k : Nat) (rest : List HostMove), s.phase = .idle →
    s.moves = .presentThenReset w k :: rest → decode w = .instr .derive → s.ChecksPassed →
    deriveAbsorbs theHash s = true →
    let copied := min ((s.DKLEN.toNat + 31) / 32) ((k - 1) / (s.C.toNat + 1))
    step s = .next { State.resetWith s.nctx with
      IN0 := s.IN0, IN1 := s.IN1
      OUT := s.OUT.writeBytes 0 ((pbkdf2 theHash s.passwd s.salt s.C.toNat s.DKLEN.toNat).take (32 * copied))
      moves := rest }

/-- R100, R210, D1: a word that starts no engine is performed whole before the reset presented with it: the core is then
in its reset state, and where the word alone is refused, so is the move (log 12). -/
def Obligations.ResetFollowsAnAtomicCommand : Prop :=
  ∀ (s : State) (w : CmdWord) (k : Nat) (rest : List HostMove), s.phase = .idle →
    s.moves = .presentThenReset w k :: rest → ¬(decode w = .instr .derive ∧ s.ChecksPassed) →
    (∀ t, runWord w { s with moves := rest } = .next t →
      step s = .next { State.resetWith s.nctx with IN0 := s.IN0, IN1 := s.IN1, OUT := s.OUT, moves := rest }) ∧
    (∀ r, runWord w { s with moves := rest } = .refused r → step s = .refused r) ∧
    ((∃ t, runWord w { s with moves := rest } = .next t) ∨ runWord w { s with moves := rest } = .refused .absorbLimit)

/-- R36: the command-boundary invariant: after reset, and after every command, whether it completes or raises. -/
def Obligations.CommandBoundaryInvariant : Prop :=
  State.reset.AtBoundary ∧ (∀ s : State, s.hardReset.AtBoundary) ∧
  (∀ (w : CmdWord) (s t : State), s.AtBoundary → runWord w s = .next t → t.AtBoundary)

/-- R9, R11, R26, R36, R51: from every state that meets the model's invariant, every step that answers a next state, of
this core and of one with any other primitive, gives one that meets it: a legal `NCTX`, canonical spaces (log 3), cleared
transient buffers, and what the current phase requires, which at a command boundary is R36. -/
def Obligations.EveryStepKeepsInv : Prop :=
  (∀ s t : State, s.Inv → step s = .next t → t.Inv) ∧
  (∀ (P : HashPrimitive) (s t : State), s.Inv → stepWith P s = .next t → t.Inv)

/-- R34, R36, R100: the two invariants hold after reset. -/
def Obligations.ResetMeetsInv : Prop := State.reset.Inv ∧ State.reset.AbsorbedWithin (2 ^ 61 - 1)

/-- R51, R143 to R146: from a state that meets the invariant no step faults, with any primitive, but for a host move past
the last offset (log 8, log 9, log 10). -/
def Obligations.NoEngineFaultUnderInv : Prop :=
  (∀ (s : State) (r : Fault), s.Inv → step s = .fault r → r = .hostOffset) ∧
  (∀ (P : HashPrimitive) (s : State) (r : Fault), s.Inv → stepWith P s = .fault r → r = .hostOffset)

/-! ### 40_hash_primitive.md -/

/-- R98 step (1): the padding of a message of `len < 2^61` bytes is `0x80`, then zero bytes, then the bit length
`8 × len` as eight bytes, the most significant first; the number of zero bytes is the least that makes the padded message
a multiple of 64 bytes long. -/
def Obligations.Sha256PaddingIsLeast : Prop :=
  ∀ len : Nat,
    (len + (Sha256.padding len).length) % 64 = 0 ∧ (len + 1 + Sha256.zeroCount len) % 64 = 56 ∧
    (∀ k, (len + 1 + k) % 64 = 56 → Sha256.zeroCount len ≤ k) ∧
    (Sha256.padding len).length = 1 + Sha256.zeroCount len + 8 ∧
    (len < 2 ^ 61 →
      Sha256.padding len = [0x80] ++ rep 0x00 (Sha256.zeroCount len) ++
        [BitVec.ofNat 8 (8 * len / 2 ^ 56), BitVec.ofNat 8 (8 * len / 2 ^ 48), BitVec.ofNat 8 (8 * len / 2 ^ 40),
          BitVec.ofNat 8 (8 * len / 2 ^ 32), BitVec.ofNat 8 (8 * len / 2 ^ 24), BitVec.ofNat 8 (8 * len / 2 ^ 16),
          BitVec.ofNat 8 (8 * len / 2 ^ 8), BitVec.ofNat 8 (8 * len)])

/-- R99, R91: the concrete running state of SHA-256, fed any pieces, finalizes to the hash of their concatenation, and its
buffer never holds a whole block. -/
def Obligations.ConcreteSha256MeetsTheIncrementalLaw : Prop :=
  ∀ chunks : List Bytes, chunks.flatten.length < 2 ^ 61 →
    let c := chunks.foldl Sha256.Concrete.update Sha256.Concrete.init
    c.final = theHash.hash chunks.flatten ∧ c.buffer.length ≤ 63 ∧ c.count.toNat = chunks.flatten.length

/-! ### 30_encoding.md R78 -/

/-- R78: the pseudo-instruction `HMAC c<k>, <key>, <message>`: after its five moves `DIG` holds HMAC of the key and the
message. That the moves stand in State is the model's choice (log 1), that they fill `IN0` from offset 0 too (log 15). -/
def Obligations.PseudoHmacLeavesHmacInDig : Prop :=
  ∀ (s : State) (k : Nat) (key m : Bytes) (rest : List HostMove), s.phase = .idle → s.IN0.wf = true → k < s.nctx →
    k < 16 → key.length ≤ 2 ^ 61 - 1 → 64 + m.length ≤ 2 ^ 61 - 1 → s.moves = pseudoHmac k key m ++ rest →
    ∃ t, Sys2Proof.core.run 5 s = .next t ∧ t.DIG = hmac theHash key m ∧ t.DIGV = true ∧ t.ERR = 0 ∧
      t.slot k = .spent ∧ t.moves = rest ∧ State.SameSlotsBut k s t

/-! ### 00_scope.md: the parameters `Hash` and `MAX_ABSORB` -/

/-- R9, R11, R115 to R118: on a core with any primitive the commands do what they do on this one, with its `Hash` and
within its `MAX_ABSORB`; a step of a waiting core runs the command presented, a busy one takes an engine step; with
SHA-256 it is the core of `exec` (log 11). What its `DERIVE` computes is DeriveComputesPbkdf2ForEveryPrimitive. -/
def Obligations.CommandsOverEveryPrimitive : Prop :=
  ∀ (P : HashPrimitive) (s : State),
    (∀ cd, cd < s.nctx → seedAbsorbs P s.LEN0.toNat = true →
      execWith P (.hseed cd) s = .next { s with
        ctx := s.ctx.set cd (.live
          { inner := ⟨xorBytes (keyBlock P s.passwd) (rep 0x36 64)⟩
            outer := ⟨xorBytes (keyBlock P s.passwd) (rep 0x5c 64)⟩ })
        kbuf := Z 64, klen := 0, pad := Z 64, ERR := 0, ERRINFO := 0 }) ∧
    (∀ cd c, cd < s.nctx → s.slot cd = .live c → absorbs P (c.inner.absorbed.length + s.LEN0.toNat) = true →
      execWith P (.hupdate cd) s = .next { s with
        ctx := s.ctx.set cd (.live { inner := ⟨c.inner.absorbed ++ s.passwd⟩, outer := c.outer })
        ERR := 0, ERRINFO := 0 }) ∧
    (∀ cd c, cd < s.nctx → s.slot cd = .live c → absorbs P (c.outer.absorbed.length + 32) = true →
      execWith P (.hfinal cd) s = .next { s with
        ctx := s.ctx.set cd .spent
        idig := Z 32
        DIG := P.hash (c.outer.absorbed ++ (P.hash c.inner.absorbed).val)
        DIGV := true, ERR := 0, ERRINFO := 0 }) ∧
    (∀ cd cs, execWith P (.hclone cd cs) s = exec (.hclone cd cs) s) ∧
    execWith P .derive s = deriveWith P s ∧
    (∀ w i rest, s.phase = .idle → s.moves = .present w :: rest → decode w = .instr i →
      stepWith P s = execWith P i { s with moves := rest }) ∧
    (s.phase ≠ .idle → stepWith P s = busyStep P s) ∧
    (∀ i, execWith theHash i s = exec i s) ∧ stepWith theHash s = step s

/-- R11, R90, R100: with `MAX_ABSORB` unbounded, the default, every command answers a next state, from every state, and no
step is refused; from a state that meets the invariant a step stops only where the host names an offset that is none
(log 10). -/
def Obligations.UnboundedPrimitiveNeverRefuses : Prop :=
  ∀ P : HashPrimitive, P.maxAbsorb = none →
    (∀ (i : Instr) (s : State), ∃ t, execWith P i s = .next t) ∧
    (∀ (s : State) (r : Refusal), stepWith P s ≠ .refused r) ∧
    (∀ s : State, s.Inv → (∃ t, stepWith P s = .next t) ∨ stepWith P s = .fault .hostOffset)

/-- R11, R100: `MAX_ABSORB` bounds every hash state: where no hash state of a context has absorbed more than `n` bytes, a
step, of a core with that limit, leaves none that has; for this core `n` is `2^61 − 1` (log 4). -/
def Obligations.AbsorbedStaysWithinMaxAbsorb : Prop :=
  (∀ s t : State, s.AbsorbedWithin (2 ^ 61 - 1) → step s = .next t → t.AbsorbedWithin (2 ^ 61 - 1)) ∧
  (∀ (P : HashPrimitive) (n : Nat) (s t : State), P.maxAbsorb = some n → s.AbsorbedWithin n →
    stepWith P s = .next t → t.AbsorbedWithin n)
end

