-- ==== Sys2Proof/Laws/Memory.lean ====
section
/-! SUPPORT. The laws of the byte spaces: read after write, that a write leaves every other offset alone, and that every
operation keeps the canonical form. -/

namespace Sys2Proof.Machine

/-! ### One byte -/

/-- Putting a cell in front changes no other offset. -/
theorem Memory.read_cons_other (m : Memory) (a b : Nat) (v : Byte) (h : b ≠ a) :
    (Memory.cons a v m).read b = m.read b := by
  unfold Memory.cons
  split
  · rfl
  · simp [Memory.read, h]

/-- A write leaves every other offset alone, in any list of cells. -/
theorem Memory.read_write_other (m : Memory) (a b : Nat) (v : Byte) (h : b ≠ a) :
    (m.write a v).read b = m.read b := by
  induction m with
  | nil => exact Memory.read_cons_other [] a b v h
  | cons cell m ih =>
    obtain ⟨c, w⟩ := cell
    simp only [Memory.write]
    split
    · exact Memory.read_cons_other _ a b v h
    · split
      · rename_i heq
        subst heq
        rw [Memory.read_cons_other _ _ _ _ h]
        simp [Memory.read, h]
      · simp only [Memory.read, ih]

/-- Below the lowest offset a canonical list holds nothing. -/
theorem Memory.read_of_wfFrom (m : Memory) (lo a : Nat) (hm : Memory.wfFrom lo m = true) (h : a < lo) :
    m.read a = Memory.blank := by
  induction m generalizing lo with
  | nil => rfl
  | cons cell m ih =>
    obtain ⟨c, w⟩ := cell
    simp only [Memory.wfFrom, Bool.and_eq_true, decide_eq_true_eq] at hm
    have hne : a ≠ c := by omega
    simp only [Memory.read, hne, if_false]
    exact ih (c + 1) hm.2 (by omega)

/-- Read after write, in a canonical list. -/
theorem Memory.read_write_same_from (m : Memory) (lo a : Nat) (v : Byte) (hm : Memory.wfFrom lo m = true) :
    (m.write a v).read a = v := by
  induction m generalizing lo with
  | nil =>
    simp only [Memory.write, Memory.cons]
    split
    · rename_i h; simp [Memory.read, h]
    · simp [Memory.read]
  | cons cell m ih =>
    obtain ⟨c, w⟩ := cell
    have hm' := hm
    simp only [Memory.wfFrom, Bool.and_eq_true, decide_eq_true_eq] at hm'
    simp only [Memory.write]
    split
    · rename_i hlt
      simp only [Memory.cons]
      split
      · rename_i h
        have hne : a ≠ c := by omega
        simp only [Memory.read, hne, if_false]
        rw [Memory.read_of_wfFrom m (c + 1) a hm'.2 (by omega), h]
      · simp [Memory.read]
    · split
      · rename_i heq
        simp only [Memory.cons]
        split
        · rename_i h
          rw [Memory.read_of_wfFrom m (c + 1) a hm'.2 (by omega), h]
        · simp [Memory.read]
      · rename_i hne
        simp only [Memory.read, hne, if_false]
        exact ih (c + 1) hm'.2

/-- Read after write. -/
theorem Memory.read_write_same (m : Memory) (a : Nat) (v : Byte) (hm : m.wf = true) : (m.write a v).read a = v :=
  Memory.read_write_same_from m 0 a v hm

/-- The canonical form holds from any lower offset. -/
theorem Memory.wfFrom_mono (m : Memory) (lo lo' : Nat) (hm : Memory.wfFrom lo m = true) (h : lo' ≤ lo) :
    Memory.wfFrom lo' m = true := by
  cases m with
  | nil => rfl
  | cons cell m =>
    obtain ⟨c, w⟩ := cell
    simp only [Memory.wfFrom, Bool.and_eq_true, decide_eq_true_eq] at hm ⊢
    exact ⟨⟨⟨by omega, hm.1.1.2⟩, hm.1.2⟩, hm.2⟩

/-- Putting a cell in front keeps the canonical form. -/
theorem Memory.wfFrom_cons (m : Memory) (lo a : Nat) (v : Byte) (hm : Memory.wfFrom (a + 1) m = true) (hlo : lo ≤ a)
    (ha : a < Memory.size) : Memory.wfFrom lo (Memory.cons a v m) = true := by
  unfold Memory.cons
  split
  · exact Memory.wfFrom_mono m (a + 1) lo hm (by omega)
  · rename_i h
    simp only [Memory.wfFrom, Bool.and_eq_true, decide_eq_true_eq]
    exact ⟨⟨⟨hlo, ha⟩, h⟩, hm⟩

/-- A write inside the space keeps the canonical form. -/
theorem Memory.wfFrom_write (m : Memory) (lo a : Nat) (v : Byte) (hm : Memory.wfFrom lo m = true) (hlo : lo ≤ a)
    (ha : a < Memory.size) : Memory.wfFrom lo (m.write a v) = true := by
  induction m generalizing lo with
  | nil => exact Memory.wfFrom_cons [] lo a v rfl hlo ha
  | cons cell m ih =>
    obtain ⟨c, w⟩ := cell
    have hm' := hm
    simp only [Memory.wfFrom, Bool.and_eq_true, decide_eq_true_eq] at hm'
    obtain ⟨⟨⟨hc, hcs⟩, hw⟩, hrest⟩ := hm'
    simp only [Memory.write]
    split
    · rename_i hlt
      refine Memory.wfFrom_cons _ lo a v ?_ hlo ha
      simp only [Memory.wfFrom, Bool.and_eq_true, decide_eq_true_eq]
      exact ⟨⟨⟨by omega, hcs⟩, hw⟩, hrest⟩
    · split
      · rename_i heq
        subst heq
        exact Memory.wfFrom_cons m lo a v hrest hlo ha
      · rename_i hnlt hne
        simp only [Memory.wfFrom, Bool.and_eq_true, decide_eq_true_eq]
        exact ⟨⟨⟨hc, hcs⟩, hw⟩, ih (c + 1) hrest (by omega)⟩

/-- A write inside the space keeps the canonical form. -/
theorem Memory.wf_write (m : Memory) (a : Nat) (v : Byte) (hm : m.wf = true) (ha : a < Memory.size) :
    (m.write a v).wf = true :=
  Memory.wfFrom_write m 0 a v hm (Nat.zero_le a) ha

/-! ### Byte sequences -/

/-- Writing a byte sequence inside the space keeps the canonical form. -/
theorem Memory.wf_writeBytes (bs : Bytes) (m : Memory) (off : Nat) (hm : m.wf = true)
    (h : off + bs.length ≤ Memory.size) : (m.writeBytes off bs).wf = true := by
  induction bs generalizing m off with
  | nil => exact hm
  | cons v bs ih =>
    simp only [List.length_cons] at h
    exact ih _ _ (Memory.wf_write m off v hm (by omega)) (by omega)

/-- Writing a byte sequence leaves every offset outside it alone, in any list of cells. -/
theorem Memory.read_writeBytes_outside (bs : Bytes) (m : Memory) (off a : Nat)
    (h : a < off ∨ off + bs.length ≤ a) : (m.writeBytes off bs).read a = m.read a := by
  induction bs generalizing m off with
  | nil => rfl
  | cons v bs ih =>
    simp only [List.length_cons] at h
    simp only [Memory.writeBytes]
    rw [ih _ _ (by omega), Memory.read_write_other m off a v (by omega)]

/-- Inside a byte sequence just written, byte `t` stands at `off + t`. -/
theorem Memory.read_writeBytes_inside (bs : Bytes) (m : Memory) (off t : Nat) (hm : m.wf = true)
    (hs : off + bs.length ≤ Memory.size) (ht : t < bs.length) :
    (m.writeBytes off bs).read (off + t) = bs[t] := by
  induction bs generalizing m off t with
  | nil => simp at ht
  | cons v bs ih =>
    simp only [List.length_cons] at hs ht
    simp only [Memory.writeBytes]
    cases t with
    | zero =>
      rw [Memory.read_writeBytes_outside bs _ _ _ (Or.inl (by omega))]
      exact Memory.read_write_same m off v hm
    | succ t =>
      have h := ih (m.write off v) (off + 1) t (Memory.wf_write m off v hm (by omega)) (by omega) (by omega)
      rw [show off + (t + 1) = off + 1 + t by omega, h]
      rfl

/-- Two byte sequences written one after the other are their concatenation. -/
theorem Memory.writeBytes_append (a b : Bytes) (m : Memory) (off : Nat) :
    m.writeBytes off (a ++ b) = (m.writeBytes off a).writeBytes (off + a.length) b := by
  induction a generalizing m off with
  | nil => rfl
  | cons v a ih =>
    simp only [List.cons_append, Memory.writeBytes, List.length_cons]
    rw [ih, show off + 1 + a.length = off + (a.length + 1) by omega]

@[simp] theorem Memory.length_readBytes (m : Memory) (off n : Nat) : (m.readBytes off n).length = n := by
  induction n generalizing off with
  | zero => rfl
  | succ n ih => simp [Memory.readBytes, ih]

/-- Byte `t` of a byte sequence read is the byte at `off + t`. -/
theorem Memory.getElem_readBytes (m : Memory) (off n t : Nat) (h : t < (m.readBytes off n).length) :
    (m.readBytes off n)[t] = m.read (off + t) := by
  induction n generalizing off t with
  | zero => simp at h
  | succ n ih =>
    cases t with
    | zero => simp [Memory.readBytes]
    | succ t =>
      simp only [Memory.readBytes, List.getElem_cons_succ]
      rw [ih, show off + 1 + t = off + (t + 1) by omega]

/-- Reading depends on the bytes read only. -/
theorem Memory.readBytes_congr (m m' : Memory) (off n : Nat)
    (h : ∀ a, off ≤ a → a < off + n → m.read a = m'.read a) : m.readBytes off n = m'.readBytes off n := by
  induction n generalizing off with
  | zero => rfl
  | succ n ih =>
    simp only [Memory.readBytes]
    rw [h off (Nat.le_refl _) (by omega), ih (off + 1) (fun a h1 h2 => h a (by omega) (by omega))]

/-- What has just been written is read back. -/
theorem Memory.readBytes_writeBytes (bs : Bytes) (m : Memory) (off : Nat) (hm : m.wf = true)
    (hs : off + bs.length ≤ Memory.size) : (m.writeBytes off bs).readBytes off bs.length = bs := by
  apply List.ext_getElem (by simp)
  intro t h1 h2
  rw [Memory.getElem_readBytes, Memory.read_writeBytes_inside bs m off t hm hs h2]

end Sys2Proof.Machine
end

