-- ==== Sys2Proof/Laws/State.lean ====
section
/-! SUPPORT. What each named update of State leaves in each field, true by definition: later proofs never unfold a record
update. -/

namespace Sys2Proof.Machine

/-! ### Writing a context slot -/

@[simp] theorem setSlot_ctx (s : State) (k : Nat) (c : Ctx) : (s.setSlot k c).ctx = s.ctx.set k c := rfl
@[simp] theorem setSlot_base (s : State) (k : Nat) (c : Ctx) : (s.setSlot k c).base = s.base := rfl
@[simp] theorem setSlot_work (s : State) (k : Nat) (c : Ctx) : (s.setSlot k c).work = s.work := rfl
@[simp] theorem setSlot_phase (s : State) (k : Nat) (c : Ctx) : (s.setSlot k c).phase = s.phase := rfl
@[simp] theorem setSlot_i (s : State) (k : Nat) (c : Ctx) : (s.setSlot k c).i = s.i := rfl
@[simp] theorem setSlot_j (s : State) (k : Nat) (c : Ctx) : (s.setSlot k c).j = s.j := rfl
@[simp] theorem setSlot_blocks (s : State) (k : Nat) (c : Ctx) : (s.setSlot k c).blocks = s.blocks := rfl
@[simp] theorem setSlot_T (s : State) (k : Nat) (c : Ctx) : (s.setSlot k c).T = s.T := rfl
@[simp] theorem setSlot_U (s : State) (k : Nat) (c : Ctx) : (s.setSlot k c).U = s.U := rfl
@[simp] theorem setSlot_kbuf (s : State) (k : Nat) (c : Ctx) : (s.setSlot k c).kbuf = s.kbuf := rfl
@[simp] theorem setSlot_klen (s : State) (k : Nat) (c : Ctx) : (s.setSlot k c).klen = s.klen := rfl
@[simp] theorem setSlot_pad (s : State) (k : Nat) (c : Ctx) : (s.setSlot k c).pad = s.pad := rfl
@[simp] theorem setSlot_idig (s : State) (k : Nat) (c : Ctx) : (s.setSlot k c).idig = s.idig := rfl
@[simp] theorem setSlot_DIG (s : State) (k : Nat) (c : Ctx) : (s.setSlot k c).DIG = s.DIG := rfl
@[simp] theorem setSlot_DIGV (s : State) (k : Nat) (c : Ctx) : (s.setSlot k c).DIGV = s.DIGV := rfl
@[simp] theorem setSlot_C (s : State) (k : Nat) (c : Ctx) : (s.setSlot k c).C = s.C := rfl
@[simp] theorem setSlot_DKLEN (s : State) (k : Nat) (c : Ctx) : (s.setSlot k c).DKLEN = s.DKLEN := rfl
@[simp] theorem setSlot_LEN0 (s : State) (k : Nat) (c : Ctx) : (s.setSlot k c).LEN0 = s.LEN0 := rfl
@[simp] theorem setSlot_LEN1 (s : State) (k : Nat) (c : Ctx) : (s.setSlot k c).LEN1 = s.LEN1 := rfl
@[simp] theorem setSlot_ERR (s : State) (k : Nat) (c : Ctx) : (s.setSlot k c).ERR = s.ERR := rfl
@[simp] theorem setSlot_ERRINFO (s : State) (k : Nat) (c : Ctx) : (s.setSlot k c).ERRINFO = s.ERRINFO := rfl
@[simp] theorem setSlot_IN0 (s : State) (k : Nat) (c : Ctx) : (s.setSlot k c).IN0 = s.IN0 := rfl
@[simp] theorem setSlot_IN1 (s : State) (k : Nat) (c : Ctx) : (s.setSlot k c).IN1 = s.IN1 := rfl
@[simp] theorem setSlot_OUT (s : State) (k : Nat) (c : Ctx) : (s.setSlot k c).OUT = s.OUT := rfl
@[simp] theorem setSlot_moves (s : State) (k : Nat) (c : Ctx) : (s.setSlot k c).moves = s.moves := rfl

/-! ### Clearing the buffers of `hmac_seed` -/

@[simp] theorem clearSeedBuffers_ctx (s : State) : (clearSeedBuffers s).ctx = s.ctx := rfl
@[simp] theorem clearSeedBuffers_base (s : State) : (clearSeedBuffers s).base = s.base := rfl
@[simp] theorem clearSeedBuffers_work (s : State) : (clearSeedBuffers s).work = s.work := rfl
@[simp] theorem clearSeedBuffers_phase (s : State) : (clearSeedBuffers s).phase = s.phase := rfl
@[simp] theorem clearSeedBuffers_i (s : State) : (clearSeedBuffers s).i = s.i := rfl
@[simp] theorem clearSeedBuffers_j (s : State) : (clearSeedBuffers s).j = s.j := rfl
@[simp] theorem clearSeedBuffers_blocks (s : State) : (clearSeedBuffers s).blocks = s.blocks := rfl
@[simp] theorem clearSeedBuffers_T (s : State) : (clearSeedBuffers s).T = s.T := rfl
@[simp] theorem clearSeedBuffers_U (s : State) : (clearSeedBuffers s).U = s.U := rfl
@[simp] theorem clearSeedBuffers_kbuf (s : State) : (clearSeedBuffers s).kbuf = Z 64 := rfl
@[simp] theorem clearSeedBuffers_klen (s : State) : (clearSeedBuffers s).klen = 0 := rfl
@[simp] theorem clearSeedBuffers_pad (s : State) : (clearSeedBuffers s).pad = Z 64 := rfl
@[simp] theorem clearSeedBuffers_idig (s : State) : (clearSeedBuffers s).idig = s.idig := rfl
@[simp] theorem clearSeedBuffers_DIG (s : State) : (clearSeedBuffers s).DIG = s.DIG := rfl
@[simp] theorem clearSeedBuffers_DIGV (s : State) : (clearSeedBuffers s).DIGV = s.DIGV := rfl
@[simp] theorem clearSeedBuffers_C (s : State) : (clearSeedBuffers s).C = s.C := rfl
@[simp] theorem clearSeedBuffers_DKLEN (s : State) : (clearSeedBuffers s).DKLEN = s.DKLEN := rfl
@[simp] theorem clearSeedBuffers_LEN0 (s : State) : (clearSeedBuffers s).LEN0 = s.LEN0 := rfl
@[simp] theorem clearSeedBuffers_LEN1 (s : State) : (clearSeedBuffers s).LEN1 = s.LEN1 := rfl
@[simp] theorem clearSeedBuffers_ERR (s : State) : (clearSeedBuffers s).ERR = s.ERR := rfl
@[simp] theorem clearSeedBuffers_ERRINFO (s : State) : (clearSeedBuffers s).ERRINFO = s.ERRINFO := rfl
@[simp] theorem clearSeedBuffers_IN0 (s : State) : (clearSeedBuffers s).IN0 = s.IN0 := rfl
@[simp] theorem clearSeedBuffers_IN1 (s : State) : (clearSeedBuffers s).IN1 = s.IN1 := rfl
@[simp] theorem clearSeedBuffers_OUT (s : State) : (clearSeedBuffers s).OUT = s.OUT := rfl
@[simp] theorem clearSeedBuffers_moves (s : State) : (clearSeedBuffers s).moves = s.moves := rfl

/-! ### Writing `OUT` -/

@[simp] theorem memWriteOut_ctx (off : Nat) (v : Bytes) (s : State) : (memWriteOut off v s).ctx = s.ctx := rfl
@[simp] theorem memWriteOut_base (off : Nat) (v : Bytes) (s : State) : (memWriteOut off v s).base = s.base := rfl
@[simp] theorem memWriteOut_work (off : Nat) (v : Bytes) (s : State) : (memWriteOut off v s).work = s.work := rfl
@[simp] theorem memWriteOut_phase (off : Nat) (v : Bytes) (s : State) : (memWriteOut off v s).phase = s.phase := rfl
@[simp] theorem memWriteOut_i (off : Nat) (v : Bytes) (s : State) : (memWriteOut off v s).i = s.i := rfl
@[simp] theorem memWriteOut_j (off : Nat) (v : Bytes) (s : State) : (memWriteOut off v s).j = s.j := rfl
@[simp] theorem memWriteOut_blocks (off : Nat) (v : Bytes) (s : State) : (memWriteOut off v s).blocks = s.blocks := rfl
@[simp] theorem memWriteOut_T (off : Nat) (v : Bytes) (s : State) : (memWriteOut off v s).T = s.T := rfl
@[simp] theorem memWriteOut_U (off : Nat) (v : Bytes) (s : State) : (memWriteOut off v s).U = s.U := rfl
@[simp] theorem memWriteOut_kbuf (off : Nat) (v : Bytes) (s : State) : (memWriteOut off v s).kbuf = s.kbuf := rfl
@[simp] theorem memWriteOut_klen (off : Nat) (v : Bytes) (s : State) : (memWriteOut off v s).klen = s.klen := rfl
@[simp] theorem memWriteOut_pad (off : Nat) (v : Bytes) (s : State) : (memWriteOut off v s).pad = s.pad := rfl
@[simp] theorem memWriteOut_idig (off : Nat) (v : Bytes) (s : State) : (memWriteOut off v s).idig = s.idig := rfl
@[simp] theorem memWriteOut_DIG (off : Nat) (v : Bytes) (s : State) : (memWriteOut off v s).DIG = s.DIG := rfl
@[simp] theorem memWriteOut_DIGV (off : Nat) (v : Bytes) (s : State) : (memWriteOut off v s).DIGV = s.DIGV := rfl
@[simp] theorem memWriteOut_C (off : Nat) (v : Bytes) (s : State) : (memWriteOut off v s).C = s.C := rfl
@[simp] theorem memWriteOut_DKLEN (off : Nat) (v : Bytes) (s : State) : (memWriteOut off v s).DKLEN = s.DKLEN := rfl
@[simp] theorem memWriteOut_LEN0 (off : Nat) (v : Bytes) (s : State) : (memWriteOut off v s).LEN0 = s.LEN0 := rfl
@[simp] theorem memWriteOut_LEN1 (off : Nat) (v : Bytes) (s : State) : (memWriteOut off v s).LEN1 = s.LEN1 := rfl
@[simp] theorem memWriteOut_ERR (off : Nat) (v : Bytes) (s : State) : (memWriteOut off v s).ERR = s.ERR := rfl
@[simp] theorem memWriteOut_ERRINFO (off : Nat) (v : Bytes) (s : State) : (memWriteOut off v s).ERRINFO = s.ERRINFO := rfl
@[simp] theorem memWriteOut_IN0 (off : Nat) (v : Bytes) (s : State) : (memWriteOut off v s).IN0 = s.IN0 := rfl
@[simp] theorem memWriteOut_IN1 (off : Nat) (v : Bytes) (s : State) : (memWriteOut off v s).IN1 = s.IN1 := rfl
@[simp] theorem memWriteOut_OUT (off : Nat) (v : Bytes) (s : State) : (memWriteOut off v s).OUT = s.OUT.writeBytes off v := rfl
@[simp] theorem memWriteOut_moves (off : Nat) (v : Bytes) (s : State) : (memWriteOut off v s).moves = s.moves := rfl

/-! ### Starting the engine -/

@[simp] theorem engineStart_ctx (s : State) : (engineStart s).ctx = s.ctx := rfl
@[simp] theorem engineStart_base (s : State) : (engineStart s).base = s.base := rfl
@[simp] theorem engineStart_work (s : State) : (engineStart s).work = s.work := rfl
@[simp] theorem engineStart_phase (s : State) : (engineStart s).phase = .pSeed := rfl
@[simp] theorem engineStart_i (s : State) : (engineStart s).i = s.i := rfl
@[simp] theorem engineStart_j (s : State) : (engineStart s).j = s.j := rfl
@[simp] theorem engineStart_blocks (s : State) : (engineStart s).blocks = s.blocks := rfl
@[simp] theorem engineStart_T (s : State) : (engineStart s).T = s.T := rfl
@[simp] theorem engineStart_U (s : State) : (engineStart s).U = s.U := rfl
@[simp] theorem engineStart_kbuf (s : State) : (engineStart s).kbuf = s.kbuf := rfl
@[simp] theorem engineStart_klen (s : State) : (engineStart s).klen = s.klen := rfl
@[simp] theorem engineStart_pad (s : State) : (engineStart s).pad = s.pad := rfl
@[simp] theorem engineStart_idig (s : State) : (engineStart s).idig = s.idig := rfl
@[simp] theorem engineStart_DIG (s : State) : (engineStart s).DIG = s.DIG := rfl
@[simp] theorem engineStart_DIGV (s : State) : (engineStart s).DIGV = s.DIGV := rfl
@[simp] theorem engineStart_C (s : State) : (engineStart s).C = s.C := rfl
@[simp] theorem engineStart_DKLEN (s : State) : (engineStart s).DKLEN = s.DKLEN := rfl
@[simp] theorem engineStart_LEN0 (s : State) : (engineStart s).LEN0 = s.LEN0 := rfl
@[simp] theorem engineStart_LEN1 (s : State) : (engineStart s).LEN1 = s.LEN1 := rfl
@[simp] theorem engineStart_ERR (s : State) : (engineStart s).ERR = s.ERR := rfl
@[simp] theorem engineStart_ERRINFO (s : State) : (engineStart s).ERRINFO = s.ERRINFO := rfl
@[simp] theorem engineStart_IN0 (s : State) : (engineStart s).IN0 = s.IN0 := rfl
@[simp] theorem engineStart_IN1 (s : State) : (engineStart s).IN1 = s.IN1 := rfl
@[simp] theorem engineStart_OUT (s : State) : (engineStart s).OUT = s.OUT := rfl
@[simp] theorem engineStart_moves (s : State) : (engineStart s).moves = s.moves := rfl

/-! ### Reset -/

@[simp] theorem hardReset_ctx (s : State) : (s.hardReset).ctx = List.replicate s.ctx.length .empty := rfl
@[simp] theorem hardReset_base (s : State) : (s.hardReset).base = .empty := rfl
@[simp] theorem hardReset_work (s : State) : (s.hardReset).work = .empty := rfl
@[simp] theorem hardReset_phase (s : State) : (s.hardReset).phase = .idle := rfl
@[simp] theorem hardReset_i (s : State) : (s.hardReset).i = 0 := rfl
@[simp] theorem hardReset_j (s : State) : (s.hardReset).j = 0 := rfl
@[simp] theorem hardReset_blocks (s : State) : (s.hardReset).blocks = 0 := rfl
@[simp] theorem hardReset_T (s : State) : (s.hardReset).T = Z 32 := rfl
@[simp] theorem hardReset_U (s : State) : (s.hardReset).U = Z 32 := rfl
@[simp] theorem hardReset_kbuf (s : State) : (s.hardReset).kbuf = Z 64 := rfl
@[simp] theorem hardReset_klen (s : State) : (s.hardReset).klen = 0 := rfl
@[simp] theorem hardReset_pad (s : State) : (s.hardReset).pad = Z 64 := rfl
@[simp] theorem hardReset_idig (s : State) : (s.hardReset).idig = Z 32 := rfl
@[simp] theorem hardReset_DIG (s : State) : (s.hardReset).DIG = Z 32 := rfl
@[simp] theorem hardReset_DIGV (s : State) : (s.hardReset).DIGV = false := rfl
@[simp] theorem hardReset_C (s : State) : (s.hardReset).C = 0 := rfl
@[simp] theorem hardReset_DKLEN (s : State) : (s.hardReset).DKLEN = 0 := rfl
@[simp] theorem hardReset_LEN0 (s : State) : (s.hardReset).LEN0 = 0 := rfl
@[simp] theorem hardReset_LEN1 (s : State) : (s.hardReset).LEN1 = 0 := rfl
@[simp] theorem hardReset_ERR (s : State) : (s.hardReset).ERR = 0 := rfl
@[simp] theorem hardReset_ERRINFO (s : State) : (s.hardReset).ERRINFO = 0 := rfl
@[simp] theorem hardReset_IN0 (s : State) : (s.hardReset).IN0 = s.IN0 := rfl
@[simp] theorem hardReset_IN1 (s : State) : (s.hardReset).IN1 = s.IN1 := rfl
@[simp] theorem hardReset_OUT (s : State) : (s.hardReset).OUT = s.OUT := rfl
@[simp] theorem hardReset_moves (s : State) : (s.hardReset).moves = s.moves := rfl

/-! ### The host writes a space -/

@[simp] theorem setSpace_ctx (s : State) (sp : Space) (m : Memory) : (s.setSpace sp m).ctx = s.ctx := by cases sp <;> rfl
@[simp] theorem setSpace_base (s : State) (sp : Space) (m : Memory) : (s.setSpace sp m).base = s.base := by cases sp <;> rfl
@[simp] theorem setSpace_work (s : State) (sp : Space) (m : Memory) : (s.setSpace sp m).work = s.work := by cases sp <;> rfl
@[simp] theorem setSpace_phase (s : State) (sp : Space) (m : Memory) : (s.setSpace sp m).phase = s.phase := by cases sp <;> rfl
@[simp] theorem setSpace_i (s : State) (sp : Space) (m : Memory) : (s.setSpace sp m).i = s.i := by cases sp <;> rfl
@[simp] theorem setSpace_j (s : State) (sp : Space) (m : Memory) : (s.setSpace sp m).j = s.j := by cases sp <;> rfl
@[simp] theorem setSpace_blocks (s : State) (sp : Space) (m : Memory) : (s.setSpace sp m).blocks = s.blocks := by cases sp <;> rfl
@[simp] theorem setSpace_T (s : State) (sp : Space) (m : Memory) : (s.setSpace sp m).T = s.T := by cases sp <;> rfl
@[simp] theorem setSpace_U (s : State) (sp : Space) (m : Memory) : (s.setSpace sp m).U = s.U := by cases sp <;> rfl
@[simp] theorem setSpace_kbuf (s : State) (sp : Space) (m : Memory) : (s.setSpace sp m).kbuf = s.kbuf := by cases sp <;> rfl
@[simp] theorem setSpace_klen (s : State) (sp : Space) (m : Memory) : (s.setSpace sp m).klen = s.klen := by cases sp <;> rfl
@[simp] theorem setSpace_pad (s : State) (sp : Space) (m : Memory) : (s.setSpace sp m).pad = s.pad := by cases sp <;> rfl
@[simp] theorem setSpace_idig (s : State) (sp : Space) (m : Memory) : (s.setSpace sp m).idig = s.idig := by cases sp <;> rfl
@[simp] theorem setSpace_DIG (s : State) (sp : Space) (m : Memory) : (s.setSpace sp m).DIG = s.DIG := by cases sp <;> rfl
@[simp] theorem setSpace_DIGV (s : State) (sp : Space) (m : Memory) : (s.setSpace sp m).DIGV = s.DIGV := by cases sp <;> rfl
@[simp] theorem setSpace_C (s : State) (sp : Space) (m : Memory) : (s.setSpace sp m).C = s.C := by cases sp <;> rfl
@[simp] theorem setSpace_DKLEN (s : State) (sp : Space) (m : Memory) : (s.setSpace sp m).DKLEN = s.DKLEN := by cases sp <;> rfl
@[simp] theorem setSpace_LEN0 (s : State) (sp : Space) (m : Memory) : (s.setSpace sp m).LEN0 = s.LEN0 := by cases sp <;> rfl
@[simp] theorem setSpace_LEN1 (s : State) (sp : Space) (m : Memory) : (s.setSpace sp m).LEN1 = s.LEN1 := by cases sp <;> rfl
@[simp] theorem setSpace_ERR (s : State) (sp : Space) (m : Memory) : (s.setSpace sp m).ERR = s.ERR := by cases sp <;> rfl
@[simp] theorem setSpace_ERRINFO (s : State) (sp : Space) (m : Memory) : (s.setSpace sp m).ERRINFO = s.ERRINFO := by cases sp <;> rfl
@[simp] theorem setSpace_in0_IN0 (s : State) (m : Memory) : (s.setSpace .in0 m).IN0 = m := rfl
@[simp] theorem setSpace_in1_IN1 (s : State) (m : Memory) : (s.setSpace .in1 m).IN1 = m := rfl
@[simp] theorem setSpace_out_OUT (s : State) (m : Memory) : (s.setSpace .out m).OUT = m := rfl
@[simp] theorem setSpace_moves (s : State) (sp : Space) (m : Memory) : (s.setSpace sp m).moves = s.moves := by cases sp <;> rfl

/-! ### The host writes a parameter register -/

@[simp] theorem setParam_ctx (s : State) (r : Param) (v : U64) : (s.setParam r v).ctx = s.ctx := by cases r <;> rfl
@[simp] theorem setParam_base (s : State) (r : Param) (v : U64) : (s.setParam r v).base = s.base := by cases r <;> rfl
@[simp] theorem setParam_work (s : State) (r : Param) (v : U64) : (s.setParam r v).work = s.work := by cases r <;> rfl
@[simp] theorem setParam_phase (s : State) (r : Param) (v : U64) : (s.setParam r v).phase = s.phase := by cases r <;> rfl
@[simp] theorem setParam_i (s : State) (r : Param) (v : U64) : (s.setParam r v).i = s.i := by cases r <;> rfl
@[simp] theorem setParam_j (s : State) (r : Param) (v : U64) : (s.setParam r v).j = s.j := by cases r <;> rfl
@[simp] theorem setParam_blocks (s : State) (r : Param) (v : U64) : (s.setParam r v).blocks = s.blocks := by cases r <;> rfl
@[simp] theorem setParam_T (s : State) (r : Param) (v : U64) : (s.setParam r v).T = s.T := by cases r <;> rfl
@[simp] theorem setParam_U (s : State) (r : Param) (v : U64) : (s.setParam r v).U = s.U := by cases r <;> rfl
@[simp] theorem setParam_kbuf (s : State) (r : Param) (v : U64) : (s.setParam r v).kbuf = s.kbuf := by cases r <;> rfl
@[simp] theorem setParam_klen (s : State) (r : Param) (v : U64) : (s.setParam r v).klen = s.klen := by cases r <;> rfl
@[simp] theorem setParam_pad (s : State) (r : Param) (v : U64) : (s.setParam r v).pad = s.pad := by cases r <;> rfl
@[simp] theorem setParam_idig (s : State) (r : Param) (v : U64) : (s.setParam r v).idig = s.idig := by cases r <;> rfl
@[simp] theorem setParam_DIG (s : State) (r : Param) (v : U64) : (s.setParam r v).DIG = s.DIG := by cases r <;> rfl
@[simp] theorem setParam_DIGV (s : State) (r : Param) (v : U64) : (s.setParam r v).DIGV = s.DIGV := by cases r <;> rfl
@[simp] theorem setParam_c_C (s : State) (v : U64) : (s.setParam .c v).C = v := rfl
@[simp] theorem setParam_dklen_DKLEN (s : State) (v : U64) : (s.setParam .dklen v).DKLEN = v := rfl
@[simp] theorem setParam_len0_LEN0 (s : State) (v : U64) : (s.setParam .len0 v).LEN0 = v := rfl
@[simp] theorem setParam_len1_LEN1 (s : State) (v : U64) : (s.setParam .len1 v).LEN1 = v := rfl
@[simp] theorem setParam_ERR (s : State) (r : Param) (v : U64) : (s.setParam r v).ERR = s.ERR := by cases r <;> rfl
@[simp] theorem setParam_ERRINFO (s : State) (r : Param) (v : U64) : (s.setParam r v).ERRINFO = s.ERRINFO := by cases r <;> rfl
@[simp] theorem setParam_IN0 (s : State) (r : Param) (v : U64) : (s.setParam r v).IN0 = s.IN0 := by cases r <;> rfl
@[simp] theorem setParam_IN1 (s : State) (r : Param) (v : U64) : (s.setParam r v).IN1 = s.IN1 := by cases r <;> rfl
@[simp] theorem setParam_OUT (s : State) (r : Param) (v : U64) : (s.setParam r v).OUT = s.OUT := by cases r <;> rfl
@[simp] theorem setParam_moves (s : State) (r : Param) (v : U64) : (s.setParam r v).moves = s.moves := by cases r <;> rfl

/-! ### Reading a register that another write leaves alone -/

@[simp] theorem setSlot_nctx (s : State) (k : Nat) (c : Ctx) : (s.setSlot k c).nctx = s.nctx := by simp [State.nctx]

/-- A slot just written reads as written. -/
@[simp] theorem slot_setSlot_same (s : State) (k : Nat) (c : Ctx) (h : k < s.nctx) : (s.setSlot k c).slot k = c := by
  have h' : k < s.ctx.length := h
  simp [State.slot, State.setSlot, List.getD_eq_getElem?_getD, h']

/-- Writing a slot leaves every other slot alone (R33). -/
@[simp] theorem slot_setSlot_other (s : State) (k l : Nat) (c : Ctx) (h : k ≠ l) :
    (s.setSlot k c).slot l = s.slot l := by
  simp [State.slot, State.setSlot, List.getD_eq_getElem?_getD, h]

@[simp] theorem space_setSpace_same (s : State) (sp : Space) (m : Memory) : (s.setSpace sp m).space sp = m := by
  cases sp <;> rfl

theorem space_setSpace_other (s : State) (sp sp' : Space) (m : Memory) (h : sp ≠ sp') :
    (s.setSpace sp m).space sp' = s.space sp' := by
  cases sp <;> cases sp' <;> first | rfl | exact absurd rfl h

@[simp] theorem param_setParam_same (s : State) (r : Param) (v : U64) : (s.setParam r v).param r = v := by
  cases r <;> rfl

theorem param_setParam_other (s : State) (r r' : Param) (v : U64) (h : r ≠ r') :
    (s.setParam r v).param r' = s.param r' := by
  cases r <;> cases r' <;> first | rfl | exact absurd rfl h

@[simp] theorem param_setSpace (s : State) (sp : Space) (m : Memory) (r : Param) :
    (s.setSpace sp m).param r = s.param r := by
  cases r <;> simp [State.param]

@[simp] theorem space_setParam (s : State) (r : Param) (v : U64) (sp : Space) :
    (s.setParam r v).space sp = s.space sp := by
  cases sp <;> simp [State.space]

end Sys2Proof.Machine
end

