-- ==== Sys2Proof/Laws/Hmac.lean ====
section
/-! SUPPORT. What the micro-operations of the HMAC context unit do, said once: the context or digest each returns and the
state it leaves. -/

namespace Sys2Proof.Machine

@[simp] theorem length_rep (v : Byte) (n : Nat) : (rep v n).length = n := by simp [rep]

@[simp] theorem length_xorBytes (a b : Bytes) : (xorBytes a b).length = min a.length b.length := by simp [xorBytes]

theorem xorBytes_comm (a b : Bytes) : xorBytes a b = xorBytes b a := by
  unfold xorBytes
  rw [List.zipWith_comm]
  congr 1
  funext x y
  exact BitVec.xor_comm y x

theorem xorBytes_append (a a' b b' : Bytes) (h : a.length = b.length) :
    xorBytes (a ++ a') (b ++ b') = xorBytes a b ++ xorBytes a' b' := by
  simp [xorBytes, List.zipWith_append h]

/-- XOR with zero bytes changes nothing (R119, last sentence). -/
theorem xorBytes_zeros (b : Bytes) : xorBytes (rep 0x00 b.length) b = b := by
  induction b with
  | nil => rfl
  | cons v b ih =>
    simp only [xorBytes, rep, List.length_cons, List.replicate_succ, List.zipWith_cons_cons] at ih ⊢
    rw [ih]
    exact congrArg (· :: b) BitVec.zero_xor

theorem rep_add (v : Byte) (m n : Nat) : rep v (m + n) = rep v m ++ rep v n :=
  List.replicate_add m n v

@[simp] theorem length_reducedKey_le (P : HashPrimitive) (key : Bytes) : (reducedKey P key).length ≤ 64 := by
  have := reducedKey_length P key
  omega

@[simp] theorem length_keyBlock (P : HashPrimitive) (key : Bytes) : (keyBlock P key).length = 64 := by
  have := reducedKey_length P key
  simp only [keyBlock, List.length_append, length_rep]
  omega

/-- R119, last sentence: XORing the key into the first `klen` bytes of a constant pad gives the zero-extended key XORed
with the constant pad, whatever else `kbuf` holds. -/
theorem xorHead_fillHead (c : Byte) (kbuf : Block 64) (k : Bytes) (h : k.length ≤ 64) :
    (xorHead (Block.rep c 64) (fillHead kbuf k) k.length).val
      = xorBytes (k ++ rep 0x00 (64 - k.length)) (rep c 64) := by
  have h1 : rep c 64 = rep c k.length ++ rep c (64 - k.length) := by
    rw [← rep_add]; congr 1; omega
  have h2 : ((k ++ kbuf.val.drop k.length).take 64).take k.length = k := by
    rw [List.take_take, Nat.min_eq_left h, List.take_left]
  have h3 := xorBytes_zeros (rep c (64 - k.length))
  rw [length_rep] at h3
  simp only [xorHead, fillHead, Block.rep]
  rw [h2, h1, xorBytes_append k _ _ _ (by simp), h3, List.take_left' (by simp), List.drop_left' (by simp),
    xorBytes_comm]

/-- R110: `hmac_seed` returns the seeded context, which is a function of the key alone (R155), and leaves the buffers
cleared and the rest of the state alone. -/
theorem hmacSeed_eq (P : HashPrimitive) (key : Bytes) (s : State) :
    hmacSeed P key s = (seedCtx P key, clearSeedBuffers s) := by
  have h (c : Byte) := xorHead_fillHead c s.kbuf (reducedKey P key) (length_reducedKey_le P key)
  simp only [hmacSeed, buildPad, loadKey, HUpdate, HInit, List.nil_append, h, seedCtx, keyBlock, clearSeedBuffers, IPAD,
    OPAD]

/-- R112: the digest `hmac_final` returns. -/
def finalDigest (P : HashPrimitive) (c : LiveCtx) : Block 32 :=
  P.hash (c.outer.absorbed ++ (P.hash c.inner.absorbed).val)

/-- R112: `hmac_final` returns that digest and leaves `idig` cleared and the rest of the state alone. -/
theorem hmacFinal_eq (P : HashPrimitive) (c : LiveCtx) (s : State) :
    hmacFinal P c s = (finalDigest P c, { s with idig := Z 32 }) := rfl

/-- R112, R119: finalizing a seeded context that has been fed `m` gives `HMAC(key, m)`. -/
theorem finalDigest_seedCtx (P : HashPrimitive) (key m : Bytes) :
    finalDigest P (hmacUpdate (seedCtx P key) m) = hmac P key m := rfl

/-- R111: successive updates concatenate. -/
theorem hmacUpdate_hmacUpdate (c : LiveCtx) (a b : Bytes) :
    hmacUpdate (hmacUpdate c a) b = hmacUpdate c (a ++ b) := by
  simp [hmacUpdate, HUpdate, List.append_assoc]

/-- R113: a clone is equal, field by field. -/
@[simp] theorem hmacClone_eq (c : LiveCtx) : hmacClone c = c := rfl

@[simp] theorem hmacUpdate_outer (c : LiveCtx) (d : Bytes) : (hmacUpdate c d).outer = c.outer := rfl

@[simp] theorem hmacUpdate_inner_absorbed (c : LiveCtx) (d : Bytes) :
    (hmacUpdate c d).inner.absorbed = c.inner.absorbed ++ d := rfl

@[simp] theorem length_seedCtx_inner (P : HashPrimitive) (key : Bytes) :
    (seedCtx P key).inner.absorbed.length = 64 := by simp [seedCtx]

@[simp] theorem length_seedCtx_outer (P : HashPrimitive) (key : Bytes) :
    (seedCtx P key).outer.absorbed.length = 64 := by simp [seedCtx]

@[simp] theorem length_operand0 (s : State) : (operand0 s).length = s.LEN0.toNat := by
  simp [operand0, memRead]

@[simp] theorem length_operand1 (s : State) : (operand1 s).length = s.LEN1.toNat := by
  simp [operand1, memRead]

@[simp] theorem length_INT (i : U64) : (INT i).length = 4 := rfl

/-- R100: what may be absorbed may be absorbed in part. -/
theorem absorbs_mono (P : HashPrimitive) (m n : Nat) (h : absorbs P n = true) (hmn : m ≤ n) : absorbs P m = true := by
  unfold absorbs at h ⊢
  split
  · rfl
  · simp_all
    omega

/-- R100: the limit of the model's primitive. -/
theorem absorbs_theHash (n : Nat) : absorbs theHash n = decide (n ≤ 2 ^ 61 - 1) := rfl

end Sys2Proof.Machine
end

