-- ==== Sys2Proof/Laws/Engine.lean ====
section
/-! SUPPORT. What each phase of the engine does when what it requires holds, said once, and how runs of the engine
compose. -/

namespace Sys2Proof.Machine

/-! ### Ending a command -/

theorem raise_eq (e : Exc) (s : State) : raise e s = .next { s with ERR := e.code, ERRINFO := e.info } := rfl

theorem complete_eq (s : State) : complete s = .next { s with ERR := 0, ERRINFO := 0 } := rfl

/-! ### Phases -/

/-- The state after phase `P_SEED`, R143. -/
def seededState (P : HashPrimitive) (s : State) : State :=
  { s with
    kbuf := Z 64, klen := 0, pad := Z 64
    base := .live (hmacUpdate (seedCtx P (operand0 s)) (operand1 s))
    blocks := blocksOf s.DKLEN
    i := 1
    phase := if 1 ≤ blocksOf s.DKLEN then .pFirst else .pClear }

theorem phaseSeed_eq (P : HashPrimitive) (s : State) (h0 : seedAbsorbs P s.LEN0.toNat = true)
    (h1 : absorbs P (64 + s.LEN1.toNat) = true) : phaseSeed P s = .next (seededState P s) := by
  have hc : (seedAbsorbs P s.LEN0.toNat && absorbs P (64 + s.LEN1.toNat)) = true := by rw [h0, h1]; rfl
  unfold phaseSeed
  simp only [if_pos hc, hmacSeed_eq]
  rfl

/-- The state after phase `P_FIRST` on a base context `b`, R144. -/
def firstState (P : HashPrimitive) (b : LiveCtx) (s : State) : State :=
  { s with
    idig := Z 32
    work := .spent
    U := finalDigest P (hmacUpdate b (INT s.i))
    T := finalDigest P (hmacUpdate b (INT s.i))
    j := 1
    phase := if 1 < s.C then .pIter else .pCopy }

theorem phaseFirst_eq (P : HashPrimitive) (b : LiveCtx) (s : State) (hb : s.base = .live b)
    (hi : 1 ≤ s.i ∧ s.i ≤ s.blocks) (hu : updateAbsorbs P b 4 = true) (hf : finalAbsorbs P b = true) :
    phaseFirst P s = .next (firstState P b s) := by
  have hc : (updateAbsorbs P b 4 && finalAbsorbs P b) = true := by rw [hu, hf]; rfl
  unfold phaseFirst
  simp only [hb, hmacClone_eq, if_pos hi, if_pos hc, hmacFinal_eq, firstState]
  rfl

/-- The state after phase `P_ITER`, R145. -/
def iterState (P : HashPrimitive) (s : State) : State :=
  { s with
    kbuf := Z 64, klen := 0, pad := Z 64, idig := Z 32
    work := .spent
    U := hmac P (operand0 s) s.U.val
    T := s.T.xor (hmac P (operand0 s) s.U.val)
    j := s.j + 1
    phase := if s.j + 1 < s.C then .pIter else .pCopy }

theorem phaseIter_eq (P : HashPrimitive) (s : State) (hj : 1 ≤ s.j ∧ s.j < s.C)
    (h0 : seedAbsorbs P s.LEN0.toNat = true) (h1 : absorbs P 96 = true) :
    phaseIter P s = .next (iterState P s) := by
  have hc : (seedAbsorbs P s.LEN0.toNat && absorbs P 96) = true := by rw [h0, h1]; rfl
  unfold phaseIter
  simp only [if_pos hj, if_pos hc, hmacSeed_eq, hmacFinal_eq, finalDigest_seedCtx]
  rfl

/-- The state after phase `P_COPY`, R146. -/
def copyState (s : State) : State :=
  { s with
    OUT := s.OUT.writeBytes (outOffset s.i).toNat (s.T.val.take (outCount s.DKLEN s.i).toNat)
    i := if s.i = s.blocks then s.i else s.i + 1
    phase := if s.i = s.blocks then .pClear else .pFirst }

theorem phaseCopy_eq (s : State) (hi : 1 ≤ s.i ∧ s.i ≤ s.blocks) (hj : s.j = s.C) (ho : outOffset s.i < s.DKLEN) :
    phaseCopy s = .next (copyState s) := by
  unfold phaseCopy copyState
  rw [if_pos ⟨hi, hj⟩, if_pos ho]
  by_cases h : s.i = s.blocks
  · simp only [h, if_true]
    simp only [memWriteOut, ← h]
  · simp only [h, if_false]
    rfl

/-- The state after phase `P_CLEAR`, R147. -/
def clearedState (s : State) : State :=
  { s with base := .empty, work := .empty, T := Z 32, U := Z 32, i := 0, j := 0, blocks := 0, phase := .idle }

theorem phaseClear_eq (s : State) : phaseClear s = .next (clearedState s) := rfl

/-! ### What a phase answers, when it answers a next state -/

theorem phaseSeed_next (P : HashPrimitive) (s t : State) (h : phaseSeed P s = .next t) : t = seededState P s := by
  unfold phaseSeed at h
  split at h
  · simp only [hmacSeed_eq, Host.Outcome.next.injEq] at h
    exact h.symm
  · cases h

theorem phaseFirst_next (P : HashPrimitive) (s t : State) (h : phaseFirst P s = .next t) :
    ∃ b, s.base = .live b ∧ (1 ≤ s.i ∧ s.i ≤ s.blocks) ∧ t = firstState P b s := by
  unfold phaseFirst at h
  cases hb : s.base with
  | live b =>
    simp only [hb, hmacClone_eq, hmacFinal_eq] at h
    split at h
    · rename_i hi
      split at h
      · simp only [Host.Outcome.next.injEq] at h
        refine ⟨b, rfl, hi, h.symm.trans ?_⟩
        simp only [firstState, hb]
        rfl
      · cases h
    · cases h
  | empty => simp [hb] at h
  | spent => simp [hb] at h

theorem phaseIter_next (P : HashPrimitive) (s t : State) (h : phaseIter P s = .next t) :
    (1 ≤ s.j ∧ s.j < s.C) ∧ t = iterState P s := by
  unfold phaseIter at h
  split at h
  · rename_i hj
    split at h
    · simp only [hmacSeed_eq, hmacFinal_eq, finalDigest_seedCtx, Host.Outcome.next.injEq] at h
      exact ⟨hj, h.symm⟩
    · cases h
  · cases h

theorem phaseCopy_next (s t : State) (h : phaseCopy s = .next t) :
    ((1 ≤ s.i ∧ s.i ≤ s.blocks) ∧ s.j = s.C) ∧ outOffset s.i < s.DKLEN ∧ t = copyState s := by
  have h' := h
  unfold phaseCopy at h'
  split at h'
  · rename_i hr
    split at h'
    · rename_i ho
      rw [phaseCopy_eq s hr.1 hr.2 ho, Host.Outcome.next.injEq] at h
      exact ⟨hr, ho, h.symm⟩
    · cases h'
  · cases h'

/-- What every engine step leaves alone; only `P_COPY` writes `OUT`. -/
theorem engineStep_frame (P : HashPrimitive) (s t : State) (h : engineStep P s = .next t) :
    t.ctx = s.ctx ∧ t.DIG = s.DIG ∧ t.DIGV = s.DIGV ∧ t.C = s.C ∧ t.DKLEN = s.DKLEN ∧ t.LEN0 = s.LEN0 ∧
      t.LEN1 = s.LEN1 ∧ t.IN0 = s.IN0 ∧ t.IN1 = s.IN1 ∧ t.moves = s.moves ∧ t.ERR = s.ERR ∧ t.ERRINFO = s.ERRINFO ∧
      (s.phase ≠ .pCopy → t.OUT = s.OUT) := by
  unfold engineStep at h
  split at h
  · cases h
    simp
  · rw [phaseSeed_next P s t h]
    simp [seededState]
  · obtain ⟨b, -, -, rfl⟩ := phaseFirst_next P s t h
    simp [firstState]
  · obtain ⟨-, rfl⟩ := phaseIter_next P s t h
    simp [iterState]
  · obtain ⟨-, -, rfl⟩ := phaseCopy_next s t h
    simp_all [copyState]
  · cases h
    simp

/-! ### Runs -/

theorem engineRun_idle (P : HashPrimitive) (n : Nat) (s : State) (h : s.phase = .idle) :
    engineRun P n s = .next s := by
  cases n with
  | zero => rfl
  | succ n => simp [engineRun, h]

theorem engineRun_succ (P : HashPrimitive) (n : Nat) (s t : State) (h : s.phase ≠ .idle)
    (hs : engineStep P s = .next t) : engineRun P (n + 1) s = engineRun P n t := by
  simp [engineRun, h, hs]

/-- A run of `m + n` steps is a run of `m` and then one of `n`. -/
theorem engineRun_add (P : HashPrimitive) (m n : Nat) (s t : State) (h : engineRun P m s = .next t) :
    engineRun P (m + n) s = engineRun P n t := by
  induction m generalizing s with
  | zero =>
    cases h
    rw [Nat.zero_add]
  | succ m ih =>
    by_cases hp : s.phase = .idle
    · rw [engineRun_idle P _ s hp] at h
      cases h
      rw [engineRun_idle P _ _ hp, engineRun_idle P _ _ hp]
    · simp only [engineRun, if_neg hp] at h
      rw [show m + 1 + n = m + n + 1 by omega]
      simp only [engineRun, if_neg hp]
      cases hs : engineStep P s with
      | next u =>
        rw [hs] at h
        exact ih u h
      | fault r => simp [hs] at h
      | refused r => simp [hs] at h

/-- What one engine step keeps, a run of the engine keeps. -/
theorem engineRun_keeps (P : HashPrimitive) (Q : State → Prop)
    (hstep : ∀ s t, s.phase ≠ .idle → Q s → engineStep P s = .next t → Q t) (n : Nat) (s t : State) (hs : Q s)
    (h : engineRun P n s = .next t) : Q t := by
  induction n generalizing s with
  | zero => cases h; exact hs
  | succ n ih =>
    by_cases hp : s.phase = .idle
    · rw [engineRun_idle P _ s hp] at h
      cases h
      exact hs
    · simp only [engineRun, if_neg hp] at h
      cases hst : engineStep P s with
      | next u =>
        rw [hst] at h
        exact ih u (hstep s u hp hs hst) h
      | fault r => simp [hst] at h
      | refused r => simp [hst] at h

/-- What every run of the engine leaves alone. -/
theorem engineRun_frame (P : HashPrimitive) (n : Nat) (s t : State) (h : engineRun P n s = .next t) :
    t.ctx = s.ctx ∧ t.DIG = s.DIG ∧ t.DIGV = s.DIGV ∧ t.C = s.C ∧ t.DKLEN = s.DKLEN ∧ t.LEN0 = s.LEN0 ∧
      t.LEN1 = s.LEN1 ∧ t.IN0 = s.IN0 ∧ t.IN1 = s.IN1 ∧ t.moves = s.moves ∧ t.ERR = s.ERR ∧ t.ERRINFO = s.ERRINFO := by
  refine engineRun_keeps P (fun u => u.ctx = s.ctx ∧ u.DIG = s.DIG ∧ u.DIGV = s.DIGV ∧ u.C = s.C ∧ u.DKLEN = s.DKLEN ∧
    u.LEN0 = s.LEN0 ∧ u.LEN1 = s.LEN1 ∧ u.IN0 = s.IN0 ∧ u.IN1 = s.IN1 ∧ u.moves = s.moves ∧ u.ERR = s.ERR ∧
    u.ERRINFO = s.ERRINFO) ?_ n s t (by simp) h
  intro a b _ ha hb
  have hf := engineStep_frame P a b hb
  simp_all

end Sys2Proof.Machine
end

