-- ==== Sys2Proof/Laws/Commands.lean ====
section
/-! SUPPORT. What each command answers, said once: where it answers a next state, that state is one of the listed ones. -/

namespace Sys2Proof.Machine

/-- The state after an exception, R189. -/
def raised (e : Exc) (s : State) : State := { s with ERR := e.code, ERRINFO := e.info }

theorem raise_eq_raised (e : Exc) (s : State) : raise e s = .next (raised e s) := rfl

/-- R23, R33: where the context file has slot `k` written, slot `k` holds the new record and every other slot is as before. -/
theorem slot_of_ctx_set (s t : State) (k l : Nat) (c : Ctx) (ht : t.ctx = s.ctx.set k c) (h : k < s.nctx) :
    t.slot l = if l = k then c else s.slot l := by
  have h' : k < s.ctx.length := h
  simp only [State.slot, ht, List.getD_eq_getElem?_getD, List.getElem?_set]
  by_cases e : l = k
  · subst e
    simp [h']
  · simp [e, Ne.symm e]

/-- A slot is what the context file holds. -/
theorem slot_of_ctx (s t : State) (l : Nat) (ht : t.ctx = s.ctx) : t.slot l = s.slot l := by simp [State.slot, ht]

/-- R189: an exception leaves every slot as it was. -/
theorem slot_raised (e : Exc) (s : State) (l : Nat) : (raised e s).slot l = s.slot l := rfl

/-- The state after `HSEED cd` has completed, R115. -/
def hseedDone (P : HashPrimitive) (cd : Nat) (s : State) : State :=
  { s with
    ctx := s.ctx.set cd (.live (seedCtx P (operand0 s)))
    kbuf := Z 64, klen := 0, pad := Z 64, ERR := 0, ERRINFO := 0 }

/-- The state after `HUPDATE cd` has completed on a LIVE context, R116. -/
def hupdateDone (cd : Nat) (c : LiveCtx) (s : State) : State :=
  { s with ctx := s.ctx.set cd (.live (hmacUpdate c (operand0 s))), ERR := 0, ERRINFO := 0 }

/-- The state after `HFINAL cd` has completed on a LIVE context, R117. -/
def hfinalDone (P : HashPrimitive) (cd : Nat) (c : LiveCtx) (s : State) : State :=
  { s with
    ctx := s.ctx.set cd .spent
    idig := Z 32, DIG := finalDigest P c, DIGV := true, ERR := 0, ERRINFO := 0 }

/-- The state after `HCLONE cd, cs` has completed on a LIVE source, R118. -/
def hcloneDone (cd : Nat) (c : LiveCtx) (s : State) : State :=
  { s with ctx := s.ctx.set cd (.live c), ERR := 0, ERRINFO := 0 }

/-! ### Completing -/

theorem hseedWith_completes (P : HashPrimitive) (cd : Nat) (s : State) (h : cd < s.nctx)
    (ha : seedAbsorbs P s.LEN0.toNat = true) : hseedWith P cd s = .next (hseedDone P cd s) := by
  unfold hseedWith
  simp only [if_neg (Nat.not_le.mpr h), if_pos ha, hmacSeed_eq]
  rfl

theorem hupdateWith_completes (P : HashPrimitive) (cd : Nat) (c : LiveCtx) (s : State) (h : cd < s.nctx)
    (hc : s.slot cd = .live c) (ha : updateAbsorbs P c s.LEN0.toNat = true) :
    hupdateWith P cd s = .next (hupdateDone cd c s) := by
  unfold hupdateWith
  simp only [if_neg (Nat.not_le.mpr h), hc, if_pos ha]
  rfl

theorem hfinalWith_completes (P : HashPrimitive) (cd : Nat) (c : LiveCtx) (s : State) (h : cd < s.nctx)
    (hc : s.slot cd = .live c) (ha : finalAbsorbs P c = true) :
    hfinalWith P cd s = .next (hfinalDone P cd c s) := by
  unfold hfinalWith
  simp only [if_neg (Nat.not_le.mpr h), hc, if_pos ha, hmacFinal_eq]
  rfl

theorem hcloneSlots_completes (cd cs : Nat) (c : LiveCtx) (s : State) (hd : cd < s.nctx) (hs : cs < s.nctx)
    (hc : s.slot cs = .live c) : hcloneSlots cd cs s = .next (hcloneDone cd c s) := by
  unfold hcloneSlots
  simp only [if_neg (Nat.not_le.mpr hd), if_neg (Nat.not_le.mpr hs), hc, hmacClone_eq]
  rfl

/-! ### What a command answers, when it answers a next state -/

theorem hseedWith_next (P : HashPrimitive) (cd : Nat) (s t : State) (h : hseedWith P cd s = .next t) :
    (s.nctx ≤ cd ∧ t = raised (.contextIndex cd) s) ∨ (cd < s.nctx ∧ t = hseedDone P cd s) := by
  unfold hseedWith at h
  split at h
  · rename_i hn
    cases h
    exact .inl ⟨hn, rfl⟩
  · rename_i hn
    split at h
    · simp only [hmacSeed_eq] at h
      cases h
      exact .inr ⟨by omega, rfl⟩
    · cases h

theorem hupdateWith_next (P : HashPrimitive) (cd : Nat) (s t : State) (h : hupdateWith P cd s = .next t) :
    (s.nctx ≤ cd ∧ t = raised (.contextIndex cd) s) ∨
    (cd < s.nctx ∧ (s.slot cd).st ≠ .live ∧ t = raised (.contextState cd (s.slot cd).st) s) ∨
    (cd < s.nctx ∧ ∃ c, s.slot cd = .live c ∧ t = hupdateDone cd c s) := by
  unfold hupdateWith at h
  split at h
  · rename_i hn
    cases h
    exact .inl ⟨hn, rfl⟩
  · rename_i hn
    cases hc : s.slot cd with
    | live c =>
      simp only [hc] at h
      split at h
      · cases h
        exact .inr (.inr ⟨by omega, c, rfl, rfl⟩)
      · cases h
    | empty =>
      simp only [hc] at h
      cases h
      exact .inr (.inl ⟨by omega, by simp [Ctx.st], rfl⟩)
    | spent =>
      simp only [hc] at h
      cases h
      exact .inr (.inl ⟨by omega, by simp [Ctx.st], rfl⟩)

theorem hfinalWith_next (P : HashPrimitive) (cd : Nat) (s t : State) (h : hfinalWith P cd s = .next t) :
    (s.nctx ≤ cd ∧ t = raised (.contextIndex cd) s) ∨
    (cd < s.nctx ∧ (s.slot cd).st ≠ .live ∧ t = raised (.contextState cd (s.slot cd).st) s) ∨
    (cd < s.nctx ∧ ∃ c, s.slot cd = .live c ∧ t = hfinalDone P cd c s) := by
  unfold hfinalWith at h
  split at h
  · rename_i hn
    cases h
    exact .inl ⟨hn, rfl⟩
  · rename_i hn
    cases hc : s.slot cd with
    | live c =>
      simp only [hc] at h
      split at h
      · simp only [hmacFinal_eq] at h
        cases h
        exact .inr (.inr ⟨by omega, c, rfl, rfl⟩)
      · cases h
    | empty =>
      simp only [hc] at h
      cases h
      exact .inr (.inl ⟨by omega, by simp [Ctx.st], rfl⟩)
    | spent =>
      simp only [hc] at h
      cases h
      exact .inr (.inl ⟨by omega, by simp [Ctx.st], rfl⟩)

theorem hcloneSlots_next (cd cs : Nat) (s t : State) (h : hcloneSlots cd cs s = .next t) :
    (s.nctx ≤ cd ∧ t = raised (.contextIndex cd) s) ∨
    (cd < s.nctx ∧ s.nctx ≤ cs ∧ t = raised (.contextIndex cs) s) ∨
    (cd < s.nctx ∧ cs < s.nctx ∧ (s.slot cs).st ≠ .live ∧ t = raised (.contextState cs (s.slot cs).st) s) ∨
    (cd < s.nctx ∧ cs < s.nctx ∧ ∃ c, s.slot cs = .live c ∧ t = hcloneDone cd c s) := by
  unfold hcloneSlots at h
  split at h
  · rename_i hn
    cases h
    exact .inl ⟨hn, rfl⟩
  · rename_i hn
    split at h
    · rename_i hn'
      cases h
      exact .inr (.inl ⟨by omega, hn', rfl⟩)
    · rename_i hn'
      cases hc : s.slot cs with
      | live c =>
        simp only [hc, hmacClone_eq] at h
        cases h
        exact .inr (.inr (.inr ⟨by omega, by omega, c, rfl, rfl⟩))
      | empty =>
        simp only [hc] at h
        cases h
        exact .inr (.inr (.inl ⟨by omega, by omega, by simp [Ctx.st], rfl⟩))
      | spent =>
        simp only [hc] at h
        cases h
        exact .inr (.inr (.inl ⟨by omega, by omega, by simp [Ctx.st], rfl⟩))

theorem deriveWith_next (P : HashPrimitive) (s t : State) (h : deriveWith P s = .next t) :
    (∃ e, deriveCheck s = some e ∧ t = raised e s) ∨
    (deriveCheck s = none ∧ ∃ u, engineRun P (engineSteps s) (engineStart s) = .next u ∧
      t = { u with ERR := 0, ERRINFO := 0 }) := by
  unfold deriveWith at h
  cases hc : deriveCheck s with
  | some e =>
    simp only [hc] at h
    cases h
    exact .inl ⟨e, rfl, rfl⟩
  | none =>
    simp only [hc] at h
    cases hr : engineRun P (engineSteps s) (engineStart s) with
    | next u =>
      simp only [hr] at h
      cases h
      exact .inr ⟨rfl, u, rfl, rfl⟩
    | fault r => simp [hr] at h
    | refused r => simp [hr] at h

end Sys2Proof.Machine
end

