-- ==== Sys2Proof/Laws/PerInstr.lean ====
section
/-! SUPPORT. The statements made per instruction (LAWS.json): `RowOfEncoding` says, of one command as syntax, that the
word the encoder gives it selects the row of the opcode map (R72) that carries its mnemonic, and no other row. -/

namespace Sys2Proof.Laws.RowOfEncoding

/-- R72: the encoding of a well-formed command selects exactly the rows that carry its mnemonic. -/
def Statement (i : Instr) : Prop :=
  i.wf = true → ∀ r ∈ opcodeTable, (r.selects (encode i) = true ↔ r.mnemonic = i.mnemonic)

theorem hseed (cd : Nat) : Statement (.hseed cd) := by
  intro h
  have hc : cd < 16 := by simpa [Instr.wf, slotFieldOk] using h
  interval_cases cd <;> decide

theorem hupdate (cd : Nat) : Statement (.hupdate cd) := by
  intro h
  have hc : cd < 16 := by simpa [Instr.wf, slotFieldOk] using h
  interval_cases cd <;> decide

theorem hfinal (cd : Nat) : Statement (.hfinal cd) := by
  intro h
  have hc : cd < 16 := by simpa [Instr.wf, slotFieldOk] using h
  interval_cases cd <;> decide

/-- The row of `HCLONE` asks only for the operation code. -/
theorem hclone (cd cs : Nat) : Statement (.hclone cd cs) := by
  intro h
  have hc : cd < 16 ∧ cs < 16 := by simpa [Instr.wf, slotFieldOk] using h
  have all : ∀ a : Fin 16, ∀ b : Fin 16, ∀ r ∈ opcodeTable,
      (r.selects (encode (.hclone a.val b.val)) = true ↔ r.mnemonic = "HCLONE") := by decide +kernel
  exact all ⟨cd, hc.1⟩ ⟨cs, hc.2⟩

theorem derive : Statement .derive := fun _ => by decide

end Sys2Proof.Laws.RowOfEncoding
end

