-- ==== Sys2Proof/Laws/Sha256.lean ====
section
/-! SUPPORT. How SHA-256's compression over whole blocks (40_hash_primitive.md R98 step (2)) composes. -/

namespace Sys2Proof.Machine.Sha256

/-- Compressing `n` blocks reads the first `64 n` bytes only. -/
theorem compressBlocks_append (n : Nat) (h : Chain) (a b : Bytes) (hl : 64 * n ≤ a.length) :
    compressBlocks n h (a ++ b) = compressBlocks n h a := by
  induction n generalizing h a with
  | zero => rfl
  | succ n ih =>
    simp only [compressBlocks]
    rw [List.take_append_of_le_length (by omega), List.drop_append_of_le_length (by omega)]
    exact ih _ _ (by simp only [List.length_drop]; omega)

/-- Compressing `m + n` blocks is compressing `m` and then the next `n`. -/
theorem compressBlocks_add (m n : Nat) (h : Chain) (x : Bytes) :
    compressBlocks (m + n) h x = compressBlocks n (compressBlocks m h x) (x.drop (64 * m)) := by
  induction m generalizing h x with
  | zero => simp [compressBlocks]
  | succ m ih =>
    rw [show m + 1 + n = (m + n) + 1 by omega]
    simp only [compressBlocks]
    rw [ih, List.drop_drop, show 64 + 64 * m = 64 * (m + 1) by omega]

/-- Compressing a longer message goes on from the whole blocks of its beginning. -/
theorem compressAll_append (h : Chain) (m d : Bytes) :
    compressAll h (m ++ d) = compressAll (compressAll h m) (m.drop (64 * (m.length / 64)) ++ d) := by
  have h1 : 64 * (m.length / 64) ≤ m.length := Nat.mul_div_le _ _
  have h2 : (m ++ d).length / 64 = m.length / 64 + (m.drop (64 * (m.length / 64)) ++ d).length / 64 := by
    simp only [List.length_append, List.length_drop]
    omega
  unfold compressAll
  rw [h2, compressBlocks_add, compressBlocks_append _ _ _ _ h1, List.drop_append_of_le_length h1]

end Sys2Proof.Machine.Sha256
end

