-- ==== Sys2Proof/Laws/Step.lean ====
section
/-! SUPPORT. How a step unfolds, and how runs of the machine do. -/

namespace Sys2Proof.Machine

/-! ### Any core -/

theorem stepOver_waiting (P : HashPrimitive) (run : Instr → State → Answer) (s : State) (hp : s.phase = .idle)
    (hm : s.moves = []) : stepOver P run s = .next s := by
  simp [stepOver, hp, idleStepOver, hm]

theorem stepOver_move (P : HashPrimitive) (run : Instr → State → Answer) (s : State) (m : HostMove)
    (rest : List HostMove) (hp : s.phase = .idle) (hm : s.moves = m :: rest) :
    stepOver P run s = performOver P run m { s with moves := rest } := by
  simp [stepOver, hp, idleStepOver, hm]

theorem stepOver_busy (P : HashPrimitive) (run : Instr → State → Answer) (s : State) (hp : s.phase ≠ .idle) :
    stepOver P run s = busyStep P s := by
  simp [stepOver, hp]

/-! The moves, one lemma each; what `hostWrite` and `hostFill` do they say themselves. -/

@[simp] theorem performOver_present (P : HashPrimitive) (run : Instr → State → Answer) (w : CmdWord) (s : State) :
    performOver P run (.present w) s = runWordOver run w s := rfl

@[simp] theorem performOver_write (P : HashPrimitive) (run : Instr → State → Answer) (sp : Space) (off : U64)
    (bytes : Bytes) (s : State) :
    performOver P run (.write sp off bytes) s = hostWrite sp off.toNat bytes s := rfl

@[simp] theorem performOver_setParam (P : HashPrimitive) (run : Instr → State → Answer) (r : Param) (v : U64)
    (s : State) : performOver P run (.setParam r v) s = .next (s.setParam r v) := rfl

@[simp] theorem performOver_in0 (P : HashPrimitive) (run : Instr → State → Answer) (bytes : Bytes) (s : State) :
    performOver P run (.in0 bytes) s = hostFill .in0 .len0 bytes s := rfl

@[simp] theorem performOver_in1 (P : HashPrimitive) (run : Instr → State → Answer) (bytes : Bytes) (s : State) :
    performOver P run (.in1 bytes) s = hostFill .in1 .len1 bytes s := rfl

@[simp] theorem performOver_reset (P : HashPrimitive) (run : Instr → State → Answer) (s : State) :
    performOver P run .reset s = .next s.hardReset := rfl

@[simp] theorem performOver_presentThenReset (P : HashPrimitive) (run : Instr → State → Answer) (w : CmdWord)
    (k : Nat) (s : State) : performOver P run (.presentThenReset w k) s = resetDuring P run w k s := rfl

/-- A run that ends in a reset and answers a next state answers the reset of the state it has run to. -/
theorem thenReset_next (a : Answer) (t : State) (h : thenReset a = .next t) : ∃ u, a = .next u ∧ t = u.hardReset := by
  cases a with
  | next u =>
    cases h
    exact ⟨u, rfl, rfl⟩
  | fault r => cases h
  | refused r => cases h

/-- R211, D1: reset comes after `k` steps of the engine of a `DERIVE` that passed its checks, else after the command. -/
theorem resetDuring_eq (P : HashPrimitive) (run : Instr → State → Answer) (w : CmdWord) (k : Nat) (s : State) :
    (decode w = .instr .derive ∧ deriveCheck s = none ∧
      resetDuring P run w k s = thenReset (engineRun P k (engineStart s))) ∨
    (¬(decode w = .instr .derive ∧ deriveCheck s = none) ∧
      resetDuring P run w k s = thenReset (runWordOver run w s)) := by
  unfold resetDuring
  split
  · rename_i hw hc
    exact .inl ⟨hw, hc, rfl⟩
  · rename_i hn
    exact .inr ⟨fun h => hn h.1 h.2, rfl⟩

theorem runWordOver_instr (run : Instr → State → Answer) (w : CmdWord) (i : Instr) (s : State)
    (h : decode w = .instr i) : runWordOver run w s = run i s := by
  simp [runWordOver, h]

theorem runWordOver_illegal (run : Instr → State → Answer) (w : CmdWord) (why : Illegal) (s : State)
    (h : decode w = .illegal why) : runWordOver run w s = .next (raised (.illegalCommand w) s) := by
  simp [runWordOver, h, raise_eq_raised]

/-! ### The core of exec is the one with SHA-256 (log 11) -/

theorem execWith_theHash : execWith theHash = exec := by
  funext i s
  cases i <;> rfl

theorem stepWith_theHash : stepWith theHash = step := by
  funext s
  rw [stepWith, execWith_theHash, step]

theorem runWordWith_theHash : runWordWith theHash = runWord := by
  funext w s
  rw [runWordWith, execWith_theHash, runWord]

/-! ### The core of exec -/

theorem step_waiting (s : State) (hp : s.phase = .idle) (hm : s.moves = []) : step s = .next s :=
  stepOver_waiting theHash exec s hp hm

theorem step_move (s : State) (m : HostMove) (rest : List HostMove) (hp : s.phase = .idle)
    (hm : s.moves = m :: rest) : step s = perform m { s with moves := rest } :=
  stepOver_move theHash exec s m rest hp hm

theorem step_busy (s : State) (hp : s.phase ≠ .idle) : step s = busyStep theHash s := stepOver_busy theHash exec s hp

theorem runWord_instr (w : CmdWord) (i : Instr) (s : State) (h : decode w = .instr i) : runWord w s = exec i s :=
  runWordOver_instr exec w i s h

theorem runWord_illegal (w : CmdWord) (why : Illegal) (s : State) (h : decode w = .illegal why) :
    runWord w s = .next (raised (.illegalCommand w) s) :=
  runWordOver_illegal exec w why s h

/-- What a command word does, when it answers a next state: the command it decodes to, or IllegalCommand. -/
theorem runWord_next (w : CmdWord) (s t : State) (h : runWord w s = .next t) :
    (∃ i, decode w = .instr i ∧ exec i s = .next t) ∨
      ((decode w).instr? = none ∧ t = raised (.illegalCommand w) s) := by
  cases hd : decode w with
  | instr i =>
    rw [runWord_instr w i s hd] at h
    exact .inl ⟨i, rfl, h⟩
  | illegal why =>
    rw [runWord_illegal w why s hd] at h
    cases h
    exact .inr ⟨rfl, rfl⟩

theorem core_run_zero (s : State) : Sys2Proof.core.run 0 s = .next s := rfl

/-- A run whose first step answers a next state goes on from there. -/
theorem core_run_next (n : Nat) (s t : State) (h : step s = .next t) :
    Sys2Proof.core.run (n + 1) s = Sys2Proof.core.run n t := by
  have run_succ (M : Host.Core) (k : Nat) (a b : M.State) (hab : M.step a = .next b) :
      M.run (k + 1) a = M.run k b := by
    simp [Host.Core.run, hab]
  exact run_succ Sys2Proof.core n s t h

/-- What a busy step answers, when it answers a next state. -/
theorem busyStep_next (P : HashPrimitive) (s t : State) (h : busyStep P s = .next t) :
    ∃ u, engineStep P s = .next u ∧
      ((u.phase = .idle ∧ t = { u with ERR := 0, ERRINFO := 0 }) ∨ (u.phase ≠ .idle ∧ t = u)) := by
  unfold busyStep at h
  cases hs : engineStep P s with
  | next u =>
    simp only [hs] at h
    split at h
    · rename_i hi
      cases h
      exact ⟨u, rfl, .inl ⟨hi, rfl⟩⟩
    · rename_i hi
      cases h
      exact ⟨_, rfl, .inr ⟨hi, rfl⟩⟩
  | fault r => simp [hs] at h
  | refused r => simp [hs] at h

end Sys2Proof.Machine
end

