-- ==== Sys2Proof/Tests/Slice0.lean ====
section
/-! SUPPORT. Tests of one step each, their expected values taken from the spec (95_test_vectors.md and the examples of the
rules), and for every statement with hypotheses a witness that meets them, at the boundary of each clause. -/

namespace Sys2Proof.Tests

open Sys2Proof.Machine

set_option Elab.async false -- one theorem at a time, so that the check's threads do not pile up behind a kernel run

/-! ### Helpers -/

/-- The next state of an answer, none where it stops. -/
def nextOf : Answer → Option State
  | .next s => some s
  | .fault _ => none
  | .refused _ => none

/-- The answer is a next state with a property. -/
def goesTo (a : Answer) (p : State → Bool) : Bool := (nextOf a).any p

/-- The answer is a next state. -/
def goesOn (a : Answer) : Bool := (nextOf a).isSome

/-- A byte sequence as one number, the first byte most significant. -/
def beNat (b : Bytes) : Nat := b.foldl (fun n v => 256 * n + v.toNat) 0

/-- "key". -/
def keyText : Bytes := [0x6b, 0x65, 0x79]

/-- "The quick brown fox jumps over the lazy dog". -/
def foxText : Bytes :=
  [ 0x54, 0x68, 0x65, 0x20, 0x71, 0x75, 0x69, 0x63, 0x6b, 0x20, 0x62, 0x72, 0x6f, 0x77, 0x6e, 0x20, 0x66, 0x6f, 0x78,
    0x20, 0x6a, 0x75, 0x6d, 0x70, 0x73, 0x20, 0x6f, 0x76, 0x65, 0x72, 0x20, 0x74, 0x68, 0x65, 0x20, 0x6c, 0x61, 0x7a,
    0x79, 0x20, 0x64, 0x6f, 0x67 ]

/-- "passwd" and "salt". -/
def passwdText : Bytes := [0x70, 0x61, 0x73, 0x73, 0x77, 0x64]

def saltText : Bytes := [0x73, 0x61, 0x6c, 0x74]

/-- The reset state with an operand in `IN0`. -/
def with0 (b : Bytes) : State :=
  { State.reset with IN0 := Memory.writeBytes [] 0 b, LEN0 := BitVec.ofNat 64 b.length }

/-- The reset state with the operands of a `DERIVE`. -/
def derivation (p s : Bytes) (c dkLen : Nat) : State :=
  { with0 p with
    IN1 := Memory.writeBytes [] 0 s, LEN1 := BitVec.ofNat 64 s.length, C := BitVec.ofNat 64 c
    DKLEN := BitVec.ofNat 64 dkLen }

/-- The context of an empty key (95_test_vectors.md 2.1). -/
def bare : LiveCtx := ⟨⟨rep 0x36 64⟩, ⟨rep 0x5c 64⟩⟩

/-- The context of the key "key" (R115, example). -/
def keyed : LiveCtx := ⟨⟨[0x5d, 0x53, 0x4f] ++ rep 0x36 61⟩, ⟨[0x37, 0x39, 0x25] ++ rep 0x5c 61⟩⟩

/-- Four slots: 0 LIVE, 1 EMPTY, 2 SPENT, 3 LIVE. -/
def slots4 : State := { with0 keyText with ctx := [.live keyed, .empty, .spent, .live bare] }

/-- A primitive whose digest is always zero: the statements over every primitive hold of it too. -/
def flat : HashPrimitive := ⟨fun _ => Z 32, none⟩

/-- An engine in a phase, one block of 32 bytes and two iterations, seeded with an empty passphrase and salt. -/
def engine (p : Phase) : State :=
  { State.reset with phase := p, base := .live bare, i := 1, j := 1, blocks := 1, C := 2, DKLEN := 32 }

/-! ### Well-formedness: each check refuses an ill-formed term -/

theorem test_wf_refuses_hseed_16 : (Instr.hseed 16).wf = false := by decide
theorem test_wf_refuses_hupdate_16 : (Instr.hupdate 16).wf = false := by decide
theorem test_wf_refuses_hfinal_16 : (Instr.hfinal 16).wf = false := by decide
theorem test_wf_refuses_hclone_destination_16 : (Instr.hclone 16 0).wf = false := by decide
theorem test_wf_refuses_hclone_source_16 : (Instr.hclone 0 16).wf = false := by decide

/-! ### Decoding, from the bit patterns of R72 -/

/-- `00000001 dddd 0000`. -/
theorem test_decode_hseed : decode 0b0000000101010000 = .instr (.hseed 5) := by decide
/-- `00000010 dddd 0000`. -/
theorem test_decode_hupdate : decode 0b0000001011100000 = .instr (.hupdate 14) := by decide
/-- `00000011 dddd 0000`. -/
theorem test_decode_hfinal : decode 0b0000001100010000 = .instr (.hfinal 1) := by decide
/-- `00000100 dddd ssss`. -/
theorem test_decode_hclone : decode 0b0000010011010010 = .instr (.hclone 13 2) := by decide
/-- `00010000 0000 0000`. -/
theorem test_decode_derive : decode 0b0001000000000000 = .instr .derive := by decide
/-- R75: a set index field that the format does not use is illegal. -/
theorem test_decode_unused_field :
    decode 0x0101 = .illegal (.unusedFieldSet 0x01) ∧ decode 0x1010 = .illegal (.unusedFieldSet 0x10) := by decide
/-- R75: the other operation codes are reserved. -/
theorem test_decode_reserved_op :
    decode 0x0000 = .illegal (.reservedOp 0x00) ∧ decode 0x0500 = .illegal (.reservedOp 0x05) := by decide

/-! ### One step of each command -/

/-- R115, example. -/
theorem test_hseed_key : goesTo (exec (.hseed 0) (with0 keyText)) (fun t =>
    decide (t.slot 0 = .live keyed ∧ t.slot 1 = .empty ∧ t.kbuf = Z 64 ∧ t.klen = 0 ∧ t.pad = Z 64 ∧ t.ERR = 0)) = true := by
  decide +kernel

/-- 95_test_vectors.md 2.9: `HSEED c5`. -/
theorem test_hseed_past_the_file : goesTo (exec (.hseed 5) State.reset) (fun t => decide (t.ERR = 4 ∧ t.ERRINFO = 5)) = true := by
  decide

/-- R116, example: the bytes are appended to the inner state and the outer state is untouched. -/
theorem test_hupdate_appends : goesTo (exec (.hupdate 0) { slots4 with IN0 := [(0, 0x61), (1, 0x62)], LEN0 := 2 }) (fun t =>
    decide (t.slot 0 = .live ⟨⟨[0x5d, 0x53, 0x4f] ++ rep 0x36 61 ++ [0x61, 0x62]⟩, keyed.outer⟩)) = true := by
  decide +kernel

/-- 95_test_vectors.md 2.9: `HUPDATE c1` on the reset state. -/
theorem test_hupdate_empty : runWord 0x0210 State.reset = .next { State.reset with ERR := 5, ERRINFO := 0x100 } := by rfl

/-- 95_test_vectors.md 2.9: a second `HFINAL c0`. -/
theorem test_hfinal_spent : goesTo (exec (.hfinal 2) slots4) (fun t =>
    decide (t = { slots4 with ERR := 5, ERRINFO := 0x202 })) = true := by
  decide +kernel

/-- R118: the copy; the source stays. -/
theorem test_hclone_copies : goesTo (runWord 0x0410 slots4) (fun t =>
    decide (t.slot 1 = .live keyed ∧ t.slot 0 = .live keyed ∧ t.ERR = 0)) = true := by
  decide +kernel

/-- 95_test_vectors.md 2.9: `HCLONE c5, c1`, the destination index before the source's status. -/
theorem test_hclone_destination_first : goesTo (runWord 0x0451 State.reset) (fun t =>
    decide (t.ERR = 4 ∧ t.ERRINFO = 5)) = true := by
  decide

/-- 95_test_vectors.md 4, and R181: one byte past the bound. -/
theorem test_derive_range : runWord 0x1000 (derivation [] [] 0 137438953441) =
    .next { derivation [] [] 0 137438953441 with ERR := 1, ERRINFO := 137438953441 } := by rfl

/-! ### The hash primitive and the host's side -/

/-- R74, examples. -/
theorem test_INT : INT 1 = [0, 0, 0, 1] ∧ INT 256 = [0, 0, 1, 0] := by decide

/-- R212: a `DERIVE` straight after reset reads `C = 0`. -/
theorem test_step_runs_the_word : goesTo (step (State.reset.withFetchWord 16 0x1000)) (fun t =>
    decide (t.ERR = 2 ∧ t.ERRINFO = 0 ∧ t.moves = [])) = true := by decide

/-- R77. -/
theorem test_in0 : goesTo (step { State.reset with moves := [.in0 keyText] }) (fun t =>
    decide (t.LEN0 = 3 ∧ t.IN0 = [(0, 0x6b), (1, 0x65), (2, 0x79)])) = true := by decide +kernel

/-- R77, the example of a clone: `HCLONE c1, c0` is word `0x0410`. -/
theorem test_text : commandText (.hclone 1 0) = "HCLONE c1, c0" ∧ issue (.hclone 1 0) = .present 0x0410 := by decide

/-! ### Witnesses: for each statement with hypotheses, inputs that meet them together -/

theorem witness_DecodeAndEncodeFollowR79 : (15 < 16 ∧ (Instr.hclone 15 15).wf = true ∧ Instr.derive.wf = true) ∧
    decode 0x1000 = .instr .derive ∧ decode 0x0300 = .instr (.hfinal 0) := by decide

theorem witness_OpcodeMapSelectsTheDecodedRow :
    ∃ r ∈ opcodeTable, r.selects 0x04FF = true ∧ ∃ r' ∈ opcodeTable, r'.selects 0x04FF = true := by decide

theorem witness_IllegalWordRaisesIllegalCommand :
    (decode 0x0101).instr? = none ∧ (∀ r ∈ opcodeTable, r.selects 0x0500 = false) ∧
    (∀ r ∈ opcodeTable, r.selects 0x1001 = false) := by decide

theorem witness_IntIsFourBytesBigEndian : (1 ≤ (1 : U64).toNat ∧ (1 : U64).toNat ≤ 2 ^ 32 - 1) ∧
    (1 ≤ (0xffffffff : U64).toNat ∧ (0xffffffff : U64).toNat ≤ 2 ^ 32 - 1) ∧
    (State.Inv (engine .pFirst) ∧ (engine .pFirst).phase = .pFirst) := by
  refine ⟨by decide, by decide, ⟨by decide, by decide, by decide +kernel, ?_⟩, rfl⟩
  show State.ChecksPassed _ ∧ State.InBlock _
  decide +kernel

/-- A core that waits with a word presented. -/
def presented (w : CmdWord) : State := { slots4 with moves := [.present w, .reset] }

theorem witness_StepRunsTheDecodedCommand : (presented 0x04FF).phase = .idle ∧
    (presented 0x04FF).moves = .present 0x04FF :: [.reset] ∧ decode 0x04FF = .instr (.hclone 15 15) ∧
    (Instr.hclone 15 15).wf = true := by decide +kernel

theorem witness_PhasesFollowTheTransferGraph :
    goesOn (engineStep flat (engine .idle)) ∧ goesOn (engineStep flat (engine .pSeed)) ∧
    goesOn (engineStep flat (engine .pFirst)) ∧ goesOn (engineStep flat (engine .pIter)) ∧
    goesOn (engineStep flat { engine .pCopy with j := 2 }) ∧ goesOn (engineStep flat (engine .pClear)) ∧
    (State.reset.phase = .idle ∧ State.reset.moves = []) ∧ (engine .pSeed).phase ≠ .idle ∧
    (engine .idle).ChecksPassed ∧ goesOn (engineRun flat (engineSteps (engine .idle)) { engine .idle with phase := .pSeed }) := by
  decide +kernel

theorem witness_BusyStepTakesNoHostMove : (engine .pSeed).phase ≠ .idle ∧
    goesOn (step { engine .pSeed with moves := [.reset] }) := by decide +kernel

/-- A core that waits, with one move of the host to come. -/
def moved (m : HostMove) : State := { State.reset with moves := [m] }

theorem witness_HostWritesTouchOnlyWhatTheyName : (∀ m, (moved m).phase = .idle ∧ (moved m).moves = m :: []) ∧
    ([] : Bytes).length < 2 ^ 64 ∧ (0xffffffffffffffff : U64).toNat + ([0x01] : Bytes).length ≤ 2 ^ 64 ∧
    2 ^ 64 < (0xffffffffffffffff : U64).toNat + ([0x01, 0x02] : Bytes).length ∧
    (∃ bs : Bytes, 2 ^ 64 ≤ bs.length ∧ ((moved (.in0 bs)).moves = .in0 bs :: [] ∨ (moved (.in1 bs)).moves = .in1 bs :: [])) :=
  ⟨fun _ => ⟨rfl, rfl⟩, by decide, by decide, by decide, List.replicate (2 ^ 64) 0x00, by rw [List.length_replicate],
    .inl rfl⟩

theorem witness_HseedSeedsTheSlot : (3 < slots4.nctx ∧ { slots4 with LEN0 := 0x1fffffffffffffff }.LEN0.toNat ≤ 2 ^ 61 - 1) ∧
    slots4.nctx ≤ 4 ∧ 15 < 16 := by decide +kernel

theorem witness_HupdateFeedsTheInnerState :
    (3 < slots4.nctx ∧ slots4.slot 3 = .live bare ∧
      bare.inner.absorbed.length + { slots4 with LEN0 := 0x1fffffffffffffff - 64 }.LEN0.toNat ≤ 2 ^ 61 - 1) ∧
    (1 < slots4.nctx ∧ slots4.slot 1 = .empty) ∧ (2 < slots4.nctx ∧ slots4.slot 2 = .spent) ∧ slots4.nctx ≤ 4 := by
  decide +kernel

theorem witness_HfinalPutsTheMacInDig :
    (0 < slots4.nctx ∧ slots4.slot 0 = .live keyed ∧ keyed.outer.absorbed.length + 32 ≤ 2 ^ 61 - 1) ∧
    (1 < slots4.nctx ∧ slots4.slot 1 = .empty) ∧ (2 < slots4.nctx ∧ slots4.slot 2 = .spent) ∧ slots4.nctx ≤ 4 := by
  decide +kernel

theorem witness_HcloneCopiesTheSlot : (3 < slots4.nctx ∧ 0 < slots4.nctx ∧ slots4.slot 0 = .live keyed) ∧
    (3 < slots4.nctx ∧ slots4.slot 3 = .live bare) ∧ slots4.nctx ≤ 4 ∧ (3 < slots4.nctx ∧ slots4.nctx ≤ 4) ∧
    (slots4.slot 1 = .empty ∧ slots4.slot 2 = .spent ∧ 1 < slots4.nctx ∧ 2 < slots4.nctx) ∧ (15 < 16 ∧ 15 < 16) := by
  decide +kernel

/-- Each command answers a next state from `slots4`: the hypothesis of the frames. -/
theorem witness_HmacCommandsFrame : goesOn (exec (.hseed 0) slots4) ∧ goesOn (exec (.hupdate 0) slots4) ∧
    goesOn (exec (.hfinal 0) slots4) ∧ goesOn (exec (.hclone 1 0) slots4) := by decide +kernel

theorem witness_SlotStatusLifeCycle :
    (goesOn (exec (.hfinal 3) slots4) ∧ 3 < slots4.nctx) ∧ (goesOn (exec (.hclone 1 2) slots4) ∧
      (∀ l ∈ slotsNamed (.hclone 1 2), l < slots4.nctx) ∧ liveNeeded (.hclone 1 2) = some 2 ∧
      (slots4.slot 2).st ≠ .live ∧ 0 ≠ 1) := by decide +kernel

theorem witness_CloneIsIndependent : 3 ≠ 0 ∧ 3 < slots4.nctx ∧ 0 < slots4.nctx ∧ (slots4.slot 0).st = .live ∧
    goesTo (exec (.hclone 3 0) slots4) (fun t => goesOn (exec (.hupdate 0) t) && goesOn (exec (.hfinal 0) t)) ∧
    goesTo (exec (.hclone 3 0) slots4) (fun t => goesOn (exec (.hupdate 3) t) && goesOn (exec (.hfinal 3) t)) := by
  decide +kernel

theorem witness_LongKeyFolding : 64 < (rep 0x61 65).length := by decide

/-- The largest operands that `DERIVE` accepts. -/
def largest : State :=
  { State.reset with
    DKLEN := 137438953440, C := 0xffffffffffffffff, LEN0 := 0x1fffffffffffffff, LEN1 := 0x1fffffffffffffff - 68 }

theorem witness_DeriveWritesPbkdf2 : largest.AtBoundary ∧
    (largest.DKLEN.toNat ≤ 137438953440 ∧ largest.C ≠ 0 ∧ largest.LEN0.toNat ≤ 2 ^ 61 - 1 ∧
      largest.LEN1.toNat + 68 ≤ 2 ^ 61 - 1 ∧ largest.OUT.wf = true) ∧
    (137438953440 < { largest with DKLEN := 137438953441 }.DKLEN.toNat) ∧
    (largest.DKLEN.toNat ≤ 137438953440 ∧ { largest with C := 0 }.C = 0) ∧
    ((0x1001 : CmdWord).toNat / 256 = 0x10 ∧ (0x1001 : CmdWord) ≠ 0x1000) := by decide +kernel

theorem witness_DeriveComputesPbkdf2ForEveryPrimitive : (largest.ChecksPassed ∧ deriveAbsorbs flat largest = true) ∧
    ({ largest with DKLEN := 0, C := 1 }.ChecksPassed) := by decide +kernel

theorem witness_EngineTakesExactlyTheStepsOfR151 : (engine .idle).ChecksPassed ∧ deriveAbsorbs flat (engine .idle) = true ∧
    0 < ((engine .idle).DKLEN.toNat + 31) / 32 ∧ 2 ≤ (engine .idle).C.toNat := by decide +kernel

theorem witness_SmallStepsAgreeWithDerive : (engine .idle).ChecksPassed ∧ deriveAbsorbs theHash (engine .idle) = true := by
  decide +kernel

theorem witness_DeriveFrame : goesTo (exec .derive (derivation [] [] 1 1)) (fun t => decide (t.ERR = 0)) ∧
    (derivation [] [] 1 1).DKLEN.toNat ≤ 1 ∧
    goesTo (exec .derive (derivation [] [] 0 1)) (fun t => decide (t.ERR ≠ 0)) := by decide +kernel

/-- Two cores with the same operands of `DERIVE` and different context files, input spaces and engines. -/
theorem witness_DeriveIsDeterministic :
    let s := derivation passwdText saltText 1 1
    let s' := { s with ctx := slots4.ctx, T := Block.rep 0x77 32, IN1 := s.IN1 ++ [(9, 0x01)] }
    s.passwd = s'.passwd ∧ s.salt = s'.salt ∧ s.C = s'.C ∧ s.DKLEN = s'.DKLEN ∧ s.OUT.wf = true ∧ s'.OUT.wf = true ∧
    goesTo (exec .derive s) (fun t => decide (t.ERR = 0)) ∧ goesOn (exec .derive s') ∧ 0 < s.DKLEN.toNat := by
  decide +kernel

theorem witness_LengthAndPrefixConsistency : 33 ≤ 64 := by decide

theorem witness_OutputBytesAreTheHeadsOfTheBlocks :
    let s := derivation passwdText saltText 1 32
    s.OUT.wf = true ∧ s.DKLEN = 32 ∧ goesTo (exec .derive s) (fun t => decide (t.ERR = 0)) ∧ 0 < 32 ∧ 31 < 32 := by
  decide +kernel

theorem witness_OneIterationIsOnePrf : (derivation [] [] 1 32).C = 1 ∧
    match engineRun flat 2 (engineStart (derivation [] [] 1 32)) with
    | .next t => t.phase = .pCopy
    | .fault _ => False
    | .refused _ => False := ⟨by decide +kernel, rfl⟩

theorem witness_ZeroLengthIsValid :
    let s := { largest with DKLEN := 0, LEN1 := 0x1fffffffffffffff - 64 }
    s.AtBoundary ∧ s.DKLEN = 0 ∧ s.C ≠ 0 ∧ s.LEN0.toNat ≤ 2 ^ 61 - 1 ∧ s.LEN1.toNat + 64 ≤ 2 ^ 61 - 1 := by
  decide +kernel

theorem witness_PhaseSeedBuildsTheBase : (engine .pSeed).phase = .pSeed ∧ (engine .pSeed).DKLEN ≤ MAX_DKLEN ∧
    { largest with phase := .pSeed }.DKLEN ≤ MAX_DKLEN ∧ deriveAbsorbs flat (engine .pSeed) = true := by decide +kernel

theorem witness_PhaseFirstComputesU1 : (engine .pFirst).phase = .pFirst ∧
    (engine .pFirst).base = .live
      { inner := ⟨xorBytes (keyBlock flat []) (rep 0x36 64) ++ []⟩, outer := ⟨xorBytes (keyBlock flat []) (rep 0x5c 64)⟩ } ∧
    1 ≤ (engine .pFirst).i.toNat ∧ (engine .pFirst).i.toNat ≤ (engine .pFirst).blocks.toNat ∧
    absorbs flat (64 + ([] : Bytes).length + 4) = true ∧ absorbs flat 96 = true := by decide +kernel

theorem witness_PhaseIterChainsAndAccumulates :
    let s := { engine .pIter with C := 0xffffffffffffffff, j := 0xfffffffffffffffe }
    s.phase = .pIter ∧ 1 ≤ s.j.toNat ∧ s.j.toNat < s.C.toNat ∧ seedAbsorbs flat s.LEN0.toNat = true ∧
    absorbs flat 96 = true ∧ 31 < 32 := by decide +kernel

/-- A middle block, and a last block of one byte. -/
theorem witness_PhaseCopyWritesTheHeadOfT :
    let s := { engine .pCopy with DKLEN := 33, blocks := 2, j := 2 }
    (s.phase = .pCopy ∧ s.DKLEN ≤ MAX_DKLEN ∧ s.blocks.toNat = (s.DKLEN.toNat + 31) / 32 ∧ 1 ≤ s.i.toNat ∧
      s.i.toNat ≤ s.blocks.toNat ∧ s.j = s.C ∧ s.OUT.wf = true) ∧
    1 ≤ { s with i := 2 }.i.toNat ∧ { s with i := 2 }.i.toNat ≤ s.blocks.toNat := by decide +kernel

theorem witness_PhaseClearClearsTheEngine : (engine .pClear).phase = .pClear ∧ (engine .pClear).BuffersCleared ∧
    goesOn (engineStep flat (engine .pClear)) := by decide +kernel

theorem witness_EngineArithmeticDoesNotWrap : MAX_DKLEN ≤ MAX_DKLEN ∧ (1 : U64) ≤ 0xffffffff ∧
    (0xffffffff : U64) ≤ blocksOf MAX_DKLEN ∧ (1 : U64) ≤ blocksOf 1 ∧
    (0xfffffffffffffffe : U64) < 0xffffffffffffffff ∧
    MAX_DKLEN < { largest with DKLEN := 137438953441 }.DKLEN := by decide +kernel

theorem witness_FaultChangesOnlyErrAndErrinfo : goesTo (runWord 0x0000 slots4) (fun t => decide (t.ERR ≠ 0)) ∧
    goesOn (engineStep flat (engine .pIter)) ∧ (engine .pClear).phase ≠ .idle ∧ goesOn (step (engine .pClear)) := by
  decide +kernel

/-- Each of the six outcomes is some command's. -/
theorem witness_OutcomesOfACommand :
    goesTo (runWord 0x0130 slots4) (fun t => decide (t.ERR = 0)) ∧
    goesTo (runWord 0x1000 { largest with DKLEN := 137438953441 }) (fun t => decide (t.ERR = 1)) ∧
    goesTo (runWord 0x1000 { largest with C := 0 }) (fun t => decide (t.ERR = 2)) ∧
    goesTo (runWord 0xFFFF slots4) (fun t => decide (t.ERR = 3)) ∧
    goesTo (runWord 0x0240 slots4) (fun t => decide (t.ERR = 4)) ∧
    goesTo (runWord 0x0320 slots4) (fun t => decide (t.ERR = 5)) := by decide +kernel

theorem witness_DeriveRejectsExactly : 137438953440 < { largest with DKLEN := 137438953441 }.DKLEN.toNat ∧
    largest.DKLEN.toNat ≤ 137438953440 ∧ { largest with C := 0 }.C = 0 ∧ goesOn (exec .derive { largest with C := 0 }) ∧
    largest.C ≠ 0 ∧ deriveAbsorbs theHash largest = true := by
  decide +kernel

theorem witness_ContextIndexRaisedPastTheFile : slots4.nctx ≤ 4 ∧ (3 < slots4.nctx ∧ slots4.nctx ≤ 4) ∧
    (State.resetWith 16).nctx = 16 ∧ goesOn (runWord 0x01F0 (State.resetWith 16)) := by decide +kernel

theorem witness_ExceptionPriority : ((decode 0x1001).instr? = none ∧ goesOn (runWord 0x1001 slots4)) ∧
    (slots4.nctx ≤ 4 ∧ slots4.nctx ≤ 15 ∧ goesOn (exec (.hclone 4 15) slots4)) ∧
    (1 < slots4.nctx ∧ (slots4.slot 1).st ≠ .live ∧ goesOn (exec (.hclone 4 1) slots4)) ∧
    (3 < slots4.nctx ∧ goesOn (exec (.hclone 3 1) slots4)) ∧
    (MAX_DKLEN < { largest with DKLEN := 137438953441 }.DKLEN ∧
      goesOn (exec .derive { largest with DKLEN := 137438953441, C := 0 })) := by decide +kernel

/-- At the limit of R100 and one byte past it. -/
theorem witness_RefusesExactlyPastMaxAbsorb :
    goesOn (exec (.hupdate 3) { slots4 with LEN0 := 0x1fffffffffffffff - 64 }) ∧
    ¬ goesOn (exec (.hupdate 3) { slots4 with LEN0 := 0x1fffffffffffffff - 63 }) ∧
    ¬ goesOn (exec (.hseed 3) { slots4 with LEN0 := 0x2000000000000000 }) ∧
    ¬ goesOn (exec .derive { largest with LEN1 := 0x1fffffffffffffff }) := by decide +kernel

theorem witness_MemoryPrimitives : 2 < 3 ∧ (engine .pCopy).OUT.wf = true ∧
    30 + ([0x01, 0x02] : Bytes).length ≤ (engine .pCopy).DKLEN.toNat ∧ 1 < ([0x01, 0x02] : Bytes).length := by
  decide +kernel

theorem witness_CoreWritesOnlyWhatR35Allows : goesOn (exec (.hseed 0) slots4) ∧ goesOn (exec (.hupdate 0) slots4) ∧
    goesOn (exec (.hfinal 0) slots4) ∧ goesOn (exec (.hclone 1 0) slots4) ∧ goesOn (exec .derive slots4) ∧
    Instr.hseed 0 ≠ .derive := by decide +kernel

/-- An `HFINAL` that completes, and a reset. -/
theorem witness_DigestRegisterRule : goesTo (exec (.hfinal 0) slots4) (fun t => decide (t.ERR = 0)) ∧ goesTo (step (presented 0x0300)) (fun t => t.DIGV) ∧
    goesOn (step (moved .reset)) ∧
    goesOn (step (moved (.presentThenReset 0x0300 0))) := by decide +kernel

/-- Two cores that differ in a hash state only. -/
theorem witness_HostSeesNoHashState :
    let s' := { slots4 with ctx := [.live bare, .empty, .spent, .live keyed] }
    slots4.hostView = s'.hostView ∧ slots4.slotStatuses = s'.slotStatuses ∧ slots4 ≠ s' ∧
    goesOn (exec (.hclone 1 0) slots4) ∧ goesOn (exec (.hclone 1 0) s') := by decide +kernel

theorem witness_ResetValues : (moved .reset).phase = .idle ∧ (moved .reset).moves = [HostMove.reset] := by decide

theorem witness_ResetDuringDerive :
    let s := { engine .idle with moves := [.presentThenReset 0x1000 4, .reset] }
    s.phase = .idle ∧ s.moves = .presentThenReset 0x1000 4 :: [.reset] ∧ decode 0x1000 = .instr .derive ∧
    s.ChecksPassed ∧ deriveAbsorbs theHash s = true := by decide +kernel

/-- A command that completes, one that raises, a `DERIVE` that raises, and one past the limit of R100. -/
theorem witness_ResetFollowsAnAtomicCommand :
    let m (w : CmdWord) : State := { slots4 with moves := [.presentThenReset w 3] }
    let long : State := { m 0x0230 with LEN0 := 0x1fffffffffffffff - 63 }
    ((m 0x0300).phase = .idle ∧ (m 0x0300).moves = .presentThenReset 0x0300 3 :: [] ∧
      decode 0x0300 ≠ .instr .derive ∧ goesOn (runWord 0x0300 { m 0x0300 with moves := [] })) ∧
    goesOn (runWord 0x0310 { m 0x0310 with moves := [] }) ∧
    (¬ (m 0x1000).ChecksPassed ∧ goesOn (runWord 0x1000 { m 0x1000 with moves := [] })) ∧
    (long.phase = .idle ∧ decode 0x0230 ≠ .instr .derive ∧ ¬ goesOn (runWord 0x0230 { long with moves := [] })) := by
  decide +kernel

/-- R100, D1: an `HUPDATE` one byte past the limit is refused, a reset presented with it or not. -/
theorem test_reset_after_a_refused_command :
    let s : State := { slots4 with LEN0 := 0x1fffffffffffffff - 63 }
    step { s with moves := [.presentThenReset 0x0230 0] } = .refused .absorbLimit ∧
    step { s with moves := [.present 0x0230] } = .refused .absorbLimit := by
  exact ⟨rfl, rfl⟩

theorem witness_CommandBoundaryInvariant : slots4.AtBoundary ∧ goesOn (runWord 0x0300 slots4) ∧
    goesOn (runWord 0x0320 slots4) := by decide +kernel

/-- The invariant holds of a state in each phase, and a step goes on from each, with `flat` too. -/
theorem witness_EveryStepKeepsInv :
    (State.Inv (presented 0x0300) ∧ State.Inv (engine .pSeed) ∧ State.Inv (engine .pFirst) ∧ State.Inv (engine .pIter) ∧
      State.Inv { engine .pCopy with j := 2 } ∧ State.Inv (engine .pClear)) ∧
    (goesOn (step (presented 0x0300)) ∧ goesOn (step (engine .pSeed)) ∧ goesOn (step (engine .pFirst)) ∧
      goesOn (step (engine .pIter)) ∧ goesOn (step { engine .pCopy with j := 2 }) ∧ goesOn (step (engine .pClear)) ∧
      goesOn (stepWith flat (presented 0x0300)) ∧ goesOn (stepWith flat (engine .pFirst))) := by
  refine ⟨⟨⟨?_, ?_, ?_, ?_⟩, ⟨?_, ?_, ?_, ?_⟩, ⟨?_, ?_, ?_, ?_⟩, ⟨?_, ?_, ?_, ?_⟩, ⟨?_, ?_, ?_, ?_⟩, ⟨?_, ?_, ?_, ?_⟩⟩, ?_⟩ <;>
    first
      | (show State.AtBoundary _; decide +kernel)
      | (show State.ChecksPassed _ ∧ State.InBlock _ ∧ _ ∧ _; decide +kernel)
      | (show State.ChecksPassed _ ∧ State.InBlock _ ∧ _; decide +kernel)
      | (show State.ChecksPassed _ ∧ State.InBlock _; decide +kernel)
      | (show State.ChecksPassed _; decide +kernel)
      | decide +kernel

/-- The one fault that a state under the invariant can meet: the host's own offset. -/
theorem witness_NoEngineFaultUnderInv :
    State.Inv (moved (.write .out 0xffffffffffffffff [0x01, 0x02])) ∧
    step (moved (.write .out 0xffffffffffffffff [0x01, 0x02])) = .fault .hostOffset ∧
    stepWith flat (moved (.write .out 0xffffffffffffffff [0x01, 0x02])) = .fault .hostOffset := by
  refine ⟨⟨by decide, by decide, by decide +kernel, ?_⟩, rfl, rfl⟩
  show State.AtBoundary _
  decide +kernel

theorem witness_Sha256PaddingIsLeast :
    (0 + 1 + 55) % 64 = 56 ∧ (56 + 1 + 63) % 64 = 56 ∧ 0 < 2 ^ 61 ∧ 2305843009213693951 < 2 ^ 61 := by decide

theorem witness_ConcreteSha256MeetsTheIncrementalLaw : ([foxText, [], rep 0x00 64] : List Bytes).flatten.length < 2 ^ 61 := by
  decide

theorem witness_PseudoHmacLeavesHmacInDig :
    let s := { slots4 with moves := pseudoHmac 3 keyText foxText ++ [HostMove.reset] }
    s.phase = .idle ∧ s.IN0.wf = true ∧ 3 < s.nctx ∧ 3 < 16 ∧ keyText.length ≤ 2 ^ 61 - 1 ∧
    64 + foxText.length ≤ 2 ^ 61 - 1 ∧ s.moves = pseudoHmac 3 keyText foxText ++ [HostMove.reset] := by decide +kernel

/-- A primitive that absorbs 100 bytes at most. -/
def narrow : HashPrimitive := ⟨fun _ => Z 32, some 100⟩

/-- At the limit of `narrow`. -/
theorem witness_CommandsOverEveryPrimitive :
    (3 < slots4.nctx ∧ seedAbsorbs narrow { slots4 with LEN0 := 100 }.LEN0.toNat = true) ∧
    (slots4.slot 3 = .live bare ∧ absorbs narrow (bare.inner.absorbed.length + { slots4 with LEN0 := 36 }.LEN0.toNat) = true ∧
      absorbs narrow (bare.outer.absorbed.length + 32) = true) ∧
    ((presented 0x0130).phase = .idle ∧ (presented 0x0130).moves = .present 0x0130 :: [.reset] ∧
      decode 0x0130 = .instr (.hseed 3)) ∧ (engine .pSeed).phase ≠ .idle := by decide +kernel

theorem witness_UnboundedPrimitiveNeverRefuses : flat.maxAbsorb = none ∧ State.Inv (engine .pSeed) := by
  refine ⟨rfl, by decide, by decide, by decide +kernel, ?_⟩
  show State.ChecksPassed _
  decide +kernel

/-- A core with the limit of `narrow`, at it after the step. -/
theorem witness_AbsorbedStaysWithinMaxAbsorb :
    let s := { slots4 with LEN0 := 36, moves := [.present 0x0230] }
    narrow.maxAbsorb = some 100 ∧ s.AbsorbedWithin 100 ∧ s.AbsorbedWithin (2 ^ 61 - 1) ∧ goesOn (step s) ∧
    goesTo (stepWith narrow s) (fun t => decide ((t.slot 3).st = .live ∧ t.ERR = 0)) := by
  refine ⟨rfl, ⟨?_, trivial, trivial⟩, ⟨?_, trivial, trivial⟩, by decide +kernel, by decide +kernel⟩ <;>
    simp [slots4, Ctx.AbsorbedWithin, keyed, bare, rep]

/-- R11: with another `MAX_ABSORB` the machine refuses one byte past it, and with none it goes on. -/
theorem test_max_absorb_is_a_parameter :
    stepWith narrow { slots4 with LEN0 := 37, moves := [.present 0x0230] } = .refused .absorbLimit ∧
    goesOn (stepWith flat { slots4 with LEN0 := 37, moves := [.present 0x0230] }) := by
  refine ⟨rfl, ?_⟩
  decide +kernel

/-- R9: with another `Hash` the machine puts that primitive's digest in `DIG`. -/
theorem test_hash_is_a_parameter : goesTo (stepWith flat (presented 0x0300)) (fun t =>
    decide (t.DIG = Z 32 ∧ t.DIGV = true ∧ t.ERR = 0)) = true := by decide +kernel

/-- R97: the first, the tenth and the last of the 64 constants. -/
theorem test_round_constants : Sha256.roundK.length = 64 ∧ Sha256.roundK.getD 0 0 = 0x428a2f98 ∧
    Sha256.roundK.getD 9 0 = 0x12835b01 ∧ Sha256.roundK.getD 63 0 = 0xc67178f2 := by decide

/-! ### Whole digests, last in the file because the kernel computes SHA-256 for them -/

/-- R98, check. -/
theorem test_sha256_abc : beNat (theHash.hash [0x61, 0x62, 0x63]).val
    = 0xba7816bf8f01cfea414140de5dae2223b00361a396177a9cb410ff61f20015ad := by decide +kernel

/-- 95_test_vectors.md 1.1, and R117: the slot is SPENT and cleared. -/
theorem test_hfinal_key_fox :
    goesTo (exec (.hfinal 0) { State.reset with ctx := [.live ⟨⟨keyed.inner.absorbed ++ foxText⟩, keyed.outer⟩, .empty] })
      (fun t => decide (beNat t.DIG.val = 0xf7bc83f430538424b13298e6aa6fb143ef4d59a14946175997479dbc2d1a3cd8 ∧
        t.DIGV = true ∧ t.slot 0 = .spent ∧ t.idig = Z 32)) = true := by
  decide +kernel

/-- 95_test_vectors.md 3.1: two iterations, a partial last block; the byte after it keeps the host's value. -/
theorem test_derive_two_blocks :
    goesTo (exec .derive { derivation passwdText saltText 2 40 with OUT := [(40, 0xee)] }) (fun t =>
      decide (beNat (t.OUT.readBytes 0 40)
          = 0x2d412f896e76685e30df569f0a740634e31f031f749d607d9e44210bffb91a6ab670f500c7886200 ∧
        t.OUT.read 40 = 0xee ∧ t.phase = .idle ∧ t.ERR = 0)) = true := by
  decide +kernel

end Sys2Proof.Tests
end

namespace Sys2Proof.Machine

/-! ## The limit of the hash primitive (R100)

What an answer that is a next state says of `MAX_ABSORB`, for the commands and phases that let a hash state absorb. -/

theorem absorbs_iff_of_limit {P : HashPrimitive} {n : Nat} (hP : P.maxAbsorb = some n) (m : Nat) :
    absorbs P m = true ↔ m ≤ n := by
  simp [absorbs, hP]

theorem seedAbsorbs_iff {P : HashPrimitive} {k : Nat} :
    seedAbsorbs P k = true ↔ absorbs P 64 = true ∧ (k ≤ 64 ∨ absorbs P k = true) := by
  simp only [seedAbsorbs, Bool.and_eq_true, Bool.or_eq_true, decide_eq_true_eq]

theorem hseedWith_next_absorbs {P : HashPrimitive} {cd : Nat} {s t : State} (h : hseedWith P cd s = .next t)
    (hcd : cd < s.nctx) : seedAbsorbs P s.LEN0.toNat = true := by
  by_contra hno
  simp [hseedWith, Nat.not_le.mpr hcd, hno] at h

theorem hupdateWith_next_absorbs {P : HashPrimitive} {cd : Nat} {c : LiveCtx} {s t : State}
    (h : hupdateWith P cd s = .next t) (hcd : cd < s.nctx) (hc : s.slot cd = .live c) :
    updateAbsorbs P c s.LEN0.toNat = true := by
  by_contra hno
  simp [hupdateWith, Nat.not_le.mpr hcd, hc, hno] at h

theorem phaseSeed_next_absorbs {P : HashPrimitive} {s t : State} (h : phaseSeed P s = .next t) :
    seedAbsorbs P s.LEN0.toNat = true ∧ absorbs P (64 + s.LEN1.toNat) = true := by
  simp only [phaseSeed, Bool.and_eq_true] at h
  split at h
  next hroom => exact hroom
  next => cases h

theorem phaseFirst_next_absorbs {P : HashPrimitive} {b : LiveCtx} {s t : State} (h : phaseFirst P s = .next t)
    (hb : s.base = .live b) : updateAbsorbs P b 4 = true ∧ finalAbsorbs P b = true := by
  obtain ⟨-, -, hi, -⟩ := phaseFirst_next P s t h
  simp only [phaseFirst, hb, if_pos hi, Bool.and_eq_true] at h
  split at h
  next hroom => exact hroom
  next => cases h

/-! ## The engine step, phase by phase (R142) -/

section Phase
variable (P : HashPrimitive) {s : State}

theorem engineStep_of_idle (h : s.phase = .idle) : engineStep P s = .next s := by simp only [engineStep, h]

theorem engineStep_of_pSeed (h : s.phase = .pSeed) : engineStep P s = phaseSeed P s := by simp only [engineStep, h]

theorem engineStep_of_pFirst (h : s.phase = .pFirst) : engineStep P s = phaseFirst P s := by simp only [engineStep, h]

theorem engineStep_of_pIter (h : s.phase = .pIter) : engineStep P s = phaseIter P s := by simp only [engineStep, h]

theorem engineStep_of_pCopy (h : s.phase = .pCopy) : engineStep P s = phaseCopy s := by simp only [engineStep, h]

theorem engineStep_of_pClear (h : s.phase = .pClear) : engineStep P s = .next (clearedState s) := by
  simp only [engineStep, h, phaseClear_eq]

end Phase

/-! ## What a step can do

One inversion per operation of the host and of the sequencer, for a step that answers a next state. -/

theorem hostWrite_next {sp : Space} {off : Nat} {bytes : Bytes} {s t : State}
    (h : hostWrite sp off bytes s = .next t) :
    off + bytes.length ≤ Memory.size ∧ t = s.setSpace sp ((s.space sp).writeBytes off bytes) := by
  unfold hostWrite at h
  split at h
  next hfit => cases h; exact ⟨hfit, rfl⟩
  next => cases h

theorem hostFill_next {sp : Space} {r : Param} {bytes : Bytes} {s t : State} (h : hostFill sp r bytes s = .next t) :
    bytes.length < Memory.size ∧
      t = (s.setSpace sp ((s.space sp).writeBytes 0 bytes)).setParam r (BitVec.ofNat 64 bytes.length) := by
  unfold hostFill at h
  split at h
  next hfit => cases h; exact ⟨hfit, rfl⟩
  next => cases h

theorem runWordOver_next {run : Instr → State → Answer} {w : CmdWord} {s t : State}
    (h : runWordOver run w s = .next t) :
    (∃ i, decode w = .instr i ∧ run i s = .next t) ∨
      (∃ why, decode w = .illegal why ∧ t = raised (.illegalCommand w) s) := by
  cases hd : decode w with
  | instr i => exact .inl ⟨i, rfl, runWordOver_instr run w i s hd ▸ h⟩
  | illegal why =>
    rw [runWordOver_illegal run w why s hd] at h
    cases h
    exact .inr ⟨why, rfl, rfl⟩

/-- R210, R211: whatever ran before, a reset ends the move. -/
theorem resetDuring_next {P : HashPrimitive} {run : Instr → State → Answer} {w : CmdWord} {k : Nat} {s t : State}
    (h : resetDuring P run w k s = .next t) :
    ∃ u, (engineRun P k (engineStart s) = .next u ∨ runWordOver run w s = .next u) ∧ t = u.hardReset := by
  obtain ⟨-, -, heq⟩ | ⟨-, heq⟩ := resetDuring_eq P run w k s
  · obtain ⟨u, hu, ht⟩ := thenReset_next _ _ (heq ▸ h)
    exact ⟨u, .inl hu, ht⟩
  · obtain ⟨u, hu, ht⟩ := thenReset_next _ _ (heq ▸ h)
    exact ⟨u, .inr hu, ht⟩

theorem stepOver_next {P : HashPrimitive} {run : Instr → State → Answer} {s t : State}
    (h : stepOver P run s = .next t) :
    (s.phase = .idle ∧ s.moves = [] ∧ t = s) ∨
    (∃ m rest, s.phase = .idle ∧ s.moves = m :: rest ∧ performOver P run m { s with moves := rest } = .next t) ∨
    (s.phase ≠ .idle ∧ busyStep P s = .next t) := by
  by_cases hp : s.phase = .idle
  · cases hm : s.moves with
    | nil =>
      rw [stepOver_waiting P run s hp hm] at h
      cases h
      exact .inl ⟨hp, rfl, rfl⟩
    | cons m rest => exact .inr (.inl ⟨m, rest, hp, rfl, stepOver_move P run s m rest hp hm ▸ h⟩)
  · exact .inr (.inr ⟨hp, stepOver_busy P run s hp ▸ h⟩)

/-! ## Every step keeps every hash state within `MAX_ABSORB` (R100) -/

/-- The bound speaks of the contexts only, which no host write touches. -/
theorem setSpace_absorbedWithin {n : Nat} {s : State} (hs : s.AbsorbedWithin n) (sp : Space) (m : Memory) :
    (s.setSpace sp m).AbsorbedWithin n := by
  simpa [State.AbsorbedWithin] using hs

theorem setParam_absorbedWithin {n : Nat} {s : State} (hs : s.AbsorbedWithin n) (r : Param) (v : U64) :
    (s.setParam r v).AbsorbedWithin n := by
  simpa [State.AbsorbedWithin] using hs

theorem forall_mem_set_absorbedWithin {n : Nat} {cs : List Ctx} {c : Ctx} (k : Nat)
    (hcs : ∀ x ∈ cs, x.AbsorbedWithin n) (hc : c.AbsorbedWithin n) : ∀ x ∈ cs.set k c, x.AbsorbedWithin n := by
  intro x hx
  obtain hx | rfl := List.mem_or_eq_of_mem_set hx
  · exact hcs x hx
  · exact hc

theorem slot_absorbedWithin {n : Nat} {s : State} (hs : s.AbsorbedWithin n) (k : Nat) :
    (s.slot k).AbsorbedWithin n := by
  obtain ⟨hctx, -, -⟩ := hs
  by_cases hk : k < s.ctx.length
  · simpa [State.slot, hk] using hctx _ (List.getElem_mem hk)
  · simp [State.slot, hk, Ctx.AbsorbedWithin]

theorem hardReset_absorbedWithin (n : Nat) (s : State) : s.hardReset.AbsorbedWithin n := by
  refine ⟨fun c hc => ?_, trivial, trivial⟩
  rw [hardReset_ctx] at hc
  obtain rfl := List.eq_of_mem_replicate hc
  trivial

section Limit
variable {P : HashPrimitive} {n : Nat} (hP : P.maxAbsorb = some n)
include hP

/-- R110: both pads are one block, which the limit of a core that seeds allows. -/
theorem seedCtx_absorbedWithin {k : Nat} (h : seedAbsorbs P k = true) (key : Bytes) :
    (Ctx.live (seedCtx P key)).AbsorbedWithin n := by
  have hpad : 64 ≤ n := (absorbs_iff_of_limit hP 64).mp (seedAbsorbs_iff.mp h).1
  simpa [Ctx.AbsorbedWithin] using hpad

/-- R111: an update lengthens the inner state, whose new length is the one the limit was asked for. -/
theorem hmacUpdate_absorbedWithin {c : LiveCtx} (hc : (Ctx.live c).AbsorbedWithin n) {data : Bytes}
    (h : absorbs P (c.inner.absorbed.length + data.length) = true) :
    (Ctx.live (hmacUpdate c data)).AbsorbedWithin n := by
  have hlen := (absorbs_iff_of_limit hP _).mp h
  exact ⟨by simpa using hlen, hc.2⟩

theorem engineStep_keeps_absorbedWithin {s t : State} (hs : s.AbsorbedWithin n) (h : engineStep P s = .next t) :
    t.AbsorbedWithin n := by
  obtain ⟨hctx, hbase, hwork⟩ := hs
  cases hp : s.phase with
  | idle =>
    rw [engineStep_of_idle P hp] at h
    cases h
    exact ⟨hctx, hbase, hwork⟩
  | pSeed =>
    rw [engineStep_of_pSeed P hp] at h
    obtain ⟨hseed, hsalt⟩ := phaseSeed_next_absorbs h
    rw [phaseSeed_next P s t h]
    exact ⟨hctx, hmacUpdate_absorbedWithin hP (seedCtx_absorbedWithin hP hseed _) (by simpa using hsalt), hwork⟩
  | pFirst =>
    rw [engineStep_of_pFirst P hp] at h
    obtain ⟨b, -, -, rfl⟩ := phaseFirst_next P s t h
    exact ⟨hctx, hbase, trivial⟩
  | pIter =>
    rw [engineStep_of_pIter P hp] at h
    obtain ⟨-, rfl⟩ := phaseIter_next P s t h
    exact ⟨hctx, hbase, trivial⟩
  | pCopy =>
    rw [engineStep_of_pCopy P hp] at h
    obtain ⟨-, -, rfl⟩ := phaseCopy_next s t h
    exact ⟨hctx, hbase, hwork⟩
  | pClear =>
    rw [engineStep_of_pClear P hp] at h
    cases h
    exact ⟨hctx, trivial, trivial⟩

theorem execWith_keeps_absorbedWithin {i : Instr} {s t : State} (hs : s.AbsorbedWithin n)
    (h : execWith P i s = .next t) : t.AbsorbedWithin n := by
  cases i with
  | hseed cd =>
    obtain ⟨-, rfl⟩ | ⟨hcd, rfl⟩ := hseedWith_next P cd s t h
    · exact hs
    · have hseed := hseedWith_next_absorbs h hcd
      exact ⟨forall_mem_set_absorbedWithin cd hs.1 (seedCtx_absorbedWithin hP hseed _), hs.2⟩
  | hupdate cd =>
    obtain ⟨-, rfl⟩ | ⟨-, -, rfl⟩ | ⟨hcd, c, hc, rfl⟩ := hupdateWith_next P cd s t h
    · exact hs
    · exact hs
    · have hroom : absorbs P (c.inner.absorbed.length + (operand0 s).length) = true := by
        simpa [updateAbsorbs] using hupdateWith_next_absorbs h hcd hc
      have hslot := hc ▸ slot_absorbedWithin hs cd
      exact ⟨forall_mem_set_absorbedWithin cd hs.1 (hmacUpdate_absorbedWithin hP hslot hroom), hs.2⟩
  | hfinal cd =>
    obtain ⟨-, rfl⟩ | ⟨-, -, rfl⟩ | ⟨-, c, -, rfl⟩ := hfinalWith_next P cd s t h
    · exact hs
    · exact hs
    · exact ⟨forall_mem_set_absorbedWithin cd hs.1 trivial, hs.2⟩
  | hclone cd cs =>
    obtain ⟨-, rfl⟩ | ⟨-, -, rfl⟩ | ⟨-, -, -, rfl⟩ | ⟨-, -, c, hc, rfl⟩ := hcloneSlots_next cd cs s t h
    · exact hs
    · exact hs
    · exact hs
    · exact ⟨forall_mem_set_absorbedWithin cd hs.1 (hc ▸ slot_absorbedWithin hs cs), hs.2⟩
  | derive =>
    obtain ⟨e, -, rfl⟩ | ⟨-, u, hu, rfl⟩ := deriveWith_next P s t h
    · exact hs
    · exact engineRun_keeps P (State.AbsorbedWithin n) (fun _ _ _ ha hab => engineStep_keeps_absorbedWithin hP ha hab)
        _ (engineStart s) u hs hu

theorem performOver_keeps_absorbedWithin {m : HostMove} {s t : State} (hs : s.AbsorbedWithin n)
    (h : performOver P (execWith P) m s = .next t) : t.AbsorbedWithin n := by
  cases m with
  | present w =>
    obtain ⟨i, -, hi⟩ | ⟨-, -, rfl⟩ := runWordOver_next h
    · exact execWith_keeps_absorbedWithin hP hs hi
    · exact hs
  | write sp off bytes =>
    obtain ⟨-, rfl⟩ := hostWrite_next h
    exact setSpace_absorbedWithin hs _ _
  | setParam r v =>
    cases h
    exact setParam_absorbedWithin hs _ _
  | in0 bytes =>
    obtain ⟨-, rfl⟩ := hostFill_next h
    exact setParam_absorbedWithin (setSpace_absorbedWithin hs _ _) _ _
  | in1 bytes =>
    obtain ⟨-, rfl⟩ := hostFill_next h
    exact setParam_absorbedWithin (setSpace_absorbedWithin hs _ _) _ _
  | reset =>
    cases h
    exact hardReset_absorbedWithin n s
  | presentThenReset w k =>
    obtain ⟨u, -, rfl⟩ := resetDuring_next h
    exact hardReset_absorbedWithin n u

theorem stepWith_keeps_absorbedWithin {s t : State} (hs : s.AbsorbedWithin n) (h : stepWith P s = .next t) :
    t.AbsorbedWithin n := by
  obtain ⟨-, -, rfl⟩ | ⟨m, rest, -, -, hm⟩ | ⟨-, hbusy⟩ := stepOver_next h
  · exact hs
  · exact performOver_keeps_absorbedWithin hP (s := { s with moves := rest }) hs hm
  · obtain ⟨u, hu, ⟨-, rfl⟩ | ⟨-, rfl⟩⟩ := busyStep_next P s t hbusy
    · exact engineStep_keeps_absorbedWithin (t := u) hP hs hu
    · exact engineStep_keeps_absorbedWithin hP hs hu

end Limit

/-- Settles O60: each operation that lets a hash state absorb asks the limit for the length that state then has; the
clause about this core is the clause about a limited primitive, at SHA-256. -/
theorem absorbedStaysWithinMaxAbsorb : Obligations.AbsorbedStaysWithinMaxAbsorb := by
  have hall (P : HashPrimitive) (n : Nat) (s t : State) (hP : P.maxAbsorb = some n) (hs : s.AbsorbedWithin n)
      (h : stepWith P s = .next t) : t.AbsorbedWithin n := stepWith_keeps_absorbedWithin hP hs h
  exact ⟨fun s t hs h => hall theHash _ s t rfl hs (stepWith_theHash ▸ h), hall⟩

end Sys2Proof.Machine

namespace Sys2Proof.Machine

/-! ## The engine's counters in `Nat` (R143, R146)

With `DKLEN` in range none of the `u64` computations of the sequencer wraps. -/

theorem toNat_blocksOf {d : U64} (hd : d ≤ MAX_DKLEN) : (blocksOf d).toNat = (d.toNat + 31) / 32 := by
  have hle : d.toNat ≤ 137438953440 := BitVec.le_def.mp hd
  simp only [blocksOf, BitVec.toNat_udiv, BitVec.toNat_add, BitVec.reduceToNat]
  omega

theorem toNat_blocksOf_lt {d : U64} (hd : d ≤ MAX_DKLEN) : (blocksOf d).toNat < 2 ^ 32 := by
  have hle : d.toNat ≤ 137438953440 := BitVec.le_def.mp hd
  rw [toNat_blocksOf hd]
  omega

theorem toNat_blocksOf_eq_zero_iff {d : U64} (hd : d ≤ MAX_DKLEN) : (blocksOf d).toNat = 0 ↔ d = 0 := by
  simp only [toNat_blocksOf hd, ← BitVec.toNat_inj, BitVec.reduceToNat]
  omega

theorem toNat_outOffset {i : U64} (h1 : 1 ≤ i) (h2 : i.toNat < 2 ^ 32) : (outOffset i).toNat = 32 * (i.toNat - 1) := by
  have hpos : 1 ≤ i.toNat := BitVec.le_def.mp h1
  simp only [outOffset, BitVec.toNat_mul, BitVec.toNat_sub, BitVec.ofNat_eq_ofNat, BitVec.toNat_ofNat]
  omega

/-- R146: within the blocks of `DKLEN` the offset of a block lies inside the output. -/
theorem outOffset_lt_dklen {d i : U64} (hd : d ≤ MAX_DKLEN) (h1 : 1 ≤ i) (h2 : i ≤ blocksOf d) : outOffset i < d := by
  have hpos : 1 ≤ i.toNat := BitVec.le_def.mp h1
  have hle : i.toNat ≤ (blocksOf d).toNat := BitVec.le_def.mp h2
  have hlt := toNat_blocksOf_lt hd
  rw [BitVec.lt_def, toNat_outOffset h1 (by omega)]
  rw [toNat_blocksOf hd] at hle
  omega

/-- R146: the copy ends with the block or with the output, whichever comes first. -/
theorem toNat_outCount {d i : U64} (h : outOffset i < d) :
    (outCount d i).toNat = min 32 (d.toNat - (outOffset i).toNat) := by
  have hle : (outOffset i).toNat < d.toNat := BitVec.lt_def.mp h
  have hsub : (d - outOffset i).toNat = d.toNat - (outOffset i).toNat := by
    rw [BitVec.toNat_sub]
    omega
  unfold outCount
  split
  next hlt =>
    have : (d - outOffset i).toNat < 32 := BitVec.lt_def.mp hlt
    omega
  next hge =>
    have : 32 ≤ (d - outOffset i).toNat := BitVec.le_def.mp (BitVec.not_lt.mp hge)
    have h32 : (32 : U64).toNat = 32 := rfl
    omega

/-! ## The output of PBKDF2, block by block (R141) -/

@[simp] theorem length_pbkdf2Blocks (P : HashPrimitive) (passwd salt : Bytes) (c n : Nat) :
    (pbkdf2Blocks P passwd salt c n).length = 32 * n := by
  induction n with
  | zero => rfl
  | succ n ih =>
    have hT := (pbkdf2T P passwd salt (n + 1) (c - 1)).2
    simp only [pbkdf2Blocks, List.length_append, ih, hT]
    omega

@[simp] theorem length_pbkdf2 (P : HashPrimitive) (passwd salt : Bytes) (c n : Nat) :
    (pbkdf2 P passwd salt c n).length = n := by
  simp only [pbkdf2, List.length_take, length_pbkdf2Blocks]
  omega

/-- R146: what is in place once block `n + 1` is copied: the whole blocks before it, then as much of it as the output
asks for. -/
theorem take_pbkdf2Blocks_succ (P : HashPrimitive) (passwd salt : Bytes) (c n len : Nat) (h : 32 * n ≤ len) :
    (pbkdf2Blocks P passwd salt c (n + 1)).take len =
      pbkdf2Blocks P passwd salt c n ++ (pbkdf2T P passwd salt (n + 1) (c - 1)).val.take (len - 32 * n) := by
  rw [pbkdf2Blocks, List.take_append, length_pbkdf2Blocks, List.take_of_length_le (by simpa using h)]

/-! ## A whole derivation (R140 to R147, R151) -/

/-- R143 to R145: the state of a derivation that began in `s`, once the PRF has been applied `n + 1` times for block
`m + 1` and the blocks before it have been copied. -/
def prfState (P : HashPrimitive) (s : State) (m n : Nat) : State :=
  { s with
    base := .live (hmacUpdate (seedCtx P s.passwd) s.salt), work := .spent
    phase := if n + 1 < s.C.toNat then .pIter else .pCopy
    i := BitVec.ofNat 64 (m + 1), j := BitVec.ofNat 64 (n + 1), blocks := blocksOf s.DKLEN
    U := pbkdf2U P s.passwd s.salt (m + 1) n
    T := pbkdf2T P s.passwd s.salt (m + 1) n
    kbuf := Z 64, klen := 0, pad := Z 64, idig := Z 32
    OUT := s.OUT.writeBytes 0 (pbkdf2Blocks P s.passwd s.salt s.C.toNat m) }

/-- R143, R146: the state of that derivation before `P_FIRST` of block `m + 1`. What the working registers hold there is
left from before, so it is what they hold in some state `u`. -/
def blockStart (P : HashPrimitive) (s : State) (m : Nat) (u : State) : State :=
  { prfState P s m 0 with
    work := u.work, phase := .pFirst, j := u.j, U := u.U, T := u.T, idig := u.idig }

/-- R146: the state of that derivation once block `m + 1` has been copied. -/
def copiedState (P : HashPrimitive) (s : State) (m : Nat) : State := copyState (prfState P s m (s.C.toNat - 1))

/-- R140, R147: the state in which a derivation that began in `s` ends; with `DKLEN = 0` no digest has been finalized. -/
def derivedState (P : HashPrimitive) (s : State) : State :=
  { s with
    OUT := s.OUT.writeBytes 0 (pbkdf2 P s.passwd s.salt s.C.toNat s.DKLEN.toNat)
    base := .empty, work := .empty, phase := .idle, i := 0, j := 0, blocks := 0, T := Z 32, U := Z 32
    kbuf := Z 64, klen := 0, pad := Z 64, idig := if s.DKLEN = 0 then s.idig else Z 32 }

theorem copyState_of_more {u : State} (h : u.i ≠ u.blocks) :
    copyState u = { u with OUT := (copyState u).OUT, i := u.i + 1, phase := .pFirst } := by
  simp only [copyState, if_neg h]

theorem copyState_phase_of_last {u : State} (h : u.i = u.blocks) : (copyState u).phase = .pClear := if_pos h

theorem prfState_busy (P : HashPrimitive) (s : State) (m n : Nat) : (prfState P s m n).phase ≠ .idle := by
  simp only [prfState]
  split <;> simp

/-- A run goes on with the step of the state it has reached. -/
theorem engineRun_snoc {P : HashPrimitive} {n : Nat} {s u t : State} (hrun : engineRun P n s = .next u)
    (hbusy : u.phase ≠ .idle) (hstep : engineStep P u = .next t) : engineRun P (n + 1) s = .next t := by
  rw [engineRun_add P n 1 s u hrun, engineRun_succ P 0 u t hbusy hstep]
  rfl

theorem deriveCheck_eq_none_iff {s : State} : deriveCheck s = none ↔ s.ChecksPassed := by
  have hC : 1 ≤ s.C ↔ s.C ≠ 0 := by
    rw [← BitVec.toNat_inj.ne, BitVec.le_def]
    exact Nat.one_le_iff_ne_zero
  by_cases hrange : MAX_DKLEN < s.DKLEN
  · simp [deriveCheck, hrange, BitVec.not_le.mpr hrange]
  · rw [State.ChecksPassed, and_iff_right (BitVec.not_lt.mp hrange), hC]
    simp [deriveCheck, hrange]

section Derivation
variable {P : HashPrimitive} {s : State}

/-! ### What the limit of R100 grants each phase -/

theorem deriveAbsorbs_iff :
    deriveAbsorbs P s = true ↔ absorbs P (64 + s.LEN1.toNat + 4) = true ∧ absorbs P 96 = true ∧
      (s.LEN0.toNat ≤ 64 ∨ absorbs P s.LEN0.toNat = true) := by
  simp only [deriveAbsorbs, Bool.and_eq_true, Bool.or_eq_true, decide_eq_true_eq, and_assoc]

section Absorbs
variable (habs : deriveAbsorbs P s = true)
include habs

theorem deriveAbsorbs_counter : absorbs P (64 + s.LEN1.toNat + 4) = true := (deriveAbsorbs_iff.mp habs).1

theorem deriveAbsorbs_prf : absorbs P 96 = true := by
  obtain ⟨-, hprf, -⟩ := deriveAbsorbs_iff.mp habs
  exact hprf

theorem deriveAbsorbs_salt : absorbs P (64 + s.LEN1.toNat) = true :=
  absorbs_mono P _ _ (deriveAbsorbs_counter habs) (by omega)

theorem deriveAbsorbs_seed : seedAbsorbs P s.LEN0.toNat = true := by
  obtain ⟨-, hprf, hkey⟩ := deriveAbsorbs_iff.mp habs
  exact seedAbsorbs_iff.mpr ⟨absorbs_mono P 64 96 hprf (by omega), hkey⟩

theorem deriveAbsorbs_update : updateAbsorbs P (hmacUpdate (seedCtx P s.passwd) s.salt) 4 = true := by
  have hlen : s.salt.length = s.LEN1.toNat := length_operand1 s
  simpa [updateAbsorbs, hlen] using deriveAbsorbs_counter habs

theorem deriveAbsorbs_final : finalAbsorbs P (hmacUpdate (seedCtx P s.passwd) s.salt) = true := by
  simpa [finalAbsorbs] using deriveAbsorbs_prf habs

end Absorbs

/-! ### The phases, from one named state to the next -/

theorem seededState_eq_blockStart (h0 : 0 < (blocksOf s.DKLEN).toNat) :
    seededState P (engineStart s) = blockStart P s 0 s := by
  have hone : 1 ≤ blocksOf (engineStart s).DKLEN := BitVec.le_def.mpr h0
  simp only [seededState, if_pos hone]
  rfl

section Phases
variable (hchk : s.ChecksPassed) (habs : deriveAbsorbs P s = true)

include habs in
theorem engineStep_engineStart : engineStep P (engineStart s) = .next (seededState P (engineStart s)) :=
  phaseSeed_eq P (engineStart s) (deriveAbsorbs_seed habs) (deriveAbsorbs_salt habs)

include hchk

theorem ofNat_mem_blocks {m : Nat} (hm : m < (blocksOf s.DKLEN).toNat) :
    1 ≤ BitVec.ofNat 64 (m + 1) ∧ BitVec.ofNat 64 (m + 1) ≤ blocksOf s.DKLEN := by
  have hlt := toNat_blocksOf_lt hchk.1
  simp only [BitVec.le_def, BitVec.ofNat_eq_ofNat, BitVec.toNat_ofNat]
  omega

theorem outOffset_ofNat {m : Nat} (hm : m < (blocksOf s.DKLEN).toNat) :
    (outOffset (BitVec.ofNat 64 (m + 1))).toNat = 32 * m := by
  have hlt := toNat_blocksOf_lt hchk.1
  have hi : (BitVec.ofNat 64 (m + 1)).toNat = m + 1 := by
    rw [BitVec.toNat_ofNat]
    omega
  rw [toNat_outOffset (ofNat_mem_blocks hchk hm).1 (by omega), hi]
  rfl

/-- R146: the bytes in place after the copy of block `m + 1`. -/
theorem copiedState_OUT {m : Nat} (hm : m < (blocksOf s.DKLEN).toNat) :
    (copiedState P s m).OUT = s.OUT.writeBytes 0
      ((pbkdf2Blocks P s.passwd s.salt s.C.toNat (m + 1)).take s.DKLEN.toNat) := by
  obtain ⟨h1, h2⟩ := ofNat_mem_blocks hchk hm
  have hoff := outOffset_ofNat hchk hm
  have hlt := outOffset_lt_dklen hchk.1 h1 h2
  have hcount := toNat_outCount hlt
  have hroom : 32 * m < s.DKLEN.toNat := hoff ▸ BitVec.lt_def.mp hlt
  have htake : (pbkdf2T P s.passwd s.salt (m + 1) (s.C.toNat - 1)).val.take (min 32 (s.DKLEN.toNat - 32 * m)) =
      (pbkdf2T P s.passwd s.salt (m + 1) (s.C.toNat - 1)).val.take (s.DKLEN.toNat - 32 * m) := by
    rw [List.take_eq_take_iff, (pbkdf2T P s.passwd s.salt (m + 1) (s.C.toNat - 1)).2]
    omega
  rw [take_pbkdf2Blocks_succ _ _ _ _ _ _ hroom.le, Memory.writeBytes_append, ← htake]
  simp only [copiedState, copyState, prfState, hoff, hcount, length_pbkdf2Blocks, Nat.zero_add]

theorem copiedState_eq_blockStart {m : Nat} (hm : m + 1 < (blocksOf s.DKLEN).toNat) :
    copiedState P s m = blockStart P s (m + 1) (prfState P s m (s.C.toNat - 1)) := by
  have hlt := toNat_blocksOf_lt hchk.1
  have hblocks := toNat_blocksOf hchk.1
  have hnotlast : (prfState P s m (s.C.toNat - 1)).i ≠ (prfState P s m (s.C.toNat - 1)).blocks := by
    simp only [prfState, ← BitVec.toNat_inj.ne, BitVec.toNat_ofNat]
    omega
  have hwhole : (pbkdf2Blocks P s.passwd s.salt s.C.toNat (m + 1)).take s.DKLEN.toNat =
      pbkdf2Blocks P s.passwd s.salt s.C.toNat (m + 1) := by
    rw [List.take_of_length_le]
    rw [length_pbkdf2Blocks]
    omega
  have hout := copiedState_OUT (P := P) hchk (m := m) (by omega)
  rw [copiedState, copyState_of_more hnotlast, ← copiedState, hout, hwhole]
  simp only [blockStart, prfState, BitVec.ofNat_add]
  rfl

theorem engineStep_copy {m : Nat} (hm : m < (blocksOf s.DKLEN).toNat) :
    engineStep P (prfState P s m (s.C.toNat - 1)) = .next (copiedState P s m) := by
  have hphase : (prfState P s m (s.C.toNat - 1)).phase = .pCopy := if_neg (by omega)
  have hC : 1 ≤ s.C.toNat := BitVec.le_def.mp hchk.2
  have hj : BitVec.ofNat 64 (s.C.toNat - 1 + 1) = s.C := by
    rw [Nat.sub_add_cancel hC, BitVec.ofNat_toNat, BitVec.setWidth_eq]
  obtain ⟨h1, h2⟩ := ofNat_mem_blocks hchk hm
  rw [engineStep_of_pCopy P hphase]
  exact phaseCopy_eq _ ⟨h1, h2⟩ hj (outOffset_lt_dklen hchk.1 h1 h2)

include habs

/-- R144: `P_FIRST` overwrites every working register it finds. -/
theorem engineStep_blockStart {m : Nat} (hm : m < (blocksOf s.DKLEN).toNat) (u : State) :
    engineStep P (blockStart P s m u) = .next (prfState P s m 0) := by
  have hone : 1 < s.C ↔ 0 + 1 < s.C.toNat := BitVec.lt_def
  rw [engineStep_of_pFirst P rfl, phaseFirst_eq P _ (blockStart P s m u) rfl (ofNat_mem_blocks hchk hm)
    (deriveAbsorbs_update habs) (deriveAbsorbs_final habs)]
  simp only [firstState, blockStart, prfState, finalDigest_seedCtx, hmacUpdate_hmacUpdate, hone]
  rfl

omit hchk in
theorem engineStep_iter {m n : Nat} (hn : n + 1 < s.C.toNat) :
    engineStep P (prfState P s m n) = .next (prfState P s m (n + 1)) := by
  have hphase : (prfState P s m n).phase = .pIter := if_pos hn
  have hj : 1 ≤ (prfState P s m n).j ∧ (prfState P s m n).j < (prfState P s m n).C := by
    simp only [prfState, BitVec.lt_def, BitVec.le_def, BitVec.toNat_ofNat, BitVec.reduceToNat]
    omega
  have hnext : (prfState P s m n).j + 1 < (prfState P s m n).C ↔ n + 1 + 1 < s.C.toNat := by
    simp only [prfState, BitVec.lt_def, BitVec.toNat_add, BitVec.toNat_ofNat, BitVec.reduceToNat]
    omega
  rw [engineStep_of_pIter P hphase]
  refine (phaseIter_eq P _ hj (deriveAbsorbs_seed habs) (deriveAbsorbs_prf habs)).trans ?_
  simp only [iterState, hnext]
  simp only [prfState, BitVec.ofNat_add]
  rfl

/-! ### Runs of the engine (R151) -/

/-- R145, R146: a block takes one `P_FIRST`, the rest of its `C` applications in `P_ITER`, and one `P_COPY`. -/
theorem engineRun_blockStart_prf {m n : Nat} (hm : m < (blocksOf s.DKLEN).toNat) (hn : n < s.C.toNat) (u : State) :
    engineRun P (n + 1) (blockStart P s m u) = .next (prfState P s m n) := by
  induction n with
  | zero => exact engineRun_snoc rfl (by simp [blockStart]) (engineStep_blockStart hchk habs hm u)
  | succ n ih => exact engineRun_snoc (ih (by omega)) (prfState_busy P s m n) (engineStep_iter habs hn)

theorem engineRun_blockStart_copied {m : Nat} (hm : m < (blocksOf s.DKLEN).toNat) (u : State) :
    engineRun P (s.C.toNat + 1) (blockStart P s m u) = .next (copiedState P s m) := by
  have hC : 1 ≤ s.C.toNat := BitVec.le_def.mp hchk.2
  have hprf := engineRun_blockStart_prf hchk habs hm (n := s.C.toNat - 1) (by omega) u
  rw [Nat.sub_add_cancel hC] at hprf
  exact engineRun_snoc hprf (prfState_busy P s m _) (engineStep_copy hchk hm)

theorem engineRun_engineStart_blockStart {m : Nat} (hm : m < (blocksOf s.DKLEN).toNat) :
    ∃ u, engineRun P (1 + m * (s.C.toNat + 1)) (engineStart s) = .next (blockStart P s m u) := by
  induction m with
  | zero =>
    refine ⟨s, ?_⟩
    rw [Nat.zero_mul, ← seededState_eq_blockStart hm]
    exact engineRun_snoc rfl (by simp) (engineStep_engineStart habs)
  | succ m ih =>
    obtain ⟨u, hu⟩ := ih (by omega)
    refine ⟨prfState P s m (s.C.toNat - 1), ?_⟩
    rw [Nat.succ_mul, ← Nat.add_assoc, engineRun_add P _ _ _ _ hu, engineRun_blockStart_copied hchk habs (by omega),
      copiedState_eq_blockStart hchk hm]

theorem engineRun_engineStart_copied {m : Nat} (hm : m < (blocksOf s.DKLEN).toNat) :
    engineRun P (1 + (m + 1) * (s.C.toNat + 1)) (engineStart s) = .next (copiedState P s m) := by
  obtain ⟨u, hu⟩ := engineRun_engineStart_blockStart hchk habs hm
  rw [Nat.succ_mul, ← Nat.add_assoc, engineRun_add P _ _ _ _ hu, engineRun_blockStart_copied hchk habs hm]

/-- R151: after the last block, or after `P_SEED` where there is none, the engine stands before `P_CLEAR`. -/
theorem engineRun_engineStart_pClear :
    ∃ u, engineRun P (1 + (blocksOf s.DKLEN).toNat * (s.C.toNat + 1)) (engineStart s) = .next u ∧
      u.phase = .pClear ∧ clearedState u = derivedState P s := by
  cases hB : (blocksOf s.DKLEN).toNat with
  | zero =>
    have hd : s.DKLEN = 0 := (toNat_blocksOf_eq_zero_iff hchk.1).mp hB
    have hnil : pbkdf2 P s.passwd s.salt s.C.toNat s.DKLEN.toNat = [] := List.length_eq_zero_iff.mp (by simp [hd])
    have hnone : ¬1 ≤ blocksOf (engineStart s).DKLEN := fun h => absurd (BitVec.le_def.mp h) (by simp [hB])
    rw [Nat.zero_mul]
    refine ⟨seededState P (engineStart s), engineRun_snoc rfl (by simp) (engineStep_engineStart habs), if_neg hnone, ?_⟩
    rw [derivedState, hnil, if_pos hd]
    rfl
  | succ m =>
    have hm : m < (blocksOf s.DKLEN).toNat := by omega
    have hlast : BitVec.ofNat 64 (m + 1) = blocksOf s.DKLEN := by rw [← hB, BitVec.ofNat_toNat, BitVec.setWidth_eq]
    refine ⟨copiedState P s m, engineRun_engineStart_copied hchk habs hm, copyState_phase_of_last hlast, ?_⟩
    have hd : s.DKLEN ≠ 0 := fun hd => by simp [(toNat_blocksOf_eq_zero_iff hchk.1).mpr hd] at hB
    have hout := copiedState_OUT (P := P) hchk hm
    rw [clearedState, hout, ← hB, toNat_blocksOf hchk.1, ← pbkdf2, derivedState, if_neg hd]
    rfl

theorem engineRun_engineSteps : engineRun P (engineSteps s) (engineStart s) = .next (derivedState P s) := by
  obtain ⟨u, hu, hphase, hcleared⟩ := engineRun_engineStart_pClear hchk habs
  have hstep : engineStep P u = .next (derivedState P s) := by
    rw [engineStep_of_pClear P hphase, hcleared]
  rw [engineSteps, Nat.add_right_comm 1 1]
  exact engineRun_snoc hu (by simp [hphase]) hstep

/-- R140: where its checks pass and the primitive's limit allows it, `DERIVE` completes in the derived state. -/
theorem deriveWith_completes : deriveWith P s = .next { derivedState P s with ERR := 0, ERRINFO := 0 } := by
  simp only [deriveWith, deriveCheck_eq_none_iff.mpr hchk, engineRun_engineSteps hchk habs]
  rfl

end Phases

end Derivation

/-- Settles O22: the engine's run is followed block by block to `P_CLEAR`, from any contents of its registers. -/
theorem deriveComputesPbkdf2ForEveryPrimitive : Obligations.DeriveComputesPbkdf2ForEveryPrimitive :=
  fun _ _ hchk habs => deriveWith_completes hchk habs

/-! ## What a `DERIVE` that answers a next state has done -/

/-- R180: no exception has the code of completion. -/
theorem code_ne_zero (e : Exc) : e.code ≠ 0 := by
  cases e <;> simp [Exc.code]

section Answered
variable {P : HashPrimitive} {s t : State}

theorem deriveWith_next_ERR (h : deriveWith P s = .next t) :
    t.ERR = ((deriveCheck s).map Exc.code).getD 0 := by
  obtain ⟨e, he, rfl⟩ | ⟨hnone, u, -, rfl⟩ := deriveWith_next P s t h
  · rw [he]
    rfl
  · rw [hnone]
    rfl

/-- A run that answers a next state has taken its first step. -/
theorem engineRun_succ_next {n : Nat} (hbusy : s.phase ≠ .idle) (h : engineRun P (n + 1) s = .next t) :
    ∃ u, engineStep P s = .next u ∧ engineRun P n u = .next t := by
  simp only [engineRun, if_neg hbusy] at h
  cases hstep : engineStep P s with
  | next u => exact ⟨u, rfl, by simpa [hstep] using h⟩
  | fault r => simp [hstep] at h
  | refused r => simp [hstep] at h

/-- R100: where there is a block to compute, `P_SEED` and the first `P_FIRST` have asked the limit for every length that
the derivation needs. -/
theorem deriveAbsorbs_of_engineRun {n : Nat} (hchk : s.ChecksPassed) (hd : s.DKLEN ≠ 0)
    (h : engineRun P (2 + n) (engineStart s) = .next t) : deriveAbsorbs P s = true := by
  rw [Nat.add_comm] at h
  obtain ⟨u, hseed, hrest⟩ := engineRun_succ_next (by simp) h
  obtain ⟨-, hkey⟩ := seedAbsorbs_iff.mp (phaseSeed_next_absorbs hseed).1
  have hblock : 0 < (blocksOf s.DKLEN).toNat :=
    Nat.pos_of_ne_zero fun h0 => hd ((toNat_blocksOf_eq_zero_iff hchk.1).mp h0)
  obtain rfl : u = blockStart P s 0 s := (phaseSeed_next P _ u hseed).trans (seededState_eq_blockStart hblock)
  obtain ⟨v, hfirst, -⟩ := engineRun_succ_next (by simp [blockStart]) hrest
  obtain ⟨hcounter, hprf⟩ := phaseFirst_next_absorbs (P := P) (s := blockStart P s 0 s) hfirst rfl
  have hlen : s.salt.length = s.LEN1.toNat := length_operand1 s
  exact deriveAbsorbs_iff.mpr ⟨by simpa [updateAbsorbs, hlen] using hcounter, by simpa [finalAbsorbs] using hprf, hkey⟩

/-- R141, R146: the bytes a completed `DERIVE` leaves in a canonical `OUT`. -/
theorem deriveWith_next_read (hwf : s.OUT.wf = true) (h : deriveWith P s = .next t) (h0 : t.ERR = 0) {q : Nat}
    (hq : q < s.DKLEN.toNat) :
    t.OUT.read q = (pbkdf2 P s.passwd s.salt s.C.toNat s.DKLEN.toNat).getD q 0 := by
  obtain ⟨e, -, rfl⟩ | ⟨hnone, u, hu, -⟩ := deriveWith_next P s t h
  · exact absurd h0 (code_ne_zero e)
  · have hchk := deriveCheck_eq_none_iff.mp hnone
    have hd : s.DKLEN ≠ 0 := fun hd => by simp [hd] at hq
    have habs := deriveAbsorbs_of_engineRun hchk hd hu
    rw [deriveWith_completes hchk habs] at h
    cases h
    have hq' : q < (pbkdf2 P s.passwd s.salt s.C.toNat s.DKLEN.toNat).length := by simpa using hq
    have hfits : 0 + (pbkdf2 P s.passwd s.salt s.C.toNat s.DKLEN.toNat).length ≤ Memory.size := by
      rw [Nat.zero_add, length_pbkdf2]
      exact s.DKLEN.isLt.le
    have hread := Memory.read_writeBytes_inside _ s.OUT 0 q hwf hfits hq'
    rw [Nat.zero_add] at hread
    rw [List.getD_eq_getElem _ _ hq']
    exact hread

end Answered

/-- Settles O26: the outcome code depends on the two checks only, and each byte written is a byte of PBKDF2 of the
operands. -/
theorem deriveIsDeterministic : Obligations.DeriveIsDeterministic := by
  intro s s' t t' hpasswd hsalt hC hDKLEN hwf hwf' h h'
  have hcheck : deriveCheck s = deriveCheck s' := by simp only [deriveCheck, hC, hDKLEN]
  have hERR : t.ERR = t'.ERR := by rw [deriveWith_next_ERR h, deriveWith_next_ERR h', hcheck]
  refine ⟨hERR, fun h0 q hq => ?_⟩
  rw [deriveWith_next_read hwf h h0 hq, deriveWith_next_read hwf' h' (hERR ▸ h0) (hDKLEN ▸ hq), hpasswd, hsalt, hC,
    hDKLEN]

/-! ## The commands over any primitive (R9, R11) -/

/-- Settles O58: each clause is what the command answers where it completes, or how a step unfolds. -/
theorem commandsOverEveryPrimitive : Obligations.CommandsOverEveryPrimitive := by
  intro P s
  refine ⟨fun cd => hseedWith_completes P cd s, fun cd c => hupdateWith_completes P cd c s,
    fun cd c => hfinalWith_completes P cd c s, fun _ _ => rfl, rfl, fun w i rest hp hm hw => ?_,
    stepOver_busy P (execWith P) s, fun i => congrFun (congrFun execWith_theHash i) s, congrFun stepWith_theHash s⟩
  calc stepWith P s = runWordWith P w { s with moves := rest } := stepOver_move P (execWith P) s _ rest hp hm
    _ = execWith P i { s with moves := rest } := runWordOver_instr (execWith P) w i _ hw

end Sys2Proof.Machine

namespace Sys2Proof.Machine

/-! ## With `MAX_ABSORB` unbounded nothing is refused (R11, R90, R100) -/

/-! ### Where a command raises -/

theorem hseedWith_raises_index (P : HashPrimitive) {cd : Nat} {s : State} (h : s.nctx ≤ cd) :
    hseedWith P cd s = .next (raised (.contextIndex cd) s) := if_pos h

theorem hupdateWith_raises_index (P : HashPrimitive) {cd : Nat} {s : State} (h : s.nctx ≤ cd) :
    hupdateWith P cd s = .next (raised (.contextIndex cd) s) := if_pos h

theorem hfinalWith_raises_index (P : HashPrimitive) {cd : Nat} {s : State} (h : s.nctx ≤ cd) :
    hfinalWith P cd s = .next (raised (.contextIndex cd) s) := if_pos h

theorem hcloneSlots_raises_index {cd cs : Nat} {s : State} (h : s.nctx ≤ cd) :
    hcloneSlots cd cs s = .next (raised (.contextIndex cd) s) := if_pos h

theorem hcloneSlots_raises_sourceIndex {cd cs : Nat} {s : State} (hd : cd < s.nctx) (hs : s.nctx ≤ cs) :
    hcloneSlots cd cs s = .next (raised (.contextIndex cs) s) := by
  rw [hcloneSlots, if_neg (Nat.not_le.mpr hd), if_pos hs, raise_eq_raised]

theorem hupdateWith_raises_state (P : HashPrimitive) {cd : Nat} {s : State} (h : cd < s.nctx)
    (hst : (s.slot cd).st ≠ .live) : hupdateWith P cd s = .next (raised (.contextState cd (s.slot cd).st) s) := by
  cases hc : s.slot cd with
  | live c => exact absurd (congrArg Ctx.st hc) hst
  | empty => simp only [hupdateWith, if_neg (Nat.not_le.mpr h), hc, raise_eq_raised, Ctx.st]
  | spent => simp only [hupdateWith, if_neg (Nat.not_le.mpr h), hc, raise_eq_raised, Ctx.st]

theorem hfinalWith_raises_state (P : HashPrimitive) {cd : Nat} {s : State} (h : cd < s.nctx)
    (hst : (s.slot cd).st ≠ .live) : hfinalWith P cd s = .next (raised (.contextState cd (s.slot cd).st) s) := by
  cases hc : s.slot cd with
  | live c => exact absurd (congrArg Ctx.st hc) hst
  | empty => simp only [hfinalWith, if_neg (Nat.not_le.mpr h), hc, raise_eq_raised, Ctx.st]
  | spent => simp only [hfinalWith, if_neg (Nat.not_le.mpr h), hc, raise_eq_raised, Ctx.st]

theorem hcloneSlots_raises_state {cd cs : Nat} {s : State} (hd : cd < s.nctx) (hs : cs < s.nctx)
    (hst : (s.slot cs).st ≠ .live) : hcloneSlots cd cs s = .next (raised (.contextState cs (s.slot cs).st) s) := by
  cases hc : s.slot cs with
  | live c => exact absurd (congrArg Ctx.st hc) hst
  | empty => simp only [hcloneSlots, if_neg (Nat.not_le.mpr hd), if_neg (Nat.not_le.mpr hs), hc, raise_eq_raised, Ctx.st]
  | spent => simp only [hcloneSlots, if_neg (Nat.not_le.mpr hd), if_neg (Nat.not_le.mpr hs), hc, raise_eq_raised, Ctx.st]

theorem deriveWith_raises (P : HashPrimitive) {s : State} {e : Exc} (h : deriveCheck s = some e) :
    deriveWith P s = .next (raised e s) := by
  simp only [deriveWith, h, raise_eq_raised]

theorem exists_live_of_st {c : Ctx} (h : c.st = .live) : ∃ l, c = .live l := by
  cases c with
  | live l => exact ⟨l, rfl⟩
  | empty => cases h
  | spent => cases h

/-! ### What an operation can answer, whatever the primitive -/

theorem hostWrite_answers (sp : Space) (off : Nat) (bytes : Bytes) (s : State) :
    (∃ t, hostWrite sp off bytes s = .next t) ∨ hostWrite sp off bytes s = .fault .hostOffset := by
  unfold hostWrite
  split
  · exact .inl ⟨_, rfl⟩
  · exact .inr rfl

theorem hostFill_answers (sp : Space) (r : Param) (bytes : Bytes) (s : State) :
    (∃ t, hostFill sp r bytes s = .next t) ∨ hostFill sp r bytes s = .fault .hostOffset := by
  unfold hostFill
  split
  · exact .inl ⟨_, rfl⟩
  · exact .inr rfl

/-- R142 to R147: where what its phase requires holds, an engine step does not fault. -/
theorem engineStep_answers (P : HashPrimitive) {s : State} (h : s.PhaseInv) :
    (∃ t, engineStep P s = .next t) ∨ engineStep P s = .refused .absorbLimit := by
  unfold State.PhaseInv at h
  cases hp : s.phase with
  | idle => exact .inl ⟨s, engineStep_of_idle P hp⟩
  | pSeed =>
    rw [engineStep_of_pSeed P hp, phaseSeed]
    split
    · exact .inl ⟨_, rfl⟩
    · exact .inr rfl
  | pFirst =>
    simp only [hp] at h
    obtain ⟨-, hlive, -, hi⟩ := h
    obtain ⟨b, hb⟩ := exists_live_of_st hlive
    simp only [engineStep_of_pFirst P hp, phaseFirst, hb, if_pos hi]
    split
    · exact .inl ⟨_, rfl⟩
    · exact .inr rfl
  | pIter =>
    simp only [hp] at h
    obtain ⟨-, -, hj⟩ := h
    rw [engineStep_of_pIter P hp, phaseIter, if_pos hj]
    split
    · exact .inl ⟨_, rfl⟩
    · exact .inr rfl
  | pCopy =>
    simp only [hp] at h
    obtain ⟨hchk, ⟨-, hblocks, h1, h2⟩, hj⟩ := h
    rw [engineStep_of_pCopy P hp]
    exact .inl ⟨_, phaseCopy_eq s ⟨h1, h2⟩ hj (outOffset_lt_dklen hchk.1 h1 (hblocks ▸ h2))⟩
  | pClear => exact .inl ⟨_, engineStep_of_pClear P hp⟩

/-- R146: `P_COPY` lets no hash state absorb. -/
theorem phaseCopy_ne_refused (s : State) (r : Refusal) : phaseCopy s ≠ .refused r := by
  by_cases hr : (1 ≤ s.i ∧ s.i ≤ s.blocks) ∧ s.j = s.C
  · by_cases ho : outOffset s.i < s.DKLEN
    · rw [phaseCopy_eq s hr.1 hr.2 ho]
      exact nofun
    · rw [phaseCopy, if_pos hr, if_neg ho]
      exact nofun
  · rw [phaseCopy, if_neg hr]
    exact nofun

/-- A busy step stops only where the engine step in it does. -/
theorem busyStep_of_engineStep {P : HashPrimitive} {s u : State} (h : engineStep P s = .next u) :
    ∃ t, busyStep P s = .next t := by
  simp only [busyStep, h]
  split
  · exact ⟨_, rfl⟩
  · exact ⟨_, rfl⟩

theorem busyStep_refused {P : HashPrimitive} {s : State} {r : Refusal} (h : busyStep P s = .refused r) :
    engineStep P s = .refused r := by
  cases hstep : engineStep P s with
  | next u =>
    obtain ⟨t, ht⟩ := busyStep_of_engineStep hstep
    rw [ht] at h
    cases h
  | fault r' => simp [busyStep, hstep] at h
  | refused r' => simpa [busyStep, hstep] using h

/-- A run that answers a next state has answered one at each of its steps. -/
theorem engineRun_next_of_add {P : HashPrimitive} {m n : Nat} {s t : State} (h : engineRun P (m + n) s = .next t) :
    ∃ u, engineRun P m s = .next u := by
  induction m generalizing s with
  | zero => exact ⟨s, rfl⟩
  | succ m ih =>
    by_cases hp : s.phase = .idle
    · exact ⟨s, engineRun_idle P _ s hp⟩
    · rw [Nat.succ_add] at h
      obtain ⟨u, hstep, hrest⟩ := engineRun_succ_next hp h
      rw [engineRun_succ P m s u hp hstep]
      exact ih hrest

/-- A run that ends in `IDLE` answers a next state however many steps it is given. -/
theorem engineRun_answers_of_idle {P : HashPrimitive} {n : Nat} {s t : State} (h : engineRun P n s = .next t)
    (hidle : t.phase = .idle) (k : Nat) : ∃ u, engineRun P k s = .next u := by
  obtain hk | hk := Nat.le_total k n
  · exact engineRun_next_of_add (n := n - k) (by rwa [Nat.add_sub_cancel' hk])
  · rw [← Nat.add_sub_cancel' hk, engineRun_add P n (k - n) s t h]
    exact ⟨t, engineRun_idle P _ t hidle⟩

/-! ### An unbounded primitive -/

section Unbounded
variable {P : HashPrimitive} (hP : P.maxAbsorb = none)
include hP

theorem absorbs_of_unbounded (m : Nat) : absorbs P m = true := by
  simp [absorbs, hP]

theorem seedAbsorbs_of_unbounded (m : Nat) : seedAbsorbs P m = true := by
  simp only [seedAbsorbs_iff, absorbs_of_unbounded hP, or_true, and_self]

theorem deriveAbsorbs_of_unbounded (s : State) : deriveAbsorbs P s = true := by
  simp only [deriveAbsorbs_iff, absorbs_of_unbounded hP, or_true, and_self]

theorem execWith_answers_of_unbounded (i : Instr) (s : State) : ∃ t, execWith P i s = .next t := by
  cases i with
  | hseed cd =>
    obtain hcd | hcd := Nat.lt_or_ge cd s.nctx
    · exact ⟨_, hseedWith_completes P cd s hcd (seedAbsorbs_of_unbounded hP _)⟩
    · exact ⟨_, hseedWith_raises_index P hcd⟩
  | hupdate cd =>
    obtain hcd | hcd := Nat.lt_or_ge cd s.nctx
    · by_cases hst : (s.slot cd).st = .live
      · obtain ⟨c, hc⟩ := exists_live_of_st hst
        exact ⟨_, hupdateWith_completes P cd c s hcd hc (absorbs_of_unbounded hP _)⟩
      · exact ⟨_, hupdateWith_raises_state P hcd hst⟩
    · exact ⟨_, hupdateWith_raises_index P hcd⟩
  | hfinal cd =>
    obtain hcd | hcd := Nat.lt_or_ge cd s.nctx
    · by_cases hst : (s.slot cd).st = .live
      · obtain ⟨c, hc⟩ := exists_live_of_st hst
        exact ⟨_, hfinalWith_completes P cd c s hcd hc (absorbs_of_unbounded hP _)⟩
      · exact ⟨_, hfinalWith_raises_state P hcd hst⟩
    · exact ⟨_, hfinalWith_raises_index P hcd⟩
  | hclone cd cs =>
    obtain hcd | hcd := Nat.lt_or_ge cd s.nctx
    · obtain hcs | hcs := Nat.lt_or_ge cs s.nctx
      · by_cases hst : (s.slot cs).st = .live
        · obtain ⟨c, hc⟩ := exists_live_of_st hst
          exact ⟨_, hcloneSlots_completes cd cs c s hcd hcs hc⟩
        · exact ⟨_, hcloneSlots_raises_state hcd hcs hst⟩
      · exact ⟨_, hcloneSlots_raises_sourceIndex hcd hcs⟩
    · exact ⟨_, hcloneSlots_raises_index hcd⟩
  | derive =>
    cases hcheck : deriveCheck s with
    | some e => exact ⟨_, deriveWith_raises P hcheck⟩
    | none => exact ⟨_, deriveWith_completes (deriveCheck_eq_none_iff.mp hcheck) (deriveAbsorbs_of_unbounded hP s)⟩

theorem runWordOver_answers_of_unbounded (w : CmdWord) (s : State) :
    ∃ t, runWordOver (execWith P) w s = .next t := by
  cases hw : decode w with
  | instr i =>
    rw [runWordOver_instr _ w i s hw]
    exact execWith_answers_of_unbounded hP i s
  | illegal why => exact ⟨_, runWordOver_illegal _ w why s hw⟩

/-- R211: the engine of a `DERIVE` that passed its checks can be stopped after any number of steps. -/
theorem resetDuring_answers_of_unbounded (w : CmdWord) (k : Nat) (s : State) :
    ∃ t, resetDuring P (execWith P) w k s = .next t := by
  obtain ⟨-, hcheck, heq⟩ | ⟨-, heq⟩ := resetDuring_eq P (execWith P) w k s
  · have hrun := engineRun_engineSteps (deriveCheck_eq_none_iff.mp hcheck) (deriveAbsorbs_of_unbounded hP s)
    obtain ⟨u, hu⟩ := engineRun_answers_of_idle hrun rfl k
    exact ⟨u.hardReset, by rw [heq, hu]; rfl⟩
  · obtain ⟨u, hu⟩ := runWordOver_answers_of_unbounded hP w s
    exact ⟨u.hardReset, by rw [heq, hu]; rfl⟩

theorem performOver_answers_of_unbounded (m : HostMove) (s : State) :
    (∃ t, performOver P (execWith P) m s = .next t) ∨ performOver P (execWith P) m s = .fault .hostOffset := by
  cases m with
  | present w => exact .inl (runWordOver_answers_of_unbounded hP w s)
  | write sp off bytes => exact hostWrite_answers sp off.toNat bytes s
  | setParam r v => exact .inl ⟨_, rfl⟩
  | in0 bytes => exact hostFill_answers .in0 .len0 bytes s
  | in1 bytes => exact hostFill_answers .in1 .len1 bytes s
  | reset => exact .inl ⟨_, rfl⟩
  | presentThenReset w k => exact .inl (resetDuring_answers_of_unbounded hP w k s)

theorem stepWith_answers_of_unbounded {s : State} (hp : s.phase = .idle) :
    (∃ t, stepWith P s = .next t) ∨ stepWith P s = .fault .hostOffset := by
  cases hm : s.moves with
  | nil => exact .inl ⟨s, stepOver_waiting P _ s hp hm⟩
  | cons m rest =>
    rw [stepWith, stepOver_move P _ s m rest hp hm]
    exact performOver_answers_of_unbounded hP m _

theorem phaseFirst_ne_refused_of_unbounded (s : State) (r : Refusal) : phaseFirst P s ≠ .refused r := by
  cases hb : s.base with
  | live b =>
    by_cases hi : 1 ≤ s.i ∧ s.i ≤ s.blocks
    · rw [phaseFirst_eq P b s hb hi (absorbs_of_unbounded hP _) (absorbs_of_unbounded hP _)]
      exact nofun
    · simp only [phaseFirst, hb, if_neg hi]
      exact nofun
  | empty =>
    simp only [phaseFirst, hb]
    exact nofun
  | spent =>
    simp only [phaseFirst, hb]
    exact nofun

/-- From any state, what its phase requires or not: there an engine step may fault, but is not refused. -/
theorem engineStep_ne_refused_of_unbounded (s : State) (r : Refusal) : engineStep P s ≠ .refused r := by
  have habs := absorbs_of_unbounded hP
  have hseed := seedAbsorbs_of_unbounded hP
  cases hp : s.phase with
  | idle =>
    rw [engineStep_of_idle P hp]
    exact nofun
  | pSeed =>
    rw [engineStep_of_pSeed P hp, phaseSeed_eq P s (hseed _) (habs _)]
    exact nofun
  | pFirst =>
    rw [engineStep_of_pFirst P hp]
    exact phaseFirst_ne_refused_of_unbounded hP s r
  | pIter =>
    rw [engineStep_of_pIter P hp]
    by_cases hj : 1 ≤ s.j ∧ s.j < s.C
    · rw [phaseIter_eq P s hj (hseed _) (habs _)]
      exact nofun
    · rw [phaseIter, if_neg hj]
      exact nofun
  | pCopy =>
    rw [engineStep_of_pCopy P hp]
    exact phaseCopy_ne_refused s r
  | pClear =>
    rw [engineStep_of_pClear P hp]
    exact nofun

theorem stepWith_ne_refused_of_unbounded (s : State) (r : Refusal) : stepWith P s ≠ .refused r := by
  intro h
  by_cases hp : s.phase = .idle
  · obtain ⟨t, ht⟩ | ht := stepWith_answers_of_unbounded hP hp
    · rw [ht] at h
      cases h
    · rw [ht] at h
      cases h
  · rw [stepWith, stepOver_busy P _ s hp] at h
    exact engineStep_ne_refused_of_unbounded hP s r (busyStep_refused h)

theorem stepWith_answers_of_inv {s : State} (hs : s.Inv) :
    (∃ t, stepWith P s = .next t) ∨ stepWith P s = .fault .hostOffset := by
  by_cases hp : s.phase = .idle
  · exact stepWith_answers_of_unbounded hP hp
  · obtain ⟨-, -, -, hphase⟩ := hs
    obtain ⟨u, hu⟩ | hrefused := engineStep_answers P hphase
    · rw [stepWith, stepOver_busy P _ s hp]
      exact .inl (busyStep_of_engineStep hu)
    · exact absurd hrefused (engineStep_ne_refused_of_unbounded hP s _)

end Unbounded

/-- Settles O59: without a limit a command completes or raises, and an engine step is refused from no state at all. -/
theorem unboundedPrimitiveNeverRefuses : Obligations.UnboundedPrimitiveNeverRefuses :=
  fun _ hP => ⟨execWith_answers_of_unbounded hP, stepWith_ne_refused_of_unbounded hP,
    fun _ => stepWith_answers_of_inv hP⟩

end Sys2Proof.Machine

namespace Sys2Proof.Machine

/-! ## What a command does when it answers a next state

R189: it has raised what its checks say, or it has completed. The properties of commands below are split along these two
cases. -/

/-- R185: the exception for a context index past the file. -/
def indexCheck (s : State) (k : Nat) : Option Exc := if s.nctx ≤ k then some (.contextIndex k) else none

/-- R186: the exception for a context that is not LIVE. -/
def liveCheck (s : State) (k : Nat) : Option Exc :=
  if (s.slot k).st = .live then none else some (.contextState k (s.slot k).st)

/-- R180, R188: the exception a command raises, none where its checks pass. -/
def commandCheck : Instr → State → Option Exc
  | .hseed cd, s => indexCheck s cd
  | .hupdate cd, s => (indexCheck s cd).or (liveCheck s cd)
  | .hfinal cd, s => (indexCheck s cd).or (liveCheck s cd)
  | .hclone cd cs, s => ((indexCheck s cd).or (indexCheck s cs)).or (liveCheck s cs)
  | .derive, s => deriveCheck s

/-- R115 to R118, R140: the state in which a command that completes ends. -/
inductive Completes (P : HashPrimitive) (s : State) : Instr → State → Prop
  | hseed {cd : Nat} (hcd : cd < s.nctx) : Completes P s (.hseed cd) (hseedDone P cd s)
  | hupdate {cd : Nat} {c : LiveCtx} (hcd : cd < s.nctx) (hc : s.slot cd = .live c) :
      Completes P s (.hupdate cd) (hupdateDone cd c s)
  | hfinal {cd : Nat} {c : LiveCtx} (hcd : cd < s.nctx) (hc : s.slot cd = .live c) :
      Completes P s (.hfinal cd) (hfinalDone P cd c s)
  | hclone {cd cs : Nat} {c : LiveCtx} (hcd : cd < s.nctx) (hc : s.slot cs = .live c) :
      Completes P s (.hclone cd cs) (hcloneDone cd c s)
  | derive (hchk : s.ChecksPassed) : Completes P s .derive { derivedState P s with ERR := 0, ERRINFO := 0 }

theorem indexCheck_of_le {s : State} {k : Nat} (h : s.nctx ≤ k) : indexCheck s k = some (.contextIndex k) := if_pos h

theorem indexCheck_of_lt {s : State} {k : Nat} (h : k < s.nctx) : indexCheck s k = none := if_neg (Nat.not_le.mpr h)

theorem liveCheck_of_not_live {s : State} {k : Nat} (h : (s.slot k).st ≠ .live) :
    liveCheck s k = some (.contextState k (s.slot k).st) := if_neg h

theorem liveCheck_of_live {s : State} {k : Nat} {c : LiveCtx} (h : s.slot k = .live c) : liveCheck s k = none :=
  if_pos (congrArg Ctx.st h)

/-- R140, R151: the fuel of `DERIVE` takes the engine to `IDLE` wherever the primitive's limit lets it go on. With
`DKLEN = 0` the limit is asked for less than `deriveAbsorbs` says: `P_SEED` and `P_CLEAR` are the whole run. -/
theorem engineRun_engineSteps_next {P : HashPrimitive} {s u : State} (hchk : s.ChecksPassed)
    (h : engineRun P (engineSteps s) (engineStart s) = .next u) : u = derivedState P s := by
  by_cases hd : s.DKLEN = 0
  · have hsteps : engineSteps s = 0 + 1 + 1 := by
      rw [engineSteps, (toNat_blocksOf_eq_zero_iff hchk.1).mpr hd, Nat.zero_mul]
    rw [hsteps] at h
    obtain ⟨v, hseed, hrest⟩ := engineRun_succ_next (by simp) h
    obtain rfl := phaseSeed_next P _ v hseed
    have hphase : (seededState P (engineStart s)).phase = .pClear := by
      simp only [seededState, engineStart_DKLEN, hd]
      decide
    obtain ⟨w, hclear, hend⟩ := engineRun_succ_next (by simp [hphase]) hrest
    rw [engineStep_of_pClear P hphase] at hclear
    have hnil : pbkdf2 P s.passwd s.salt s.C.toNat s.DKLEN.toNat = [] := List.length_eq_zero_iff.mp (by simp [hd])
    cases hclear
    cases hend
    rw [derivedState, hnil, if_pos hd]
    rfl
  · have habs := deriveAbsorbs_of_engineRun hchk hd h
    rw [engineRun_engineSteps hchk habs] at h
    cases h
    rfl

theorem execWith_next {P : HashPrimitive} {i : Instr} {s t : State} (h : execWith P i s = .next t) :
    (∃ e, commandCheck i s = some e ∧ t = raised e s) ∨ (commandCheck i s = none ∧ Completes P s i t) := by
  cases i with
  | hseed cd =>
    obtain ⟨hcd, rfl⟩ | ⟨hcd, rfl⟩ := hseedWith_next P cd s t h
    · exact .inl ⟨_, indexCheck_of_le hcd, rfl⟩
    · exact .inr ⟨indexCheck_of_lt hcd, .hseed hcd⟩
  | hupdate cd =>
    obtain ⟨hcd, rfl⟩ | ⟨hcd, hst, rfl⟩ | ⟨hcd, c, hc, rfl⟩ := hupdateWith_next P cd s t h
    · exact .inl ⟨_, by simp [commandCheck, indexCheck_of_le hcd], rfl⟩
    · exact .inl ⟨_, by simp [commandCheck, indexCheck_of_lt hcd, liveCheck_of_not_live hst], rfl⟩
    · exact .inr ⟨by simp [commandCheck, indexCheck_of_lt hcd, liveCheck_of_live hc], .hupdate hcd hc⟩
  | hfinal cd =>
    obtain ⟨hcd, rfl⟩ | ⟨hcd, hst, rfl⟩ | ⟨hcd, c, hc, rfl⟩ := hfinalWith_next P cd s t h
    · exact .inl ⟨_, by simp [commandCheck, indexCheck_of_le hcd], rfl⟩
    · exact .inl ⟨_, by simp [commandCheck, indexCheck_of_lt hcd, liveCheck_of_not_live hst], rfl⟩
    · exact .inr ⟨by simp [commandCheck, indexCheck_of_lt hcd, liveCheck_of_live hc], .hfinal hcd hc⟩
  | hclone cd cs =>
    obtain ⟨hcd, rfl⟩ | ⟨hcd, hcs, rfl⟩ | ⟨hcd, hcs, hst, rfl⟩ | ⟨hcd, hcs, c, hc, rfl⟩ :=
      hcloneSlots_next cd cs s t h
    · exact .inl ⟨_, by simp [commandCheck, indexCheck_of_le hcd], rfl⟩
    · exact .inl ⟨_, by simp [commandCheck, indexCheck_of_lt hcd, indexCheck_of_le hcs], rfl⟩
    · have hindex := indexCheck_of_lt hcs
      exact .inl ⟨_, by simp [commandCheck, indexCheck_of_lt hcd, hindex, liveCheck_of_not_live hst], rfl⟩
    · have hindex := indexCheck_of_lt hcs
      exact .inr ⟨by simp [commandCheck, indexCheck_of_lt hcd, hindex, liveCheck_of_live hc], .hclone hcd hc⟩
  | derive =>
    obtain ⟨e, he, rfl⟩ | ⟨hnone, u, hu, rfl⟩ := deriveWith_next P s t h
    · exact .inl ⟨e, he, rfl⟩
    · have hchk := deriveCheck_eq_none_iff.mp hnone
      obtain rfl := engineRun_engineSteps_next hchk hu
      exact .inr ⟨hnone, .derive hchk⟩

theorem exec_next {i : Instr} {s t : State} (h : exec i s = .next t) :
    (∃ e, commandCheck i s = some e ∧ t = raised e s) ∨ (commandCheck i s = none ∧ Completes theHash s i t) :=
  execWith_next (execWith_theHash ▸ h)

/-! ## What a command leaves unchanged (R23, R35, R189) -/

/-- What lies outside the HMAC context unit, and the number of slots, is as before. -/
structure State.SameOutsideUnit (s t : State) : Prop where
  nctx : t.nctx = s.nctx
  engine : State.SameEngine s t
  params : State.SameParams s t
  in0 : t.IN0 = s.IN0
  in1 : t.IN1 = s.IN1
  out : t.OUT = s.OUT
  moves : t.moves = s.moves

/-- The registers of the unit, the outcome registers, and a slot at a time, are all that an HMAC command writes. -/
theorem sameOutsideUnit_update (s : State) (k : Nat) (c : Ctx) (kbuf pad : Block 64) (klen : Fin 65)
    (idig DIG : Block 32) (DIGV : Bool) (ERR : BitVec 8) (ERRINFO : U64) :
    State.SameOutsideUnit s { s with
      ctx := s.ctx.set k c, kbuf := kbuf, klen := klen, pad := pad, idig := idig, DIG := DIG, DIGV := DIGV
      ERR := ERR, ERRINFO := ERRINFO } :=
  ⟨setSlot_nctx s k c, ⟨rfl, rfl, rfl, rfl, rfl, rfl, rfl, rfl⟩, ⟨rfl, rfl, rfl, rfl⟩, rfl, rfl, rfl, rfl⟩

theorem sameOutsideUnit_raised (e : Exc) (s : State) : State.SameOutsideUnit s (raised e s) :=
  ⟨rfl, ⟨rfl, rfl, rfl, rfl, rfl, rfl, rfl, rfl⟩, ⟨rfl, rfl, rfl, rfl⟩, rfl, rfl, rfl, rfl⟩

theorem sameSlotsBut_of_ctx_set {s t : State} {k : Nat} {c : Ctx} (hk : k < s.nctx) (ht : t.ctx = s.ctx.set k c) :
    State.SameSlotsBut k s t :=
  ⟨by simp [State.nctx, ht], fun l hl => (slot_of_ctx_set s t k l c ht hk).trans (if_neg hl)⟩

section Frame
variable {P : HashPrimitive} {i : Instr} {s t : State}

theorem completes_sameOutsideUnit (h : Completes P s i t) (hi : i ≠ .derive) : State.SameOutsideUnit s t := by
  cases h with
  | hseed => exact sameOutsideUnit_update ..
  | hupdate => exact sameOutsideUnit_update ..
  | hfinal => exact sameOutsideUnit_update ..
  | hclone => exact sameOutsideUnit_update ..
  | derive => exact absurd rfl hi

variable (h : exec i s = .next t)
include h

theorem exec_sameOutsideUnit (hi : i ≠ .derive) : State.SameOutsideUnit s t := by
  obtain ⟨e, -, rfl⟩ | ⟨-, hdone⟩ := exec_next h
  · exact sameOutsideUnit_raised e s
  · exact completes_sameOutsideUnit hdone hi

/-- R33: the slot a command writes is the first it names. -/
theorem exec_sameSlotsBut {k : Nat} (hk : (slotsNamed i).head? = some k) : State.SameSlotsBut k s t := by
  obtain ⟨e, -, rfl⟩ | ⟨-, hdone⟩ := exec_next h
  · exact ⟨rfl, fun _ _ => rfl⟩
  · cases hdone with
    | hseed hcd => exact Option.some.inj hk ▸ sameSlotsBut_of_ctx_set hcd rfl
    | hupdate hcd => exact Option.some.inj hk ▸ sameSlotsBut_of_ctx_set hcd rfl
    | hfinal hcd => exact Option.some.inj hk ▸ sameSlotsBut_of_ctx_set hcd rfl
    | hclone hcd => exact Option.some.inj hk ▸ sameSlotsBut_of_ctx_set hcd rfl
    | derive => cases hk

/-- R29: the digest of a command is that of an `HFINAL` that completes. -/
theorem exec_sameDigest_or_final :
    State.SameDigest s t ∨ ∃ cd c, i = .hfinal cd ∧ s.slot cd = .live c ∧ t = hfinalDone theHash cd c s := by
  obtain ⟨e, -, rfl⟩ | ⟨-, hdone⟩ := exec_next h
  · exact .inl ⟨rfl, rfl⟩
  · cases hdone with
    | hfinal _ hc => exact .inr ⟨_, _, rfl, hc, rfl⟩
    | hseed => exact .inl ⟨rfl, rfl⟩
    | hupdate => exact .inl ⟨rfl, rfl⟩
    | hclone => exact .inl ⟨rfl, rfl⟩
    | derive => exact .inl ⟨rfl, rfl⟩

theorem exec_sameDigest (hi : ∀ cd, i ≠ .hfinal cd) : State.SameDigest s t := by
  obtain hsame | ⟨cd, -, hfinal, -, -⟩ := exec_sameDigest_or_final h
  · exact hsame
  · exact absurd hfinal (hi cd)

theorem exec_sameSeedBuffers (hseed : ∀ cd, i ≠ .hseed cd) (hderive : i ≠ .derive) :
    t.kbuf = s.kbuf ∧ t.klen = s.klen ∧ t.pad = s.pad := by
  obtain ⟨e, -, rfl⟩ | ⟨-, hdone⟩ := exec_next h
  · exact ⟨rfl, rfl, rfl⟩
  · cases hdone with
    | hseed => exact absurd rfl (hseed _)
    | hupdate => exact ⟨rfl, rfl, rfl⟩
    | hfinal => exact ⟨rfl, rfl, rfl⟩
    | hclone => exact ⟨rfl, rfl, rfl⟩
    | derive => exact absurd rfl hderive

theorem exec_sameIdig (hfinal : ∀ cd, i ≠ .hfinal cd) (hderive : i ≠ .derive) : t.idig = s.idig := by
  obtain ⟨e, -, rfl⟩ | ⟨-, hdone⟩ := exec_next h
  · rfl
  · cases hdone with
    | hseed => rfl
    | hupdate => rfl
    | hfinal => exact absurd rfl (hfinal _)
    | hclone => rfl
    | derive => exact absurd rfl hderive

end Frame

/-- R116: an update feeds the inner state only. -/
theorem exec_hupdate_outer {cd : Nat} {s t : State} (h : exec (.hupdate cd) s = .next t) :
    (t.slot cd).outer = (s.slot cd).outer := by
  obtain ⟨e, -, rfl⟩ | ⟨-, hdone⟩ := exec_next h
  · rfl
  · cases hdone with
    | hupdate hcd hc =>
      rw [slot_of_ctx_set s _ cd cd _ rfl hcd, if_pos rfl, hc]
      rfl

theorem sameInputs_of_sameOutsideUnit {s t : State} (h : State.SameOutsideUnit s t) : State.SameInputs s t :=
  fun a => ⟨congrArg (Memory.read · a) h.in0, congrArg (Memory.read · a) h.in1⟩

theorem sameOut_of_sameOutsideUnit {s t : State} (h : State.SameOutsideUnit s t) : State.SameOut s t :=
  fun a => congrArg (Memory.read · a) h.out

/-- Settles O14: each clause is put together from what a command with its name leaves alone. -/
theorem hmacCommandsFrame : Obligations.HmacCommandsFrame := by
  intro s t cd cs
  refine ⟨fun h => ?_, fun h => ?_, fun h => ?_, fun h => ?_⟩
  · have hout := exec_sameOutsideUnit h nofun
    exact ⟨hout.engine, hout.params, exec_sameDigest h nofun, sameInputs_of_sameOutsideUnit hout,
      sameOut_of_sameOutsideUnit hout, exec_sameSlotsBut h rfl, exec_sameIdig h nofun nofun, hout.moves⟩
  · have hout := exec_sameOutsideUnit h nofun
    obtain ⟨hkbuf, hklen, hpad⟩ := exec_sameSeedBuffers h nofun nofun
    exact ⟨hout.engine, hout.params, exec_sameDigest h nofun, sameInputs_of_sameOutsideUnit hout,
      sameOut_of_sameOutsideUnit hout, exec_sameSlotsBut h rfl, exec_hupdate_outer h, hkbuf, hklen, hpad,
      exec_sameIdig h nofun nofun, hout.moves⟩
  · have hout := exec_sameOutsideUnit h nofun
    obtain ⟨hkbuf, hklen, hpad⟩ := exec_sameSeedBuffers h nofun nofun
    exact ⟨hout.engine, hout.params, sameInputs_of_sameOutsideUnit hout, sameOut_of_sameOutsideUnit hout,
      exec_sameSlotsBut h rfl, hkbuf, hklen, hpad, hout.moves⟩
  · have hout := exec_sameOutsideUnit h nofun
    obtain ⟨hkbuf, hklen, hpad⟩ := exec_sameSeedBuffers h nofun nofun
    exact ⟨hout.engine, hout.params, exec_sameDigest h nofun, sameInputs_of_sameOutsideUnit hout,
      sameOut_of_sameOutsideUnit hout, exec_sameSlotsBut h rfl, hkbuf, hklen, hpad, exec_sameIdig h nofun nofun,
      hout.moves⟩

/-- R30, R35: what no command writes, `DERIVE` included. -/
theorem exec_sameHostRegisters {i : Instr} {s t : State} (h : exec i s = .next t) :
    State.SameParams s t ∧ t.IN0 = s.IN0 ∧ t.IN1 = s.IN1 ∧ t.moves = s.moves := by
  obtain ⟨e, -, rfl⟩ | ⟨-, hdone⟩ := exec_next h
  · exact ⟨⟨rfl, rfl, rfl, rfl⟩, rfl, rfl, rfl⟩
  · by_cases hi : i = .derive
    · subst hi
      cases hdone
      exact ⟨⟨rfl, rfl, rfl, rfl⟩, rfl, rfl, rfl⟩
    · have hout := completes_sameOutsideUnit hdone hi
      exact ⟨hout.params, hout.in0, hout.in1, hout.moves⟩

/-- Settles O45: the frames above, for the registers of the host, for `OUT` and for the digest. -/
theorem coreWritesOnlyWhatR35Allows : Obligations.CoreWritesOnlyWhatR35Allows := by
  intro i s t h
  obtain ⟨hparams, h0, h1, hmoves⟩ := exec_sameHostRegisters h
  exact ⟨hparams, h0, h1, hmoves, fun hi => (exec_sameOutsideUnit h hi).out, exec_sameDigest h⟩

/-- Settles O16: the copy and its source are two slots, and each command writes the slot it names only (R33). -/
theorem cloneIsIndependent : Obligations.CloneIsIndependent := by
  intro cd cs s t u hne hcd hcs hlive hclone
  obtain ⟨c, hc⟩ := exists_live_of_st hlive
  have hcopy : t.slot cd = s.slot cs := by
    obtain rfl := Host.Outcome.next.inj (hclone.symm.trans (hcloneSlots_completes cd cs c s hcd hcs hc))
    rw [slot_of_ctx_set s _ cd cd _ rfl hcd, if_pos rfl, hc]
  have hsource : t.slot cs = s.slot cs := (exec_sameSlotsBut hclone rfl).2 cs hne.symm
  refine ⟨fun h => ?_, fun h => ?_⟩
  · obtain h | h := h
    · exact ((exec_sameSlotsBut h rfl).2 cd hne).trans hcopy
    · exact ((exec_sameSlotsBut h rfl).2 cd hne).trans hcopy
  · obtain h | h := h
    · exact ((exec_sameSlotsBut h rfl).2 cs hne.symm).trans hsource
    · exact ((exec_sameSlotsBut h rfl).2 cs hne.symm).trans hsource

/-! ## Every step keeps the invariant of the model (R9, R11, R26, R36, R51) -/

/-! ### The number of slots and the canonical spaces: kept in every phase, whatever the engine's registers hold -/

/-- The part of the invariant that does not speak of the phase or the buffers. -/
abbrev State.WellShaped (s : State) : Prop := s.NctxLegal ∧ s.MemoryWf

theorem wellShaped_of_same {s t : State} (hs : s.WellShaped) (hn : t.nctx = s.nctx) (h0 : t.IN0 = s.IN0)
    (h1 : t.IN1 = s.IN1) (hout : t.OUT = s.OUT) : t.WellShaped := by
  rwa [State.WellShaped, State.NctxLegal, State.MemoryWf, hn, h0, h1, hout]

theorem setSpace_wellShaped {s : State} (hs : s.WellShaped) (sp : Space) {m : Memory} (hm : m.wf = true) :
    (s.setSpace sp m).WellShaped := by
  obtain ⟨hn, h0, h1, hout⟩ := hs
  cases sp with
  | in0 => exact ⟨hn, hm, h1, hout⟩
  | in1 => exact ⟨hn, h0, hm, hout⟩
  | out => exact ⟨hn, h0, h1, hm⟩

theorem space_wf {s : State} (hs : s.WellShaped) (sp : Space) : (s.space sp).wf = true := by
  obtain ⟨-, h0, h1, hout⟩ := hs
  cases sp with
  | in0 => exact h0
  | in1 => exact h1
  | out => exact hout

/-- Writing bytes inside a space. -/
theorem setSpace_writeBytes_wellShaped {s : State} (hs : s.WellShaped) (sp : Space) {off : Nat} {bytes : Bytes}
    (hfit : off + bytes.length ≤ Memory.size) : (s.setSpace sp ((s.space sp).writeBytes off bytes)).WellShaped :=
  setSpace_wellShaped hs sp (Memory.wf_writeBytes bytes _ off (space_wf hs sp) hfit)

theorem setParam_wellShaped {s : State} (hs : s.WellShaped) (r : Param) (v : U64) : (s.setParam r v).WellShaped := by
  cases r <;> exact hs

/-- R146: what `P_COPY` writes ends within `DKLEN` bytes. -/
theorem copy_fits {s : State} (h : outOffset s.i < s.DKLEN) :
    (outOffset s.i).toNat + (s.T.val.take (outCount s.DKLEN s.i).toNat).length ≤ Memory.size := by
  have hlt : (outOffset s.i).toNat < s.DKLEN.toNat := BitVec.lt_def.mp h
  have hmax : s.DKLEN.toNat < Memory.size := s.DKLEN.isLt
  rw [List.length_take, toNat_outCount h]
  omega

theorem engineStep_keeps_wellShaped {P : HashPrimitive} {s t : State} (hs : s.WellShaped)
    (h : engineStep P s = .next t) : t.WellShaped := by
  by_cases hp : s.phase = .pCopy
  · rw [engineStep_of_pCopy P hp] at h
    obtain ⟨-, hoff, rfl⟩ := phaseCopy_next s t h
    exact setSpace_writeBytes_wellShaped hs .out (copy_fits hoff)
  · obtain ⟨hctx, -, -, -, -, -, -, h0, h1, -, -, -, hout⟩ := engineStep_frame P s t h
    exact wellShaped_of_same hs (congrArg List.length hctx) h0 h1 (hout hp)

theorem completes_keeps_wellShaped {P : HashPrimitive} {i : Instr} {s t : State} (hs : s.WellShaped)
    (h : Completes P s i t) : t.WellShaped := by
  by_cases hi : i = .derive
  · subst hi
    cases h
    have hfit : 0 + (pbkdf2 P s.passwd s.salt s.C.toNat s.DKLEN.toNat).length ≤ Memory.size := by
      rw [Nat.zero_add, length_pbkdf2]
      exact s.DKLEN.isLt.le
    exact setSpace_writeBytes_wellShaped hs .out hfit
  · have hout := completes_sameOutsideUnit h hi
    exact wellShaped_of_same hs hout.nctx hout.in0 hout.in1 hout.out

theorem runWordWith_keeps_wellShaped {P : HashPrimitive} {w : CmdWord} {s t : State} (hs : s.WellShaped)
    (h : runWordWith P w s = .next t) : t.WellShaped := by
  obtain ⟨i, -, hi⟩ | ⟨-, -, rfl⟩ := runWordOver_next h
  · obtain ⟨e, -, rfl⟩ | ⟨-, hdone⟩ := execWith_next hi
    · exact hs
    · exact completes_keeps_wellShaped hs hdone
  · exact hs

/-! ### The command boundary (R36) -/

/-- R36 speaks of the engine and the transient buffers only. -/
theorem atBoundary_of_sameEngine {s t : State} (hs : s.AtBoundary) (he : State.SameEngine s t)
    (hb : t.BuffersCleared) : t.AtBoundary := by
  obtain ⟨hphase, hbase, hwork, hi, hj, hblocks, hT, hU, -⟩ := hs
  obtain ⟨ebase, ework, ephase, ei, ej, eblocks, eT, eU⟩ := he
  exact ⟨ephase.trans hphase, ebase.trans hbase, ework.trans hwork, ei.trans hi, ej.trans hj, eblocks.trans hblocks,
    eT.trans hT, eU.trans hU, hb⟩

theorem hardReset_atBoundary (s : State) : s.hardReset.AtBoundary :=
  ⟨rfl, rfl, rfl, rfl, rfl, rfl, rfl, rfl, rfl, rfl, rfl, rfl⟩

theorem setSpace_atBoundary {s : State} (hs : s.AtBoundary) (sp : Space) (m : Memory) :
    (s.setSpace sp m).AtBoundary := by
  cases sp <;> exact hs

theorem setParam_atBoundary {s : State} (hs : s.AtBoundary) (r : Param) (v : U64) : (s.setParam r v).AtBoundary := by
  cases r <;> exact hs

/-- R115, R117, R123: the buffers a command has used it leaves cleared. -/
theorem completes_keeps_buffersCleared {P : HashPrimitive} {i : Instr} {s t : State} (hs : s.BuffersCleared)
    (h : Completes P s i t) : t.BuffersCleared := by
  obtain ⟨hkbuf, hpad, hklen, hidig⟩ := hs
  cases h with
  | hseed => exact ⟨rfl, rfl, rfl, hidig⟩
  | hupdate => exact ⟨hkbuf, hpad, hklen, hidig⟩
  | hfinal => exact ⟨hkbuf, hpad, hklen, rfl⟩
  | hclone => exact ⟨hkbuf, hpad, hklen, hidig⟩
  | derive => exact ⟨rfl, rfl, rfl, by simp [derivedState, hidig]⟩

/-- The engine is left alone by a command, or, by `DERIVE`, cleared. -/
theorem completes_keeps_atBoundary {P : HashPrimitive} {i : Instr} {s t : State} (hs : s.AtBoundary)
    (h : Completes P s i t) : t.AtBoundary := by
  have ⟨_, _, _, _, _, _, _, _, hbuffers⟩ := hs
  have hb := completes_keeps_buffersCleared hbuffers h
  by_cases hi : i = .derive
  · subst hi
    cases h
    exact ⟨rfl, rfl, rfl, rfl, rfl, rfl, rfl, rfl, hb⟩
  · exact atBoundary_of_sameEngine hs (completes_sameOutsideUnit h hi).engine hb

theorem runWordWith_keeps_atBoundary {P : HashPrimitive} {w : CmdWord} {s t : State} (hs : s.AtBoundary)
    (h : runWordWith P w s = .next t) : t.AtBoundary := by
  obtain ⟨i, -, hi⟩ | ⟨-, -, rfl⟩ := runWordOver_next h
  · obtain ⟨e, -, rfl⟩ | ⟨-, hdone⟩ := execWith_next hi
    · exact hs
    · exact completes_keeps_atBoundary hs hdone
  · exact hs

/-! ### What each phase of the engine requires (R142 to R147) -/

theorem phaseInv_iff_of_idle {s : State} (h : s.phase = .idle) : s.PhaseInv ↔ s.AtBoundary := by
  simp only [State.PhaseInv, h]

theorem phaseInv_iff_of_pSeed {s : State} (h : s.phase = .pSeed) : s.PhaseInv ↔ s.ChecksPassed := by
  simp only [State.PhaseInv, h]

theorem phaseInv_iff_of_pFirst {s : State} (h : s.phase = .pFirst) : s.PhaseInv ↔ s.ChecksPassed ∧ s.InBlock := by
  simp only [State.PhaseInv, h]

theorem phaseInv_iff_of_pIter {s : State} (h : s.phase = .pIter) :
    s.PhaseInv ↔ s.ChecksPassed ∧ s.InBlock ∧ 1 ≤ s.j ∧ s.j < s.C := by
  simp only [State.PhaseInv, h]

theorem phaseInv_iff_of_pCopy {s : State} (h : s.phase = .pCopy) :
    s.PhaseInv ↔ s.ChecksPassed ∧ s.InBlock ∧ s.j = s.C := by
  simp only [State.PhaseInv, h]

theorem phaseInv_iff_of_pClear {s : State} (h : s.phase = .pClear) : s.PhaseInv ↔ s.ChecksPassed := by
  simp only [State.PhaseInv, h]

theorem seededState_phaseInv (P : HashPrimitive) {s : State} (hchk : s.ChecksPassed) : (seededState P s).PhaseInv := by
  by_cases hblock : 1 ≤ blocksOf s.DKLEN
  · exact (phaseInv_iff_of_pFirst (if_pos hblock)).mpr ⟨hchk, rfl, rfl, BitVec.le_refl _, hblock⟩
  · exact (phaseInv_iff_of_pClear (if_neg hblock)).mpr hchk

/-- R144, R145: after a PRF application `j` is at most `C`, and the phase says whether it has reached it. -/
theorem phaseInv_of_afterPrf {s : State} (hphase : s.phase = afterPrf s) (hchk : s.ChecksPassed) (hblock : s.InBlock)
    (h1 : 1 ≤ s.j) (hj : s.j ≤ s.C) : s.PhaseInv := by
  by_cases hlt : s.j < s.C
  · exact (phaseInv_iff_of_pIter (hphase.trans (if_pos hlt))).mpr ⟨hchk, hblock, h1, hlt⟩
  · exact (phaseInv_iff_of_pCopy (hphase.trans (if_neg hlt))).mpr
      ⟨hchk, hblock, BitVec.le_antisymm hj (BitVec.not_lt.mp hlt)⟩

theorem copyState_phaseInv {s : State} (hchk : s.ChecksPassed) (hblock : s.InBlock) : (copyState s).PhaseInv := by
  by_cases hlast : s.i = s.blocks
  · exact (phaseInv_iff_of_pClear (copyState_phase_of_last hlast)).mpr hchk
  · obtain ⟨hlive, hblocks, h1, h2⟩ := hblock
    rw [copyState_of_more hlast]
    exact (phaseInv_iff_of_pFirst rfl).mpr ⟨hchk, hlive, hblocks, by bv_omega, by bv_omega⟩

theorem engineStep_keeps_buffersCleared {P : HashPrimitive} {s t : State} (hs : s.BuffersCleared)
    (h : engineStep P s = .next t) : t.BuffersCleared := by
  have ⟨hkbuf, hpad, hklen, hidig⟩ := hs
  cases hp : s.phase with
  | idle =>
    rw [engineStep_of_idle P hp] at h
    cases h
    exact hs
  | pSeed =>
    rw [engineStep_of_pSeed P hp] at h
    obtain rfl := phaseSeed_next P s t h
    exact ⟨rfl, rfl, rfl, hidig⟩
  | pFirst =>
    rw [engineStep_of_pFirst P hp] at h
    obtain ⟨b, -, -, rfl⟩ := phaseFirst_next P s t h
    exact ⟨hkbuf, hpad, hklen, rfl⟩
  | pIter =>
    rw [engineStep_of_pIter P hp] at h
    obtain ⟨-, rfl⟩ := phaseIter_next P s t h
    exact ⟨rfl, rfl, rfl, rfl⟩
  | pCopy =>
    rw [engineStep_of_pCopy P hp] at h
    obtain ⟨-, -, rfl⟩ := phaseCopy_next s t h
    exact hs
  | pClear =>
    rw [engineStep_of_pClear P hp] at h
    cases h
    exact hs

theorem engineStep_keeps_phaseInv {P : HashPrimitive} {s t : State} (hbuffers : s.BuffersCleared) (hs : s.PhaseInv)
    (h : engineStep P s = .next t) : t.PhaseInv := by
  cases hp : s.phase with
  | idle =>
    rw [engineStep_of_idle P hp] at h
    cases h
    exact hs
  | pSeed =>
    rw [engineStep_of_pSeed P hp] at h
    obtain rfl := phaseSeed_next P s t h
    exact seededState_phaseInv P ((phaseInv_iff_of_pSeed hp).mp hs)
  | pFirst =>
    rw [engineStep_of_pFirst P hp] at h
    obtain ⟨b, -, -, rfl⟩ := phaseFirst_next P s t h
    obtain ⟨hchk, hblock⟩ := (phaseInv_iff_of_pFirst hp).mp hs
    exact phaseInv_of_afterPrf rfl hchk hblock (BitVec.le_refl _) hchk.2
  | pIter =>
    rw [engineStep_of_pIter P hp] at h
    obtain ⟨-, rfl⟩ := phaseIter_next P s t h
    obtain ⟨hchk, hblock, h1, hlt⟩ := (phaseInv_iff_of_pIter hp).mp hs
    have hj : 1 ≤ s.j + 1 ∧ s.j + 1 ≤ s.C := by bv_omega
    exact phaseInv_of_afterPrf rfl hchk hblock hj.1 hj.2
  | pCopy =>
    rw [engineStep_of_pCopy P hp] at h
    obtain ⟨-, -, rfl⟩ := phaseCopy_next s t h
    obtain ⟨hchk, hblock, -⟩ := (phaseInv_iff_of_pCopy hp).mp hs
    exact copyState_phaseInv hchk hblock
  | pClear =>
    rw [engineStep_of_pClear P hp] at h
    cases h
    exact (phaseInv_iff_of_idle rfl).mpr ⟨rfl, rfl, rfl, rfl, rfl, rfl, rfl, rfl, hbuffers⟩

/-! ### The step -/

theorem inv_of_atBoundary {s : State} (hshape : s.WellShaped) (hb : s.AtBoundary) : s.Inv := by
  have ⟨hphase, _, _, _, _, _, _, _, hbuffers⟩ := hb
  exact ⟨hshape.1, hshape.2, hbuffers, (phaseInv_iff_of_idle hphase).mpr hb⟩

theorem hardReset_inv {s : State} (hs : s.WellShaped) : s.hardReset.Inv := by
  have hn : s.hardReset.nctx = s.nctx := by simp [State.nctx]
  exact inv_of_atBoundary ⟨by rw [State.NctxLegal, hn]; exact hs.1, hs.2⟩ (hardReset_atBoundary s)

theorem engineStep_keeps_inv {P : HashPrimitive} {s t : State} (hs : s.Inv) (h : engineStep P s = .next t) : t.Inv := by
  obtain ⟨hnctx, hmem, hbuffers, hphase⟩ := hs
  obtain ⟨hnctx', hmem'⟩ := engineStep_keeps_wellShaped ⟨hnctx, hmem⟩ h
  exact ⟨hnctx', hmem', engineStep_keeps_buffersCleared hbuffers h, engineStep_keeps_phaseInv hbuffers hphase h⟩

theorem resetDuring_inv {P : HashPrimitive} {w : CmdWord} {k : Nat} {s t : State} (hs : s.WellShaped)
    (h : resetDuring P (execWith P) w k s = .next t) : t.Inv := by
  obtain ⟨u, hrun | hword, rfl⟩ := resetDuring_next h
  · exact hardReset_inv (engineRun_keeps P State.WellShaped (fun _ _ _ => engineStep_keeps_wellShaped) k
      (engineStart s) u hs hrun)
  · exact hardReset_inv (runWordWith_keeps_wellShaped hs hword)

theorem performOver_keeps_inv {P : HashPrimitive} {m : HostMove} {s t : State} (hshape : s.WellShaped)
    (hb : s.AtBoundary) (h : performOver P (execWith P) m s = .next t) : t.Inv := by
  cases m with
  | present w =>
    exact inv_of_atBoundary (runWordWith_keeps_wellShaped hshape h) (runWordWith_keeps_atBoundary hb h)
  | write sp off bytes =>
    obtain ⟨hfit, rfl⟩ := hostWrite_next h
    exact inv_of_atBoundary (setSpace_writeBytes_wellShaped hshape sp hfit) (setSpace_atBoundary hb _ _)
  | setParam r v =>
    cases h
    exact inv_of_atBoundary (setParam_wellShaped hshape r v) (setParam_atBoundary hb _ _)
  | in0 bytes =>
    obtain ⟨hfit, rfl⟩ := hostFill_next h
    exact inv_of_atBoundary
      (setParam_wellShaped (setSpace_writeBytes_wellShaped hshape .in0 (by omega)) _ _)
      (setParam_atBoundary (setSpace_atBoundary hb _ _) _ _)
  | in1 bytes =>
    obtain ⟨hfit, rfl⟩ := hostFill_next h
    exact inv_of_atBoundary
      (setParam_wellShaped (setSpace_writeBytes_wellShaped hshape .in1 (by omega)) _ _)
      (setParam_atBoundary (setSpace_atBoundary hb _ _) _ _)
  | reset =>
    cases h
    exact hardReset_inv hshape
  | presentThenReset w k => exact resetDuring_inv hshape h

theorem stepWith_keeps_inv {P : HashPrimitive} {s t : State} (hs : s.Inv) (h : stepWith P s = .next t) : t.Inv := by
  obtain ⟨-, -, rfl⟩ | ⟨m, rest, hp, -, hm⟩ | ⟨-, hbusy⟩ := stepOver_next h
  · exact hs
  · obtain ⟨hnctx, hmem, -, hphase⟩ := hs
    have hb := (phaseInv_iff_of_idle hp).mp hphase
    exact performOver_keeps_inv (s := { s with moves := rest }) ⟨hnctx, hmem⟩ hb hm
  · obtain ⟨u, hu, ⟨-, rfl⟩ | ⟨-, rfl⟩⟩ := busyStep_next P s t hbusy
    · exact engineStep_keeps_inv (t := u) hs hu
    · exact engineStep_keeps_inv hs hu

/-- Settles O52: a waiting core is at a command boundary, to which a host move leads back; a busy one goes from what one
phase requires to what the next does. This core is the one with SHA-256. -/
theorem everyStepKeepsInv : Obligations.EveryStepKeepsInv :=
  ⟨fun _ _ hs h => stepWith_keeps_inv hs (stepWith_theHash ▸ h), fun _ _ _ => stepWith_keeps_inv⟩

/-- Settles O51: the engine and the buffers are cleared by reset, and a command leaves them cleared. -/
theorem commandBoundaryInvariant : Obligations.CommandBoundaryInvariant :=
  ⟨hardReset_atBoundary State.reset, hardReset_atBoundary,
    fun _ _ _ hs h => runWordWith_keeps_atBoundary hs (runWordWith_theHash ▸ h)⟩

/-- Settles O53: `State.reset` is the reset of itself. -/
theorem resetMeetsInv : Obligations.ResetMeetsInv :=
  ⟨hardReset_inv (s := State.reset) (by decide), hardReset_absorbedWithin _ State.reset⟩

/-! ## Reset (R34) -/

/-- Settles O48: reset writes each register out, and a slot of the reset state is EMPTY, past the file too. -/
theorem resetValues : Obligations.ResetValues := by
  refine ⟨fun s rest hp hm => step_move s .reset rest hp hm, rfl, fun k => ?_⟩
  have hslot : State.reset.slot k = .empty := by
    simp only [State.slot, State.reset, State.resetWith, List.getD_eq_getElem?_getD, List.getElem?_replicate]
    split
    · rfl
    · rfl
  simp [hslot, Ctx.st, Ctx.inner, Ctx.outer]

/-! ## The host's writes (R35, R77) -/

theorem hostWrite_of_fits {off : Nat} {bytes : Bytes} (sp : Space) (s : State) (h : off + bytes.length ≤ Memory.size) :
    hostWrite sp off bytes s = .next (s.setSpace sp ((s.space sp).writeBytes off bytes)) := if_pos h

theorem hostWrite_of_past {off : Nat} {bytes : Bytes} (sp : Space) (s : State) (h : Memory.size < off + bytes.length) :
    hostWrite sp off bytes s = .fault .hostOffset := if_neg (Nat.not_le.mpr h)

theorem hostFill_of_fits {bytes : Bytes} (sp : Space) (r : Param) (s : State) (h : bytes.length < Memory.size) :
    hostFill sp r bytes s = .next ((s.setSpace sp ((s.space sp).writeBytes 0 bytes)).setParam r
      (BitVec.ofNat 64 bytes.length)) := if_pos h

theorem hostFill_of_past {bytes : Bytes} (sp : Space) (r : Param) (s : State) (h : Memory.size ≤ bytes.length) :
    hostFill sp r bytes s = .fault .hostOffset := if_neg (Nat.not_lt.mpr h)

/-- Settles O9: a waiting core performs the move, and the move's one write is a record update. -/
theorem hostWritesTouchOnlyWhatTheyName : Obligations.HostWritesTouchOnlyWhatTheyName := by
  intro s rest hp
  have hstep (m : HostMove) (hm : s.moves = m :: rest) := step_move s m rest hp hm
  refine ⟨fun v => hstep (.setParam .c v), fun v => hstep (.setParam .dklen v), fun v => hstep (.setParam .len0 v),
    fun v => hstep (.setParam .len1 v),
    fun bs hm hfit => (hstep _ hm).trans (hostFill_of_fits .in0 .len0 _ hfit),
    fun bs hm hfit => (hstep _ hm).trans (hostFill_of_fits .in1 .len1 _ hfit),
    fun off bs hm hfit => (hstep _ hm).trans (hostWrite_of_fits .in0 _ hfit),
    fun off bs hm hfit => (hstep _ hm).trans (hostWrite_of_fits .in1 _ hfit),
    fun off bs hm hfit => (hstep _ hm).trans (hostWrite_of_fits .out _ hfit),
    fun sp off bs hm hpast => (hstep _ hm).trans (hostWrite_of_past sp _ hpast), fun bs hm hpast => ?_⟩
  obtain hm | hm := hm
  · exact (hstep _ hm).trans (hostFill_of_past .in0 .len0 _ hpast)
  · exact (hstep _ hm).trans (hostFill_of_past .in1 .len1 _ hpast)

/-! ## The digest register (R29) -/

theorem exec_hfinal_completes {cd : Nat} {s t : State} (h : exec (.hfinal cd) s = .next t) (h0 : t.ERR = 0) :
    ∃ c, s.slot cd = .live c ∧ t = hfinalDone theHash cd c s := by
  obtain ⟨e, -, rfl⟩ | ⟨-, hdone⟩ := exec_next h
  · exact absurd h0 (code_ne_zero e)
  · cases hdone with
    | hfinal _ hc => exact ⟨_, hc, rfl⟩

/-- R29, for a step of a waiting core: the digest changes by an `HFINAL` that completes or by a reset. -/
theorem perform_digest {m : HostMove} {s t : State} (h : perform m s = .next t) :
    State.SameDigest s t ∨
    (∃ w cd, m = .present w ∧ decode w = .instr (.hfinal cd) ∧ t.ERR = 0 ∧ t.DIGV = true) ∨
    ((m = .reset ∨ ∃ w k, m = .presentThenReset w k) ∧ t.DIG = Z 32 ∧ t.DIGV = false) := by
  cases m with
  | present w =>
    obtain ⟨i, hw, hi⟩ | ⟨-, -, rfl⟩ := runWordOver_next h
    · obtain hsame | ⟨cd, c, rfl, -, rfl⟩ := exec_sameDigest_or_final hi
      · exact .inl hsame
      · exact .inr (.inl ⟨w, cd, rfl, hw, rfl, rfl⟩)
    · exact .inl ⟨rfl, rfl⟩
  | write sp off bytes =>
    obtain ⟨-, rfl⟩ := hostWrite_next h
    exact .inl ⟨setSpace_DIG .., setSpace_DIGV ..⟩
  | setParam r v =>
    cases h
    exact .inl ⟨setParam_DIG .., setParam_DIGV ..⟩
  | in0 bytes =>
    obtain ⟨-, rfl⟩ := hostFill_next h
    exact .inl ⟨rfl, rfl⟩
  | in1 bytes =>
    obtain ⟨-, rfl⟩ := hostFill_next h
    exact .inl ⟨rfl, rfl⟩
  | reset =>
    cases h
    exact .inr (.inr ⟨.inl rfl, rfl, rfl⟩)
  | presentThenReset w k =>
    obtain ⟨u, -, rfl⟩ := resetDuring_next h
    exact .inr (.inr ⟨.inr ⟨w, k, rfl⟩, rfl, rfl⟩)

/-- Settles O46: an engine step leaves the digest alone, and a waiting core changes it by two kinds of move only. -/
theorem digestRegisterRule : Obligations.DigestRegisterRule := by
  refine ⟨fun cd s t h h0 => ?_, fun s t h => ?_⟩
  · obtain ⟨c, hc, rfl⟩ := exec_hfinal_completes h h0
    exact ⟨rfl, c, hc, rfl⟩
  · obtain ⟨-, -, rfl⟩ | ⟨m, rest, hp, hm, hperf⟩ | ⟨-, hbusy⟩ := stepOver_next h
    · exact .inl ⟨rfl, rfl⟩
    · obtain hsame | ⟨w, cd, rfl, hw, hERR, hDIGV⟩ | ⟨hreset, hDIG, hDIGV⟩ := perform_digest hperf
      · exact .inl hsame
      · exact .inr (.inl ⟨w, cd, rest, hp, hm, hw, hERR, hDIGV⟩)
      · exact .inr (.inr ⟨m, rest, hp, hm, hreset, hDIG, hDIGV⟩)
    · obtain ⟨u, hu, ⟨-, rfl⟩ | ⟨-, rfl⟩⟩ := busyStep_next theHash s t hbusy
      · obtain ⟨-, hDIG, hDIGV, -⟩ := engineStep_frame theHash s u hu
        exact .inl ⟨hDIG, hDIGV⟩
      · obtain ⟨-, hDIG, hDIGV, -⟩ := engineStep_frame theHash s t hu
        exact .inl ⟨hDIG, hDIGV⟩

/-! ## What ERR and ERRINFO held before a command (R31, R190) -/

/-- The state with other outcome registers. -/
def State.withOutcome (e : BitVec 8) (n : U64) (s : State) : State := { s with ERR := e, ERRINFO := n }

/-- An answer with its next state changed; a stop stays. -/
def Answer.mapNext (f : State → State) : Answer → Answer
  | .next t => .next (f t)
  | .fault r => .fault r
  | .refused r => .refused r

theorem withOutcome_phase (e : BitVec 8) (n : U64) (s : State) : (s.withOutcome e n).phase = s.phase := rfl

theorem withOutcome_base (e : BitVec 8) (n : U64) (s : State) : (s.withOutcome e n).base = s.base := rfl

section Outcome
variable (P : HashPrimitive) (e : BitVec 8) (n : U64)

/-- The engine neither reads nor writes the outcome registers. -/
theorem engineStep_withOutcome (s : State) :
    engineStep P (s.withOutcome e n) = (engineStep P s).mapNext (State.withOutcome e n) := by
  have hphase := withOutcome_phase e n s
  cases hp : s.phase with
  | idle => rw [engineStep_of_idle P hp, engineStep_of_idle P (hphase.trans hp)]; rfl
  | pSeed =>
    rw [engineStep_of_pSeed P hp, engineStep_of_pSeed P (hphase.trans hp)]
    simp only [phaseSeed, apply_ite (Answer.mapNext (State.withOutcome e n))]
    rfl
  | pFirst =>
    rw [engineStep_of_pFirst P hp, engineStep_of_pFirst P (hphase.trans hp)]
    cases hb : s.base with
    | live b =>
      simp only [phaseFirst, withOutcome_base, hb, apply_ite (Answer.mapNext (State.withOutcome e n))]
      rfl
    | empty =>
      simp only [phaseFirst, withOutcome_base, hb]
      rfl
    | spent =>
      simp only [phaseFirst, withOutcome_base, hb]
      rfl
  | pIter =>
    rw [engineStep_of_pIter P hp, engineStep_of_pIter P (hphase.trans hp)]
    simp only [phaseIter, apply_ite (Answer.mapNext (State.withOutcome e n))]
    rfl
  | pCopy =>
    rw [engineStep_of_pCopy P hp, engineStep_of_pCopy P (hphase.trans hp)]
    simp only [phaseCopy, apply_ite (Answer.mapNext (State.withOutcome e n))]
    rfl
  | pClear => rw [engineStep_of_pClear P hp, engineStep_of_pClear P (hphase.trans hp)]; rfl

theorem engineRun_withOutcome (m : Nat) (s : State) :
    engineRun P m (s.withOutcome e n) = (engineRun P m s).mapNext (State.withOutcome e n) := by
  induction m generalizing s with
  | zero => rfl
  | succ m ih =>
    by_cases hp : s.phase = .idle
    · rw [engineRun_idle P _ s hp, engineRun_idle P _ (s.withOutcome e n) hp]
      rfl
    · simp only [engineRun, withOutcome_phase, if_neg hp, engineStep_withOutcome]
      cases engineStep P s with
      | next u => exact ih u
      | fault r => rfl
      | refused r => rfl

theorem deriveWith_withOutcome (s : State) : deriveWith P (s.withOutcome e n) = deriveWith P s := by
  have hcheck : deriveCheck (s.withOutcome e n) = deriveCheck s := rfl
  cases hc : deriveCheck s with
  | some x => rw [deriveWith_raises P hc, deriveWith_raises P (hcheck.trans hc)]; rfl
  | none =>
    have hrun : engineRun P (engineSteps (s.withOutcome e n)) (engineStart (s.withOutcome e n)) =
        (engineRun P (engineSteps s) (engineStart s)).mapNext (State.withOutcome e n) :=
      engineRun_withOutcome P e n (engineSteps s) (engineStart s)
    simp only [deriveWith, hcheck, hc, hrun]
    cases engineRun P (engineSteps s) (engineStart s) with
    | next u => rfl
    | fault r => rfl
    | refused r => rfl

end Outcome

/-- Settles O42: a branch of an HMAC command ends in `raise` or `complete`, which overwrite both registers; a run of the
engine carries them along unread. -/
theorem outcomeIsNotSticky : Obligations.OutcomeIsNotSticky := by
  intro i s e n
  cases i with
  | hseed cd => rfl
  | hupdate cd => rfl
  | hfinal cd => rfl
  | hclone cd cs => rfl
  | derive => exact deriveWith_withOutcome theHash e n s

/-! ## What the host sees (R23, R35) -/

theorem length_slotStatuses (s : State) : s.slotStatuses.length = s.nctx := List.length_map _

theorem getD_slotStatuses (s : State) (k : Nat) : s.slotStatuses.getD k .empty = (s.slot k).st := by
  simp only [State.slotStatuses, State.slot, List.getD_eq_getElem?_getD, List.getElem?_map]
  cases s.ctx[k]? <;> rfl

/-- R186: the exception a command raises says nothing of a slot but its status. -/
theorem commandCheck_congr (i : Instr) {s s' : State} (hview : s.hostView = s'.hostView)
    (hst : s.slotStatuses = s'.slotStatuses) : commandCheck i s = commandCheck i s' := by
  have hindex (k : Nat) : indexCheck s k = indexCheck s' k := by
    simp only [indexCheck, ← length_slotStatuses, hst]
  have hlive (k : Nat) : liveCheck s k = liveCheck s' k := by
    simp only [liveCheck, ← getD_slotStatuses, hst]
  have hC : s.C = s'.C := congrArg HostView.C hview
  have hDKLEN : s.DKLEN = s'.DKLEN := congrArg HostView.DKLEN hview
  cases i <;> simp only [commandCheck, deriveCheck, hindex, hlive, hC, hDKLEN]

/-- R122: the statuses after a command that completes. -/
def statusesAfter : Instr → List CtxStatus → List CtxStatus
  | .hseed cd, sts => sts.set cd .live
  | .hupdate cd, sts => sts.set cd .live
  | .hfinal cd, sts => sts.set cd .spent
  | .hclone cd _, sts => sts.set cd .live
  | .derive, sts => sts

/-- R35: the host's view after a command, other than `HFINAL`, that completes. -/
def viewAfter (P : HashPrimitive) (i : Instr) (v : HostView) : HostView :=
  { v with
    OUT := if i = .derive then
        v.OUT.writeBytes 0 (pbkdf2 P (v.IN0.readBytes 0 v.LEN0.toNat) (v.IN1.readBytes 0 v.LEN1.toNat) v.C.toNat
          v.DKLEN.toNat)
      else v.OUT
    ERR := 0, ERRINFO := 0 }

theorem completes_slotStatuses {P : HashPrimitive} {i : Instr} {s t : State} (h : Completes P s i t) :
    t.slotStatuses = statusesAfter i s.slotStatuses := by
  cases h with
  | hseed => exact List.map_set
  | hupdate => exact List.map_set
  | hfinal => exact List.map_set
  | hclone => exact List.map_set
  | derive => rfl

theorem completes_hostView {P : HashPrimitive} {i : Instr} {s t : State} (h : Completes P s i t)
    (hi : ∀ cd, i ≠ .hfinal cd) : t.hostView = viewAfter P i s.hostView := by
  cases h with
  | hseed => rfl
  | hupdate => rfl
  | hfinal => exact absurd rfl (hi _)
  | hclone => rfl
  | derive => rfl

theorem raised_hostView (e : Exc) (s : State) :
    (raised e s).hostView = { s.hostView with ERR := e.code, ERRINFO := e.info } := rfl

/-- Settles O47: from equal views and statuses both commands raise the same exception or both complete, and what the
host sees then is computed from what it saw. -/
theorem hostSeesNoHashState : Obligations.HostSeesNoHashState := by
  intro i s s' t t' hi hview hst h h'
  have hcheck := commandCheck_congr i hview hst
  obtain ⟨e, he, rfl⟩ | ⟨hnone, hdone⟩ := exec_next h
  · obtain ⟨e', he', rfl⟩ | ⟨hnone', -⟩ := exec_next h'
    · obtain rfl : e = e' := Option.some.inj (he.symm.trans (hcheck.trans he'))
      exact ⟨by rw [raised_hostView, raised_hostView, hview], hst⟩
    · cases he.symm.trans (hcheck.trans hnone')
  · obtain ⟨e', he', -⟩ | ⟨-, hdone'⟩ := exec_next h'
    · cases hnone.symm.trans (hcheck.trans he')
    · rw [completes_hostView hdone hi, completes_hostView hdone' hi, completes_slotStatuses hdone,
        completes_slotStatuses hdone', hview, hst]
      exact ⟨rfl, rfl⟩

end Sys2Proof.Machine

namespace Sys2Proof.Machine

/-! ## The byte spaces (R51) -/

theorem getD_memRead (sp : Space) (off : Nat) {n q : Nat} (s : State) (hq : q < n) :
    (memRead sp off n s).getD q 0 = (s.space sp).read (off + q) := by
  have hlen : q < (memRead sp off n s).length := by simpa [memRead] using hq
  rw [List.getD_eq_getElem _ _ hlen]
  exact Memory.getElem_readBytes (s.space sp) off n q hlen

/-- Settles O44: the laws of the byte spaces, where the `u64` register `DKLEN` keeps the write inside the space. -/
theorem memoryPrimitives : Obligations.MemoryPrimitives := by
  refine ⟨fun sp off n s => ⟨Memory.length_readBytes _ _ _, fun q => getD_memRead sp off s⟩, ?_⟩
  intro off v s hwf hdklen
  have hfit : off + v.length ≤ Memory.size := hdklen.trans s.DKLEN.isLt.le
  refine ⟨fun q hq => ?_, fun a => Memory.read_writeBytes_outside v s.OUT off a,
    Memory.wf_writeBytes v s.OUT off hwf hfit⟩
  rw [List.getD_eq_getElem _ _ hq]
  exact Memory.read_writeBytes_inside v s.OUT off q hwf hfit hq

/-! ## The frame of `DERIVE` (R23, R55, R62, R189) -/

theorem derivedState_read_past (P : HashPrimitive) (s : State) {a : Nat} (ha : s.DKLEN.toNat ≤ a) :
    (derivedState P s).OUT.read a = s.OUT.read a :=
  Memory.read_writeBytes_outside _ s.OUT 0 a (.inr (by simpa using ha))

/-- Settles O25: a `DERIVE` that raises writes the outcome registers only, and one that completes writes as many bytes
from offset 0 on as `DKLEN` says. -/
theorem deriveFrame : Obligations.DeriveFrame := by
  intro s t h
  obtain ⟨e, -, rfl⟩ | ⟨-, hdone⟩ := exec_next h
  · exact ⟨rfl, ⟨rfl, rfl⟩, ⟨rfl, rfl, rfl, rfl⟩, fun _ => ⟨rfl, rfl⟩, rfl, fun _ _ => rfl, fun _ => rfl⟩
  · cases hdone
    exact ⟨rfl, ⟨rfl, rfl⟩, ⟨rfl, rfl, rfl, rfl⟩, fun _ => ⟨rfl, rfl⟩, rfl,
      fun _ => derivedState_read_past theHash s, fun hERR => absurd rfl hERR⟩

/-! ## Under the invariant nothing faults but a host move past the last offset (logs 8 to 10) -/

/-! ### The engine -/

section Fault
variable {P : HashPrimitive} {s : State}

theorem engineStep_ne_fault (hs : s.PhaseInv) (r : Fault) : engineStep P s ≠ .fault r := by
  obtain ⟨t, ht⟩ | hrefused := engineStep_answers P hs
  · rw [ht]
    exact nofun
  · rw [hrefused]
    exact nofun

theorem busyStep_fault {r : Fault} (h : busyStep P s = .fault r) : engineStep P s = .fault r := by
  cases hstep : engineStep P s with
  | next u =>
    obtain ⟨t, ht⟩ := busyStep_of_engineStep hstep
    rw [ht] at h
    cases h
  | fault r' => simpa [busyStep, hstep] using h
  | refused r' => simp [busyStep, hstep] at h

theorem engineRun_ne_fault (hs : s.Inv) (n : Nat) (r : Fault) : engineRun P n s ≠ .fault r := by
  induction n generalizing s with
  | zero => exact nofun
  | succ n ih =>
    by_cases hp : s.phase = .idle
    · rw [engineRun_idle P _ s hp]
      exact nofun
    · have ⟨_, _, _, hphase⟩ := hs
      obtain ⟨t, ht⟩ | hrefused := engineStep_answers P hphase
      · rw [engineRun_succ P n s t hp ht]
        exact ih (engineStep_keeps_inv hs ht)
      · simp [engineRun, hp, hrefused]

/-- R140: once the checks have passed, what `P_SEED` requires holds. -/
theorem engineStart_inv (hs : s.Inv) (hcheck : deriveCheck s = none) : (engineStart s).Inv := by
  obtain ⟨hnctx, hmem, hbuffers, -⟩ := hs
  exact ⟨hnctx, hmem, hbuffers, (phaseInv_iff_of_pSeed rfl).mpr (deriveCheck_eq_none_iff.mp hcheck)⟩

/-! ### The commands: those of the HMAC unit fault in no state -/

theorem hseedWith_ne_fault (cd : Nat) (r : Fault) : hseedWith P cd s ≠ .fault r := by
  unfold hseedWith
  split
  · exact nofun
  · split
    · exact nofun
    · exact nofun

theorem hupdateWith_ne_fault (cd : Nat) (r : Fault) : hupdateWith P cd s ≠ .fault r := by
  unfold hupdateWith
  split
  · exact nofun
  · split
    · split
      · exact nofun
      · exact nofun
    · exact nofun
    · exact nofun

theorem hfinalWith_ne_fault (cd : Nat) (r : Fault) : hfinalWith P cd s ≠ .fault r := by
  unfold hfinalWith
  split
  · exact nofun
  · split
    · split
      · exact nofun
      · exact nofun
    · exact nofun
    · exact nofun

theorem hcloneSlots_ne_fault (cd cs : Nat) (r : Fault) : hcloneSlots cd cs s ≠ .fault r := by
  unfold hcloneSlots
  split
  · exact nofun
  · split
    · exact nofun
    · split
      · exact nofun
      · exact nofun
      · exact nofun

theorem deriveWith_ne_fault (hs : s.Inv) (r : Fault) : deriveWith P s ≠ .fault r := by
  cases hcheck : deriveCheck s with
  | some e =>
    rw [deriveWith_raises P hcheck]
    exact nofun
  | none =>
    have hrun := engineRun_ne_fault (P := P) (engineStart_inv hs hcheck) (engineSteps s)
    simp only [deriveWith, hcheck]
    split
    · exact nofun
    next r' hr' => exact absurd hr' (hrun r')
    · exact nofun

theorem execWith_ne_fault (hs : s.Inv) (i : Instr) (r : Fault) : execWith P i s ≠ .fault r := by
  cases i with
  | hseed cd => exact hseedWith_ne_fault cd r
  | hupdate cd => exact hupdateWith_ne_fault cd r
  | hfinal cd => exact hfinalWith_ne_fault cd r
  | hclone cd cs => exact hcloneSlots_ne_fault cd cs r
  | derive => exact deriveWith_ne_fault hs r

theorem runWordWith_ne_fault (hs : s.Inv) (w : CmdWord) (r : Fault) : runWordWith P w s ≠ .fault r := by
  cases hw : decode w with
  | instr i =>
    rw [runWordWith, runWordOver_instr _ w i s hw]
    exact execWith_ne_fault hs i r
  | illegal why =>
    rw [runWordWith, runWordOver_illegal _ w why s hw]
    exact nofun

/-! ### The step -/

theorem thenReset_fault {a : Answer} {r : Fault} (h : thenReset a = .fault r) : a = .fault r := by
  cases a with
  | next t => cases h
  | fault r' => exact h
  | refused r' => cases h

theorem resetDuring_ne_fault (hs : s.Inv) (w : CmdWord) (k : Nat) (r : Fault) :
    resetDuring P (execWith P) w k s ≠ .fault r := by
  intro h
  obtain ⟨-, hcheck, heq⟩ | ⟨-, heq⟩ := resetDuring_eq P (execWith P) w k s
  · exact engineRun_ne_fault (engineStart_inv hs hcheck) k r (thenReset_fault (heq ▸ h))
  · exact runWordWith_ne_fault hs w r (thenReset_fault (heq ▸ h))

theorem fault_eq_hostOffset {a : Answer} {r : Fault} (ha : (∃ t, a = .next t) ∨ a = .fault .hostOffset)
    (h : a = .fault r) : r = .hostOffset := by
  obtain ⟨t, ht⟩ | hfault := ha
  · cases ht.symm.trans h
  · exact Host.Outcome.fault.inj (h.symm.trans hfault)

theorem performOver_fault {m : HostMove} {r : Fault} (hs : s.Inv)
    (h : performOver P (execWith P) m s = .fault r) : r = .hostOffset := by
  cases m with
  | present w => exact absurd h (runWordWith_ne_fault hs w r)
  | write sp off bytes => exact fault_eq_hostOffset (hostWrite_answers sp off.toNat bytes s) h
  | setParam p v => cases h
  | in0 bytes => exact fault_eq_hostOffset (hostFill_answers .in0 .len0 bytes s) h
  | in1 bytes => exact fault_eq_hostOffset (hostFill_answers .in1 .len1 bytes s) h
  | reset => cases h
  | presentThenReset w k => exact absurd h (resetDuring_ne_fault hs w k r)

theorem stepWith_fault {r : Fault} (hs : s.Inv) (h : stepWith P s = .fault r) : r = .hostOffset := by
  by_cases hp : s.phase = .idle
  · cases hm : s.moves with
    | nil =>
      rw [stepWith, stepOver_waiting P _ s hp hm] at h
      cases h
    | cons m rest =>
      rw [stepWith, stepOver_move P _ s m rest hp hm] at h
      exact performOver_fault (s := { s with moves := rest }) hs h
  · obtain ⟨-, -, -, hphase⟩ := hs
    rw [stepWith, stepOver_busy P _ s hp] at h
    exact absurd (busyStep_fault h) (engineStep_ne_fault hphase r)

end Fault

/-- Settles O54: the engine starts only after its checks and each phase hands the next what it requires, so of all moves
only a host write can fault. This core is the one with SHA-256. -/
theorem noEngineFaultUnderInv : Obligations.NoEngineFaultUnderInv :=
  ⟨fun _ _ hs h => stepWith_fault hs (stepWith_theHash ▸ h), fun _ _ _ => stepWith_fault⟩

end Sys2Proof.Machine

namespace Sys2Proof

/-! ## The three fields of a command word and of a command (R70, R79)

The words that are not illegal and the well-formed commands are both determined by an operation code and two indices. -/

/-- R72: the operation code of a command. -/
def Instr.opCode : Instr → Byte
  | .hseed _ => 0x01
  | .hupdate _ => 0x02
  | .hfinal _ => 0x03
  | .hclone _ _ => 0x04
  | .derive => 0x10

/-- R71: what a command puts into the field `cd`, 0 where its format does not use it. -/
def Instr.cdIndex : Instr → Nat
  | .hseed cd => cd
  | .hupdate cd => cd
  | .hfinal cd => cd
  | .hclone cd _ => cd
  | .derive => 0

/-- R71: what a command puts into the field `cs`, 0 where its format does not use it. -/
def Instr.csIndex : Instr → Nat
  | .hclone _ cs => cs
  | .hseed _ => 0
  | .hupdate _ => 0
  | .hfinal _ => 0
  | .derive => 0

theorem toNat_opField (w : CmdWord) : (opField w).toNat = w.toNat / 256 := by
  simp only [opField, BitVec.extractLsb'_toNat, Nat.shiftRight_eq_div_pow]
  omega

theorem cdField_eq (w : CmdWord) : cdField w = w.toNat / 16 % 16 := by
  simp [cdField, BitVec.extractLsb'_toNat, Nat.shiftRight_eq_div_pow]

theorem csField_eq (w : CmdWord) : csField w = w.toNat % 16 := by
  simp [csField, BitVec.extractLsb'_toNat]

theorem opField_eq_iff {w : CmdWord} {op : Byte} : opField w = op ↔ w.toNat / 256 = op.toNat := by
  rw [← BitVec.toNat_inj, toNat_opField]

theorem Instr.wf_iff (i : Instr) : i.wf = true ↔ i.cdIndex < 16 ∧ i.csIndex < 16 := by
  cases i <;> simp [Instr.wf, slotFieldOk, Instr.cdIndex, Instr.csIndex]

/-- R79's formula, for the five forms at once. -/
theorem toNat_encode {i : Instr} (h : i.wf = true) :
    (encode i).toNat = 256 * i.opCode.toNat + 16 * i.cdIndex + i.csIndex := by
  obtain ⟨hcd, hcs⟩ := i.wf_iff.mp h
  cases i <;> simp [encode, Instr.opCode, Instr.cdIndex, Instr.csIndex] at hcd hcs ⊢ <;> omega

/-- A word decodes to a command exactly when it carries the operation code and the indices of the command. -/
theorem decode_eq_instr_iff {w : CmdWord} {i : Instr} :
    decode w = .instr i ↔ opField w = i.opCode ∧ cdField w = i.cdIndex ∧ csField w = i.csIndex := by
  constructor
  · intro h
    simp only [decode] at h
    split_ifs at h with hseed hcs hupdate hcs hfinal hcs hclone hderive hidx <;> cases h
    · exact ⟨hseed, rfl, hcs⟩
    · exact ⟨hupdate, rfl, hcs⟩
    · exact ⟨hfinal, rfl, hcs⟩
    · exact ⟨hclone, rfl, rfl⟩
    · exact ⟨hderive, hidx⟩
  · rintro ⟨hop, hcd, hcs⟩
    cases i <;> simp_all [decode, Instr.opCode, Instr.cdIndex, Instr.csIndex]

/-- A word is the encoding of a well-formed command exactly when it carries its operation code and its indices. -/
theorem encode_eq_iff {w : CmdWord} {i : Instr} :
    (i.wf = true ∧ encode i = w) ↔ opField w = i.opCode ∧ cdField w = i.cdIndex ∧ csField w = i.csIndex := by
  rw [opField_eq_iff, cdField_eq, csField_eq]
  constructor
  · rintro ⟨hwf, rfl⟩
    obtain ⟨hcd, hcs⟩ := i.wf_iff.mp hwf
    rw [toNat_encode hwf]
    omega
  · rintro ⟨hop, hcd, hcs⟩
    have hwf : i.wf = true := i.wf_iff.mpr ⟨by omega, by omega⟩
    exact ⟨hwf, BitVec.eq_of_toNat_eq (by rw [toNat_encode hwf]; omega)⟩

/-- R79: decoding and encoding are inverse to each other. -/
theorem decode_eq_instr_iff_encode {w : CmdWord} {i : Instr} :
    decode w = .instr i ↔ i.wf = true ∧ encode i = w :=
  decode_eq_instr_iff.trans encode_eq_iff.symm

theorem decode_encode {i : Instr} (h : i.wf = true) : decode (encode i) = .instr i :=
  decode_eq_instr_iff_encode.mpr ⟨h, rfl⟩

theorem instr?_eq_some_iff {w : CmdWord} {i : Instr} : (decode w).instr? = some i ↔ decode w = .instr i := by
  cases decode w <;> simp [Decoded.instr?]

/-- R79's `decode`, over the three fields. -/
theorem instr?_decode (w : CmdWord) :
    (decode w).instr? =
      if opField w = 0x01 ∧ csField w = 0 then some (.hseed (cdField w))
      else if opField w = 0x02 ∧ csField w = 0 then some (.hupdate (cdField w))
      else if opField w = 0x03 ∧ csField w = 0 then some (.hfinal (cdField w))
      else if opField w = 0x04 then some (.hclone (cdField w) (csField w))
      else if opField w = 0x10 ∧ cdField w = 0 ∧ csField w = 0 then some .derive
      else none := by
  split_ifs with hseed hupdate hfinal hclone hderive
  · exact instr?_eq_some_iff.mpr (decode_eq_instr_iff.mpr ⟨hseed.1, rfl, hseed.2⟩)
  · exact instr?_eq_some_iff.mpr (decode_eq_instr_iff.mpr ⟨hupdate.1, rfl, hupdate.2⟩)
  · exact instr?_eq_some_iff.mpr (decode_eq_instr_iff.mpr ⟨hfinal.1, rfl, hfinal.2⟩)
  · exact instr?_eq_some_iff.mpr (decode_eq_instr_iff.mpr ⟨hclone, rfl, rfl⟩)
  · exact instr?_eq_some_iff.mpr (decode_eq_instr_iff.mpr hderive)
  · refine Option.eq_none_iff_forall_ne_some.mpr fun i hi => ?_
    obtain ⟨hop, hcd, hcs⟩ := decode_eq_instr_iff.mp (instr?_eq_some_iff.mp hi)
    cases i with
    | hseed => exact hseed ⟨hop, hcs⟩
    | hupdate => exact hupdate ⟨hop, hcs⟩
    | hfinal => exact hfinal ⟨hop, hcs⟩
    | hclone => exact hclone hop
    | derive => exact hderive ⟨hop, hcd, hcs⟩

/-- Settles O1: a word and a command belong together, in both directions, exactly when they agree in the three
fields. -/
theorem decodeAndEncodeFollowR79 : Obligations.DecodeAndEncodeFollowR79 := by
  refine ⟨fun w => ?_, fun cd hcd => ⟨?_, ?_, ?_, fun cs hcs => ?_⟩, rfl, fun i => decode_encode,
    fun w i => decode_eq_instr_iff_encode.mp⟩
  · simpa only [opField_eq_iff, cdField_eq, csField_eq, BitVec.reduceToNat] using instr?_decode w
  · exact toNat_encode (i := .hseed cd) ((Instr.wf_iff _).mpr ⟨hcd, Nat.zero_lt_succ _⟩)
  · exact toNat_encode (i := .hupdate cd) ((Instr.wf_iff _).mpr ⟨hcd, Nat.zero_lt_succ _⟩)
  · exact toNat_encode (i := .hfinal cd) ((Instr.wf_iff _).mpr ⟨hcd, Nat.zero_lt_succ _⟩)
  · exact toNat_encode (i := .hclone cd cs) ((Instr.wf_iff _).mpr ⟨hcd, hcs⟩)

/-- Settles O2: each word decides. -/
theorem wordsOfTheSpecDecode : Obligations.WordsOfTheSpecDecode := by
  unfold Obligations.WordsOfTheSpecDecode
  decide

/-! ## The opcode map (R72) -/

/-- The operation code that a row of the table asks for; every mask covers the whole field. -/
theorem opField_of_selects {r : OpcodeRow} {w : CmdWord} (hr : r ∈ opcodeTable) (h : r.selects w = true) :
    opField w = opField r.matchBits := by
  have hmask : ∀ r ∈ opcodeTable, opField r.mask = BitVec.allOnes 8 := by decide
  have hfield : opField (w &&& r.mask) = opField w &&& opField r.mask := BitVec.extractLsb'_and
  rw [← of_decide_eq_true h, hfield, hmask r hr, BitVec.and_allOnes]

theorem csField_of_selects {r : OpcodeRow} {w : CmdWord} (h : r.selects w = true)
    (hmask : r.mask.extractLsb' 0 4 = BitVec.allOnes 4) : csField w = csField r.matchBits := by
  rw [csField, csField, ← of_decide_eq_true h, BitVec.extractLsb'_and, hmask, BitVec.and_allOnes]

theorem cdField_of_selects {r : OpcodeRow} {w : CmdWord} (h : r.selects w = true)
    (hmask : r.mask.extractLsb' 4 4 = BitVec.allOnes 4) : cdField w = cdField r.matchBits := by
  rw [cdField, cdField, ← of_decide_eq_true h, BitVec.extractLsb'_and, hmask, BitVec.and_allOnes]

/-- A row of the opcode map fixes the operation code of a form and the fields the form does not use, so a word that
selects it is not illegal. -/
theorem exists_decode_of_selects {r : OpcodeRow} {w : CmdWord} (hr : r ∈ opcodeTable) (h : r.selects w = true) :
    ∃ i, decode w = .instr i := by
  have hop := opField_of_selects hr h
  simp only [opcodeTable, List.mem_cons, List.not_mem_nil, or_false] at hr
  obtain rfl | rfl | rfl | rfl | rfl := hr
  · exact ⟨.hseed _, decode_eq_instr_iff.mpr ⟨hop, rfl, csField_of_selects h rfl⟩⟩
  · exact ⟨.hupdate _, decode_eq_instr_iff.mpr ⟨hop, rfl, csField_of_selects h rfl⟩⟩
  · exact ⟨.hfinal _, decode_eq_instr_iff.mpr ⟨hop, rfl, csField_of_selects h rfl⟩⟩
  · exact ⟨.hclone _ _, decode_eq_instr_iff.mpr ⟨hop, rfl, rfl⟩⟩
  · exact ⟨.derive, decode_eq_instr_iff.mpr ⟨hop, cdField_of_selects h rfl, csField_of_selects h rfl⟩⟩

theorem rowOfEncoding (i : Instr) : Laws.RowOfEncoding.Statement i := by
  cases i with
  | hseed cd => exact Laws.RowOfEncoding.hseed cd
  | hupdate cd => exact Laws.RowOfEncoding.hupdate cd
  | hfinal cd => exact Laws.RowOfEncoding.hfinal cd
  | hclone cd cs => exact Laws.RowOfEncoding.hclone cd cs
  | derive => exact Laws.RowOfEncoding.derive

/-- R72: the word of a command selects the row of its mnemonic and no other. -/
theorem selects_iff_of_decode {r : OpcodeRow} {w : CmdWord} {i : Instr} (hr : r ∈ opcodeTable)
    (hw : decode w = .instr i) : r.selects w = true ↔ i.mnemonic = r.mnemonic := by
  obtain ⟨hwf, rfl⟩ := decode_eq_instr_iff_encode.mp hw
  exact (rowOfEncoding i hwf r hr).trans eq_comm

/-- Settles O3: a word that selects a row decodes, and the word of a command selects the row of its mnemonic, of which
there is one. -/
theorem opcodeMapSelectsTheDecodedRow : Obligations.OpcodeMapSelectsTheDecodedRow := by
  intro w
  refine ⟨fun r hr => ⟨fun h => ?_, fun ⟨i, hi, hmn⟩ => (selects_iff_of_decode hr hi).mpr hmn⟩,
    fun r hr r' hr' h h' => ?_⟩
  · obtain ⟨i, hi⟩ := exists_decode_of_selects hr h
    exact ⟨i, hi, (selects_iff_of_decode hr hi).mp h⟩
  · have hinj : ∀ r ∈ opcodeTable, ∀ r' ∈ opcodeTable, r.mnemonic = r'.mnemonic → r = r' := by decide
    obtain ⟨i, hi⟩ := exists_decode_of_selects hr h
    exact hinj r hr r' hr' (((selects_iff_of_decode hr hi).mp h).symm.trans ((selects_iff_of_decode hr' hi).mp h'))

end Sys2Proof

namespace Sys2Proof.Machine

/-! ## The block counter (R74) -/

theorem INT_eq {i : U64} (h : i.toNat < 2 ^ 32) :
    INT i = [BitVec.ofNat 8 (i.toNat / 2 ^ 24), BitVec.ofNat 8 (i.toNat / 2 ^ 16 % 256),
      BitVec.ofNat 8 (i.toNat / 2 ^ 8 % 256), BitVec.ofNat 8 (i.toNat % 256)] := by
  have hbyte (k : Nat) : i.extractLsb' k 8 = BitVec.ofNat 8 (i.toNat / 2 ^ k % 256) :=
    BitVec.eq_of_toNat_eq (by simp [BitVec.extractLsb'_toNat, Nat.shiftRight_eq_div_pow])
  have htop : i.toNat / 2 ^ 24 % 256 = i.toNat / 2 ^ 24 := by omega
  rw [INT, hbyte, hbyte, hbyte, hbyte, htop, Nat.pow_zero, Nat.div_one]

/-- Settles O5: a byte of `i` is a quotient modulo 256, and under the invariant `i` is at most `blocks < 2^32`. -/
theorem intIsFourBytesBigEndian : Obligations.IntIsFourBytesBigEndian := by
  refine ⟨fun i _ hi => INT_eq (by omega), by decide, by decide, by decide, by decide, fun s hs hp => ?_⟩
  obtain ⟨-, -, -, hphase⟩ := hs
  obtain ⟨⟨hdklen, -⟩, -, hblocks, hpos, hle⟩ := (phaseInv_iff_of_pFirst hp).mp hphase
  have hlast : s.i.toNat ≤ (blocksOf s.DKLEN).toNat := BitVec.le_def.mp (hblocks ▸ hle)
  exact ⟨BitVec.le_def.mp hpos, Nat.le_sub_one_of_lt (hlast.trans_lt (toNat_blocksOf_lt hdklen))⟩

/-! ## A command word presented to a waiting core (R70, R142) -/

theorem step_present {s : State} {w : CmdWord} {rest : List HostMove} {i : Instr} (hp : s.phase = .idle)
    (hm : s.moves = .present w :: rest) (hw : decode w = .instr i) : step s = exec i { s with moves := rest } :=
  (step_move s (.present w) rest hp hm).trans (runWord_instr w i _ hw)

theorem wordOfTable_toNat (w : CmdWord) : wordOfTable 16 w.toNat = w := by
  simp [wordOfTable, Nat.mod_eq_of_lt w.isLt]

/-- Settles O6: a waiting core performs the move, and the word presented is the one the encoder gave. -/
theorem stepRunsTheDecodedCommand : Obligations.StepRunsTheDecodedCommand := by
  refine ⟨fun s w rest i => step_present, fun s i hwf => ?_⟩
  rw [State.withFetchWord, wordOfTable_toNat]
  exact step_present rfl rfl (decode_encode hwf)

/-! ## The pseudo-instruction `HMAC` (R78, log 1, log 15) -/

/-- R77: the state after the directive `.in0`. -/
def in0Filled (bytes : Bytes) (s : State) : State :=
  { s with IN0 := s.IN0.writeBytes 0 bytes, LEN0 := BitVec.ofNat 64 bytes.length }

section Moves
variable {s : State} {rest : List HostMove} (hp : s.phase = .idle)
include hp

theorem step_in0 {bytes : Bytes} (hm : s.moves = .in0 bytes :: rest) (hlen : bytes.length < Memory.size) :
    step s = .next (in0Filled bytes { s with moves := rest }) :=
  (step_move s (.in0 bytes) rest hp hm).trans (hostFill_of_fits .in0 .len0 _ hlen)

theorem step_issue {i : Instr} (hm : s.moves = issue i :: rest) (hwf : i.wf = true) :
    step s = exec i { s with moves := rest } :=
  step_present hp hm (decode_encode hwf)

end Moves

section Filled
variable {bytes : Bytes} (hlen : bytes.length < Memory.size)
include hlen

theorem toNat_LEN0_in0Filled (s : State) : (in0Filled bytes s).LEN0.toNat = bytes.length :=
  Nat.mod_eq_of_lt hlen

/-- R73, R77: the operand of a command after `.in0` is what the directive names. -/
theorem operand0_in0Filled {s : State} (hwf : s.IN0.wf = true) : operand0 (in0Filled bytes s) = bytes := by
  rw [operand0, toNat_LEN0_in0Filled hlen]
  exact Memory.readBytes_writeBytes bytes s.IN0 0 hwf (by omega)

theorem in0Filled_wf {s : State} (hwf : s.IN0.wf = true) : (in0Filled bytes s).IN0.wf = true :=
  Memory.wf_writeBytes bytes s.IN0 0 hwf (by omega)

end Filled

section Runs
variable (n : Nat) (s : State) {k : Nat} {rest : List HostMove} (hp : s.phase = .idle)
include hp

/-- R77: `.in0` and a command are the command on the operand the directive names. -/
theorem core_run_in0_issue {bytes : Bytes} {i : Instr} {t : State} (hmoves : s.moves = .in0 bytes :: issue i :: rest)
    (hlen : bytes.length < Memory.size) (hwf : i.wf = true)
    (hexec : exec i (in0Filled bytes { s with moves := rest }) = .next t) : core.run (n + 2) s = core.run n t := by
  have hcommand : step (in0Filled bytes { s with moves := issue i :: rest }) = .next t :=
    (step_issue (by exact hp) rfl hwf).trans hexec
  rw [core_run_next (n + 1) _ _ (step_in0 hp hmoves hlen), core_run_next n _ _ hcommand]

variable (hk : k < s.nctx) (hk16 : k < 16)
include hk hk16

/-- R77, R115: `.in0` and `HSEED` seed a slot with the bytes of the directive. -/
theorem core_run_in0_hseed {key : Bytes} (hmoves : s.moves = .in0 key :: issue (.hseed k) :: rest)
    (hkey : key.length < Memory.size) (hroom : seedAbsorbs theHash key.length = true) :
    core.run (n + 2) s = core.run n (hseedDone theHash k (in0Filled key { s with moves := rest })) :=
  core_run_in0_issue n s hp hmoves hkey (decide_eq_true hk16)
    (hseedWith_completes theHash k _ hk (by rwa [toNat_LEN0_in0Filled hkey]))

/-- R77, R116: `.in0` and `HUPDATE` feed the bytes of the directive to a LIVE slot. -/
theorem core_run_in0_hupdate {m : Bytes} {c : LiveCtx} (hmoves : s.moves = .in0 m :: issue (.hupdate k) :: rest)
    (hc : s.slot k = .live c) (hm : m.length < Memory.size) (hroom : updateAbsorbs theHash c m.length = true) :
    core.run (n + 2) s = core.run n (hupdateDone k c (in0Filled m { s with moves := rest })) :=
  core_run_in0_issue n s hp hmoves hm (decide_eq_true hk16)
    (hupdateWith_completes theHash k c _ hk hc (by rwa [toNat_LEN0_in0Filled hm]))

/-- R117: `HFINAL` puts the digest of a LIVE slot into `DIG`. -/
theorem core_run_hfinal {c : LiveCtx} (hmoves : s.moves = issue (.hfinal k) :: rest) (hc : s.slot k = .live c)
    (hroom : finalAbsorbs theHash c = true) :
    core.run (n + 1) s = core.run n (hfinalDone theHash k c { s with moves := rest }) :=
  core_run_next n _ _ ((step_issue hp hmoves (decide_eq_true hk16)).trans
    (hfinalWith_completes theHash k c _ hk hc hroom))

end Runs

section Hmac
variable (k : Nat) (key m : Bytes) (s : State)

/-- R78: the state after the first two moves, which seed slot `k`. -/
def hmacSeeded : State := hseedDone theHash k (in0Filled key s)

/-- R78: the state after four moves, which have fed the message to the seeded context. -/
def hmacFed : State := hupdateDone k (seedCtx theHash key) (in0Filled m (hmacSeeded k key s))

/-- R78: the state after the five moves. -/
def hmacDone : State := hfinalDone theHash k (hmacUpdate (seedCtx theHash key) m) (hmacFed k key m s)

@[simp] theorem hmacSeeded_nctx : (hmacSeeded k key s).nctx = s.nctx := setSlot_nctx s k _

@[simp] theorem hmacFed_nctx : (hmacFed k key m s).nctx = s.nctx :=
  (setSlot_nctx (hmacSeeded k key s) k _).trans (hmacSeeded_nctx k key s)

@[simp] theorem hmacDone_ctx : (hmacDone k key m s).ctx = s.ctx.set k .spent := by
  simp [hmacDone, hmacFed, hmacSeeded, hfinalDone, hupdateDone, hseedDone, in0Filled]

variable {k key m s} (hk : k < s.nctx) (hwf : s.IN0.wf = true) (hkey : key.length < Memory.size)
include hk hwf hkey

theorem hmacSeeded_slot : (hmacSeeded k key s).slot k = .live (seedCtx theHash key) := by
  have hslot := slot_of_ctx_set s (hmacSeeded k key s) k k _ rfl hk
  rwa [if_pos rfl, operand0_in0Filled hkey hwf] at hslot

theorem hmacFed_slot (hm : m.length < Memory.size) :
    (hmacFed k key m s).slot k = .live (hmacUpdate (seedCtx theHash key) m) := by
  have hk' : k < (hmacSeeded k key s).nctx := by simpa using hk
  have hwf' : (hmacSeeded k key s).IN0.wf = true := in0Filled_wf hkey hwf
  have hslot := slot_of_ctx_set (hmacSeeded k key s) (hmacFed k key m s) k k _ rfl hk'
  rwa [if_pos rfl, operand0_in0Filled hm hwf'] at hslot

end Hmac

/-- R78: the five moves, one step each; within R100's limit no command of them is refused. What is known of `s` holds of
the states on the way by definition; `by exact` is for the state to be found first. -/
theorem core_run_pseudoHmac {s : State} {k : Nat} {key m : Bytes} {rest : List HostMove} (hp : s.phase = .idle)
    (hwf : s.IN0.wf = true) (hk : k < s.nctx) (hk16 : k < 16) (hkey : key.length ≤ 2 ^ 61 - 1)
    (hm : 64 + m.length ≤ 2 ^ 61 - 1) (hmoves : s.moves = pseudoHmac k key m ++ rest) :
    core.run 5 s = .next (hmacDone k key m { s with moves := rest }) := by
  have hkeySize : key.length < Memory.size := hkey.trans_lt (by decide)
  have hmSize : m.length < Memory.size := by unfold Memory.size; omega
  have hseed : seedAbsorbs theHash key.length = true :=
    seedAbsorbs_iff.mpr ⟨by decide, .inr (decide_eq_true hkey)⟩
  have hupdate : updateAbsorbs theHash (seedCtx theHash key) m.length = true := by
    rw [updateAbsorbs, length_seedCtx_inner]
    exact decide_eq_true hm
  have hfinal : finalAbsorbs theHash (hmacUpdate (seedCtx theHash key) m) = true := by
    rw [finalAbsorbs, hmacUpdate_outer, length_seedCtx_outer]
    decide
  calc core.run 5 s
      = core.run 3 (hmacSeeded k key
          { s with moves := .in0 m :: issue (.hupdate k) :: issue (.hfinal k) :: rest }) :=
        core_run_in0_hseed 3 s hp hk hk16 hmoves hkeySize hseed
    _ = core.run 1 (hmacFed k key m { s with moves := issue (.hfinal k) :: rest }) :=
        core_run_in0_hupdate 1 _ (by exact hp) (by rwa [hmacSeeded_nctx]) hk16 rfl
          (hmacSeeded_slot (by exact hk) hwf hkeySize) hmSize hupdate
    _ = .next (hmacDone k key m { s with moves := rest }) :=
        core_run_hfinal 0 _ (by exact hp) (by rwa [hmacFed_nctx]) hk16 rfl
          (hmacFed_slot (by exact hk) hwf hkeySize hmSize) hfinal

/-- Settles O57: the directives name the operands, so the slot is seeded with the key and fed the message, and what
`HFINAL` leaves in `DIG` is R119's function of the two. -/
theorem pseudoHmacLeavesHmacInDig : Obligations.PseudoHmacLeavesHmacInDig := by
  intro s k key m rest hp hwf hk hk16 hkey hm hmoves
  have hctx := hmacDone_ctx k key m { s with moves := rest }
  refine ⟨hmacDone k key m { s with moves := rest }, core_run_pseudoHmac hp hwf hk hk16 hkey hm hmoves,
    finalDigest_seedCtx theHash key m, rfl, rfl, ?_, rfl, sameSlotsBut_of_ctx_set hk hctx⟩
  exact (slot_of_ctx_set s _ k k .spent hctx hk).trans (if_pos rfl)

end Sys2Proof.Machine

namespace Sys2Proof.Machine.Sha256

/-! ## The padding of SHA-256 (R98 step (1)) -/

theorem zeroCount_mod (len : Nat) : (len + 1 + zeroCount len) % 64 = 56 := by
  unfold zeroCount
  omega

theorem zeroCount_le {len k : Nat} (h : (len + 1 + k) % 64 = 56) : zeroCount len ≤ k := by
  unfold zeroCount
  omega

@[simp] theorem length_padding (len : Nat) : (padding len).length = 1 + zeroCount len + 8 := by
  simp only [padding, lengthField, List.length_append, List.length_cons, length_rep, List.length_nil]
  omega

/-- R98 step (1): the field holds 64 bits, which is room enough for `8 × len`. -/
theorem lengthField_eq {len : Nat} (h : len < 2 ^ 61) :
    lengthField len =
      [BitVec.ofNat 8 (8 * len / 2 ^ 56), BitVec.ofNat 8 (8 * len / 2 ^ 48), BitVec.ofNat 8 (8 * len / 2 ^ 40),
        BitVec.ofNat 8 (8 * len / 2 ^ 32), BitVec.ofNat 8 (8 * len / 2 ^ 24), BitVec.ofNat 8 (8 * len / 2 ^ 16),
        BitVec.ofNat 8 (8 * len / 2 ^ 8), BitVec.ofNat 8 (8 * len)] := by
  have hfits : 8 * len % 2 ^ 64 = 8 * len := Nat.mod_eq_of_lt (by omega)
  have hbyte (k : Nat) : (BitVec.ofNat 64 (8 * len)).extractLsb' k 8 = BitVec.ofNat 8 (8 * len / 2 ^ k) :=
    BitVec.eq_of_toNat_eq (by
      rw [BitVec.extractLsb'_toNat, BitVec.toNat_ofNat, hfits, Nat.shiftRight_eq_div_pow, BitVec.toNat_ofNat])
  simp only [lengthField, hbyte, Nat.pow_zero, Nat.div_one]

/-! ## The concrete running state of SHA-256 (R99) -/

/-- R91, R99: the concrete state that stands for having absorbed `m`. -/
def Concrete.ofBytes (m : Bytes) : Concrete :=
  ⟨compressAll h0 m, m.drop (64 * (m.length / 64)), BitVec.ofNat 64 m.length⟩

theorem Concrete.init_eq_ofBytes : Concrete.init = Concrete.ofBytes [] := rfl

/-- The bytes left over from `m` and those that follow leave over what the whole sequence does. -/
theorem drop_wholeBlocks_append (m d : Bytes) :
    (m.drop (64 * (m.length / 64)) ++ d).drop (64 * ((m.drop (64 * (m.length / 64)) ++ d).length / 64)) =
      (m ++ d).drop (64 * ((m ++ d).length / 64)) := by
  have hwhole : 64 * (m.length / 64) ≤ m.length := Nat.mul_div_le _ _
  rw [← List.drop_append_of_le_length hwhole, List.drop_drop, List.length_drop, List.length_append]
  congr 1
  omega

theorem Concrete.update_ofBytes (m d : Bytes) :
    (Concrete.ofBytes m).update d = Concrete.ofBytes (m ++ d) := by
  simp only [Concrete.update, Concrete.ofBytes, drop_wholeBlocks_append, ← compressAll_append]
  rw [List.length_append (as := m), BitVec.ofNat_add]

theorem Concrete.foldl_update_ofBytes (chunks : List Bytes) (m : Bytes) :
    chunks.foldl Concrete.update (Concrete.ofBytes m) = Concrete.ofBytes (m ++ chunks.flatten) := by
  induction chunks generalizing m with
  | nil => simp
  | cons d ds ih => rw [List.foldl_cons, Concrete.update_ofBytes, ih, List.flatten_cons, List.append_assoc]

theorem Concrete.length_buffer_ofBytes (m : Bytes) : (Concrete.ofBytes m).buffer.length = m.length % 64 := by
  simp only [Concrete.ofBytes, List.length_drop]
  omega

theorem Concrete.toNat_count_ofBytes {m : Bytes} (h : m.length < 2 ^ 64) :
    (Concrete.ofBytes m).count.toNat = m.length :=
  (BitVec.toNat_ofNat _ _).trans (Nat.mod_eq_of_lt h)

/-- R99: padding the tail that is left and compressing it goes on from the whole blocks before it. -/
theorem Concrete.final_ofBytes {m : Bytes} (h : m.length < 2 ^ 64) : (Concrete.ofBytes m).final = hash m := by
  rw [Concrete.final, Concrete.toNat_count_ofBytes h, hash, compressAll_append h0 m]
  rfl

end Sys2Proof.Machine.Sha256

namespace Sys2Proof.Machine

/-- Settles O55: the count of zero bytes is arithmetic modulo 64, and the length field is read byte by byte. -/
theorem sha256PaddingIsLeast : Obligations.Sha256PaddingIsLeast := by
  intro len
  have hmod := Sha256.zeroCount_mod len
  refine ⟨?_, hmod, fun _ => Sha256.zeroCount_le, Sha256.length_padding len, fun h => ?_⟩
  · rw [Sha256.length_padding]
    omega
  · rw [Sha256.padding, Sha256.lengthField_eq h]
    rfl

/-- Settles O56: by induction over the pieces, the state reached is the one that stands for their concatenation, whose
length the 64-bit count holds. -/
theorem concreteSha256MeetsTheIncrementalLaw : Obligations.ConcreteSha256MeetsTheIncrementalLaw := by
  intro chunks hlen
  rw [Sha256.Concrete.init_eq_ofBytes, Sha256.Concrete.foldl_update_ofBytes, List.nil_append]
  have hcount : chunks.flatten.length < 2 ^ 64 := hlen.trans (by decide)
  refine ⟨Sha256.Concrete.final_ofBytes hcount, ?_, Sha256.Concrete.toNat_count_ofBytes hcount⟩
  rw [Sha256.Concrete.length_buffer_ofBytes]
  omega

/-! ## Where a run is refused (R100) -/

theorem ne_live_of_st {c : Ctx} (h : c.st ≠ .live) (l : LiveCtx) : c ≠ .live l := fun hc => h (congrArg Ctx.st hc)

section Refused
variable {P : HashPrimitive} {s : State} {r : Refusal}

theorem hseedWith_refused_iff {cd : Nat} :
    hseedWith P cd s = .refused r ↔ cd < s.nctx ∧ seedAbsorbs P s.LEN0.toNat = false ∧ r = .absorbLimit := by
  obtain hcd | hcd := Nat.lt_or_ge cd s.nctx
  · cases hroom : seedAbsorbs P s.LEN0.toNat with
    | true => simp [hseedWith_completes P cd s hcd hroom]
    | false => simp [hseedWith, Nat.not_le.mpr hcd, hcd, hroom, eq_comm (a := r)]
  · simp [hseedWith_raises_index P hcd, Nat.not_lt.mpr hcd]

theorem hupdateWith_refused_iff {cd : Nat} :
    hupdateWith P cd s = .refused r ↔
      cd < s.nctx ∧ (∃ c, s.slot cd = .live c ∧ updateAbsorbs P c s.LEN0.toNat = false) ∧ r = .absorbLimit := by
  obtain hcd | hcd := Nat.lt_or_ge cd s.nctx
  · by_cases hst : (s.slot cd).st = .live
    · obtain ⟨c, hc⟩ := exists_live_of_st hst
      cases hroom : updateAbsorbs P c s.LEN0.toNat with
      | true => simp [hupdateWith_completes P cd c s hcd hc hroom, hc, hroom]
      | false => simp [hupdateWith, Nat.not_le.mpr hcd, hcd, hc, hroom, eq_comm (a := r)]
    · simp [hupdateWith_raises_state P hcd hst, ne_live_of_st hst]
  · simp [hupdateWith_raises_index P hcd, Nat.not_lt.mpr hcd]

theorem hfinalWith_refused_iff {cd : Nat} :
    hfinalWith P cd s = .refused r ↔
      cd < s.nctx ∧ (∃ c, s.slot cd = .live c ∧ finalAbsorbs P c = false) ∧ r = .absorbLimit := by
  obtain hcd | hcd := Nat.lt_or_ge cd s.nctx
  · by_cases hst : (s.slot cd).st = .live
    · obtain ⟨c, hc⟩ := exists_live_of_st hst
      cases hroom : finalAbsorbs P c with
      | true => simp [hfinalWith_completes P cd c s hcd hc hroom, hc, hroom]
      | false => simp [hfinalWith, Nat.not_le.mpr hcd, hcd, hc, hroom, eq_comm (a := r)]
    · simp [hfinalWith_raises_state P hcd hst, ne_live_of_st hst]
  · simp [hfinalWith_raises_index P hcd, Nat.not_lt.mpr hcd]

/-- R113: a copy lets no hash state absorb. -/
theorem hcloneSlots_ne_refused (cd cs : Nat) (s : State) (r : Refusal) : hcloneSlots cd cs s ≠ .refused r := by
  unfold hcloneSlots
  split
  · exact nofun
  · split
    · exact nofun
    · split
      · exact nofun
      · exact nofun
      · exact nofun

/-! ### The engine -/

theorem phaseSeed_refused (h : ¬(seedAbsorbs P s.LEN0.toNat = true ∧ absorbs P (64 + s.LEN1.toNat) = true)) :
    phaseSeed P s = .refused .absorbLimit := if_neg (by rwa [Bool.and_eq_true])

theorem phaseFirst_refused {b : LiveCtx} (hb : s.base = .live b) (hi : 1 ≤ s.i ∧ s.i ≤ s.blocks)
    (h : ¬(updateAbsorbs P b 4 = true ∧ finalAbsorbs P b = true)) : phaseFirst P s = .refused .absorbLimit := by
  simp only [phaseFirst, hb, if_pos hi, hmacClone_eq, Bool.and_eq_true]
  exact if_neg h

theorem engineRun_succ_refused (hbusy : s.phase ≠ .idle) (hstep : engineStep P s = .refused r) (n : Nat) :
    engineRun P (n + 1) s = .refused r := by
  simp only [engineRun, if_neg hbusy, hstep]

/-- R100: no hash state of a `DERIVE` on these operands absorbs more than the primitive supports. With `DKLEN = 0` there
is no block, so no `INT(i)` follows the salt and no digest is finalized. -/
def DeriveFits (P : HashPrimitive) (s : State) : Prop :=
  (seedAbsorbs P s.LEN0.toNat = true ∧ absorbs P (64 + s.LEN1.toNat) = true) ∧
    (s.DKLEN ≠ 0 → absorbs P (64 + s.LEN1.toNat + 4) = true ∧ absorbs P 96 = true)

theorem deriveAbsorbs_of_deriveFits (h : DeriveFits P s) (hd : s.DKLEN ≠ 0) : deriveAbsorbs P s = true := by
  obtain ⟨⟨hseed, -⟩, hblock⟩ := h
  obtain ⟨hcounter, hprf⟩ := hblock hd
  obtain ⟨-, hkey⟩ := seedAbsorbs_iff.mp hseed
  exact deriveAbsorbs_iff.mpr ⟨hcounter, hprf, hkey⟩

/-- R151: with no block to compute the run is `P_SEED` and `P_CLEAR`. -/
theorem engineRun_engineSteps_of_noBlock (hchk : s.ChecksPassed) (hd : s.DKLEN = 0) (h : DeriveFits P s) :
    ∃ t, engineRun P (engineSteps s) (engineStart s) = .next t := by
  obtain ⟨⟨hkey, hsalt⟩, -⟩ := h
  have hblocks : (blocksOf s.DKLEN).toNat = 0 := (toNat_blocksOf_eq_zero_iff hchk.1).mpr hd
  have hsteps : engineSteps s = 0 + 1 + 1 := by rw [engineSteps, hblocks, Nat.zero_mul]
  have hseed : engineStep P (engineStart s) = .next (seededState P (engineStart s)) :=
    phaseSeed_eq P (engineStart s) hkey hsalt
  have hphase : (seededState P (engineStart s)).phase = .pClear := by
    simp only [seededState, engineStart_DKLEN, hd]
    decide
  exact ⟨_, hsteps ▸ engineRun_snoc (engineRun_snoc rfl (by simp) hseed) (by simp [hphase])
    (engineStep_of_pClear P hphase)⟩

theorem engineRun_engineSteps_of_fits (hchk : s.ChecksPassed) (h : DeriveFits P s) :
    ∃ t, engineRun P (engineSteps s) (engineStart s) = .next t := by
  by_cases hd : s.DKLEN = 0
  · exact engineRun_engineSteps_of_noBlock hchk hd h
  · exact ⟨_, engineRun_engineSteps hchk (deriveAbsorbs_of_deriveFits h hd)⟩

/-- R100: `P_SEED` asks for the lengths of key and salt, and the first `P_FIRST` for the two that a block adds. -/
theorem engineRun_engineSteps_refused (hchk : s.ChecksPassed) (h : ¬DeriveFits P s) :
    engineRun P (engineSteps s) (engineStart s) = .refused .absorbLimit := by
  rw [engineSteps, Nat.add_comm]
  by_cases hseed : seedAbsorbs P s.LEN0.toNat = true ∧ absorbs P (64 + s.LEN1.toNat) = true
  · obtain ⟨hd, hblock⟩ := Classical.not_imp.mp fun hb => h ⟨hseed, hb⟩
    have hpos : 0 < (blocksOf s.DKLEN).toNat :=
      Nat.pos_of_ne_zero fun h0 => hd ((toNat_blocksOf_eq_zero_iff hchk.1).mp h0)
    have hlen : s.salt.length = s.LEN1.toNat := length_operand1 s
    have hstep : engineStep P (engineStart s) = .next (blockStart P s 0 s) :=
      (phaseSeed_eq P (engineStart s) hseed.1 hseed.2).trans (congrArg _ (seededState_eq_blockStart hpos))
    have hfirst : engineStep P (blockStart P s 0 s) = .refused .absorbLimit :=
      (engineStep_of_pFirst P rfl).trans <| phaseFirst_refused rfl (ofNat_mem_blocks hchk hpos)
        (by simpa [updateAbsorbs, finalAbsorbs, hlen] using hblock)
    rw [engineRun_succ P _ _ _ (by simp) hstep]
    exact engineRun_succ_refused (by simp [blockStart]) hfirst _
  · have hstep : engineStep P (engineStart s) = .refused .absorbLimit :=
      (engineStep_of_pSeed P rfl).trans (phaseSeed_refused hseed)
    exact engineRun_succ_refused (by simp) hstep _

theorem deriveWith_refused_iff :
    deriveWith P s = .refused r ↔ s.ChecksPassed ∧ ¬DeriveFits P s ∧ r = .absorbLimit := by
  cases hcheck : deriveCheck s with
  | some e =>
    have hfail : ¬s.ChecksPassed := fun h => by simp [deriveCheck_eq_none_iff.mpr h] at hcheck
    simp [deriveWith_raises P hcheck, hfail]
  | none =>
    have hchk := deriveCheck_eq_none_iff.mp hcheck
    by_cases hfits : DeriveFits P s
    · obtain ⟨t, ht⟩ := engineRun_engineSteps_of_fits hchk hfits
      simp [deriveWith, hcheck, ht, hfits, complete_eq]
    · simp only [deriveWith, hcheck, engineRun_engineSteps_refused hchk hfits, Host.Outcome.refused.injEq]
      exact ⟨fun h => ⟨hchk, hfits, h.symm⟩, fun ⟨_, _, h⟩ => h.symm⟩

/-- R100: the limit is the one ground on which a command is refused. -/
theorem execWith_refused {i : Instr} (h : execWith P i s = .refused r) : r = .absorbLimit := by
  cases i with
  | hseed cd =>
    obtain ⟨-, -, rfl⟩ := hseedWith_refused_iff.mp h
    rfl
  | hupdate cd =>
    obtain ⟨-, -, rfl⟩ := hupdateWith_refused_iff.mp h
    rfl
  | hfinal cd =>
    obtain ⟨-, -, rfl⟩ := hfinalWith_refused_iff.mp h
    rfl
  | hclone cd cs => exact absurd h (hcloneSlots_ne_refused cd cs s r)
  | derive =>
    obtain ⟨-, -, rfl⟩ := deriveWith_refused_iff.mp h
    rfl

end Refused

/-! ### The limit of SHA-256 -/

theorem absorbs_theHash_eq_false_iff {n : Nat} : absorbs theHash n = false ↔ 2 ^ 61 - 1 < n := by
  rw [absorbs_theHash, decide_eq_false_iff_not, Nat.not_le]

theorem seedAbsorbs_theHash (n : Nat) : seedAbsorbs theHash n = absorbs theHash n := by
  rw [Bool.eq_iff_iff, seedAbsorbs_iff]
  simp only [absorbs_theHash, decide_eq_true_eq]
  omega

theorem not_deriveFits_theHash_iff {s : State} :
    ¬DeriveFits theHash s ↔ 2 ^ 61 - 1 < s.LEN0.toNat ∨ 2 ^ 61 - 1 < 64 + s.LEN1.toNat ∨
      (s.DKLEN ≠ 0 ∧ 2 ^ 61 - 1 < 64 + s.LEN1.toNat + 4) := by
  have hprf : absorbs theHash 96 = true := rfl
  simp only [DeriveFits, seedAbsorbs_theHash, not_and_or, Classical.not_imp, hprf, and_true, Bool.not_eq_true,
    absorbs_theHash_eq_false_iff, or_assoc]

/-- Settles O43: a command is refused exactly where it asks the limit of its primitive for too much, and with SHA-256
what it asks comes down to the lengths of the statement. -/
theorem refusesExactlyPastMaxAbsorb : Obligations.RefusesExactlyPastMaxAbsorb := by
  intro s cd cs
  refine ⟨fun r => ?_, fun r => ?_, fun r => ?_, hcloneSlots_ne_refused cd cs s, fun r => ?_⟩
  · rw [← absorbs_theHash_eq_false_iff, ← seedAbsorbs_theHash]
    exact hseedWith_refused_iff
  · simp only [← absorbs_theHash_eq_false_iff]
    exact hupdateWith_refused_iff
  · simp only [← absorbs_theHash_eq_false_iff]
    exact hfinalWith_refused_iff
  · rw [← not_deriveFits_theHash_iff]
    exact deriveWith_refused_iff

/-! ## Reset presented with a word that starts no engine (R210, D1, log 12) -/

theorem hardReset_eq_of_sameOutsideUnit {s t : State} (h : State.SameOutsideUnit s t) : t.hardReset = s.hardReset := by
  simp only [State.hardReset, h.nctx, h.in0, h.in1, h.out, h.moves]

/-- R189: a `DERIVE` whose checks fail raises. -/
theorem exec_derive_raises {s : State} (h : ¬s.ChecksPassed) : ∃ e, exec .derive s = .next (raised e s) := by
  cases hcheck : deriveCheck s with
  | some e => exact ⟨e, deriveWith_raises theHash hcheck⟩
  | none => exact absurd (deriveCheck_eq_none_iff.mp hcheck) h

/-- D1: a `DERIVE` whose checks fail is as atomic as a command of the HMAC unit, and no such command faults. -/
theorem exec_ne_fault_of_atomic {i : Instr} {s : State} (h : ¬(i = .derive ∧ s.ChecksPassed)) (r : Fault) :
    exec i s ≠ .fault r := by
  cases i with
  | hseed cd => exact hseedWith_ne_fault cd r
  | hupdate cd => exact hupdateWith_ne_fault cd r
  | hfinal cd => exact hfinalWith_ne_fault cd r
  | hclone cd cs => exact hcloneSlots_ne_fault cd cs r
  | derive =>
    obtain ⟨e, he⟩ := exec_derive_raises fun hchk => h ⟨rfl, hchk⟩
    rw [he]
    exact nofun

theorem answers_of_ne_fault {a : Answer} (hfault : ∀ r, a ≠ .fault r)
    (hrefused : ∀ r, a = .refused r → r = .absorbLimit) : (∃ t, a = .next t) ∨ a = .refused .absorbLimit := by
  cases a with
  | next t => exact .inl ⟨t, rfl⟩
  | fault r => exact absurd rfl (hfault r)
  | refused r => exact .inr (congrArg _ (hrefused r rfl))

section Atomic
variable {w : CmdWord} {s : State} (hw : ¬(decode w = .instr .derive ∧ s.ChecksPassed))
include hw

/-- D1: such a word is a command of the HMAC unit, or it raises. -/
theorem runWord_sameOutsideUnit {t : State} (h : runWord w s = .next t) : State.SameOutsideUnit s t := by
  obtain ⟨i, hd, hi⟩ | ⟨-, rfl⟩ := runWord_next w s t h
  · by_cases hderive : i = .derive
    · subst hderive
      obtain ⟨e, he⟩ := exec_derive_raises fun hchk => hw ⟨hd, hchk⟩
      cases he.symm.trans hi
      exact sameOutsideUnit_raised e s
    · exact exec_sameOutsideUnit hi hderive
  · exact sameOutsideUnit_raised _ s

/-- R100: such a word is performed, or refused by the limit; it faults in no state. -/
theorem runWord_answers : (∃ t, runWord w s = .next t) ∨ runWord w s = .refused .absorbLimit := by
  cases hd : decode w with
  | instr i =>
    rw [runWord_instr w i s hd]
    exact answers_of_ne_fault (exec_ne_fault_of_atomic fun ⟨hi, hchk⟩ => hw ⟨hi ▸ hd, hchk⟩)
      fun _ hr => execWith_refused (execWith_theHash ▸ hr)
  | illegal why => exact .inl ⟨_, runWord_illegal w why s hd⟩

theorem resetDuring_of_atomic (k : Nat) : resetDuring theHash exec w k s = thenReset (runWord w s) := by
  obtain ⟨hd, hcheck, -⟩ | ⟨-, heq⟩ := resetDuring_eq theHash exec w k s
  · exact absurd ⟨hd, deriveCheck_eq_none_iff.mp hcheck⟩ hw
  · exact heq

end Atomic

/-- Settles O50: the word changes neither the number of slots nor what the host owns, so the reset after it gives what a
reset before it would; where the word stops, the reset is not reached. -/
theorem resetFollowsAnAtomicCommand : Obligations.ResetFollowsAnAtomicCommand := by
  intro s w k rest hp hm hw
  have hatomic : ¬(decode w = .instr .derive ∧ State.ChecksPassed { s with moves := rest }) := hw
  have hstep : step s = thenReset (runWord w { s with moves := rest }) :=
    (step_move s _ rest hp hm).trans (resetDuring_of_atomic hatomic k)
  refine ⟨fun t ht => ?_, fun r hr => ?_, runWord_answers hatomic⟩
  · rw [hstep, ht, thenReset, hardReset_eq_of_sameOutsideUnit (runWord_sameOutsideUnit hatomic ht)]
    rfl
  · rw [hstep, hr, thenReset]

end Sys2Proof.Machine

namespace Sys2Proof.Machine

/-! ## The commands of the HMAC unit, each with its exact answer (R115 to R118) -/

/-- R70, R79: the word the encoder gives a well-formed command performs it. -/
theorem runWord_encode {i : Instr} (h : i.wf = true) (s : State) : runWord (encode i) s = exec i s :=
  runWord_instr (encode i) i s (decode_encode h)

/-- R186: a command that needs a LIVE context, and whose indices are in the file, raises ContextState on another. -/
theorem exec_raises_contextState {i : Instr} {s : State} {k code : Nat} {c : Ctx}
    (hnamed : ∀ l ∈ slotsNamed i, l < s.nctx) (hneeded : liveNeeded i = some k) (hc : s.slot k = c)
    (hst : c.st ≠ .live) (hcode : c.st.code = code) :
    exec i s = .next { s with ERR := 5, ERRINFO := BitVec.ofNat 64 (k * 256 + code) } := by
  subst hc hcode
  cases i with
  | hseed cd => cases hneeded
  | hupdate cd =>
    cases hneeded
    exact hupdateWith_raises_state theHash (hnamed k List.mem_cons_self) hst
  | hfinal cd =>
    cases hneeded
    exact hfinalWith_raises_state theHash (hnamed k List.mem_cons_self) hst
  | hclone cd cs =>
    cases hneeded
    exact hcloneSlots_raises_state (hnamed cd List.mem_cons_self) (hnamed k (List.mem_pair.mpr (.inr rfl))) hst
  | derive => cases hneeded

theorem absorbs_theHash_iff {n : Nat} : absorbs theHash n = true ↔ n ≤ 2 ^ 61 - 1 := by
  rw [absorbs_theHash, decide_eq_true_iff]

/-- Settles O10: within the limit `HSEED` completes with the seeded context, which is written out from the key block. -/
theorem hseedSeedsTheSlot : Obligations.HseedSeedsTheSlot := by
  intro cd s
  refine ⟨fun hcd hlen => hseedWith_completes theHash cd s hcd ?_, hseedWith_raises_index theHash,
    fun hcd => runWord_encode (i := .hseed cd) (decide_eq_true hcd) s⟩
  rwa [seedAbsorbs_theHash, absorbs_theHash_iff]

/-- Settles O11: the limit lets a LIVE slot complete; the raises are those of every command that needs a LIVE context. -/
theorem hupdateFeedsTheInnerState : Obligations.HupdateFeedsTheInnerState := by
  intro cd s
  have hnamed (hcd : cd < s.nctx) : ∀ l ∈ slotsNamed (.hupdate cd), l < s.nctx := by simpa [slotsNamed] using hcd
  exact ⟨fun c hcd hc hlen => hupdateWith_completes theHash cd c s hcd hc (absorbs_theHash_iff.mpr hlen),
    fun hcd hc => exec_raises_contextState (hnamed hcd) rfl hc nofun rfl,
    fun hcd hc => exec_raises_contextState (hnamed hcd) rfl hc nofun rfl, hupdateWith_raises_index theHash,
    fun hcd => runWord_encode (i := .hupdate cd) (decide_eq_true hcd) s⟩

/-- Settles O12: as for `HUPDATE`; the digest is R112's, and a SPENT record has both hash states `HZERO`. -/
theorem hfinalPutsTheMacInDig : Obligations.HfinalPutsTheMacInDig := by
  intro cd s
  have hnamed (hcd : cd < s.nctx) : ∀ l ∈ slotsNamed (.hfinal cd), l < s.nctx := by simpa [slotsNamed] using hcd
  exact ⟨fun c hcd hc hlen => hfinalWith_completes theHash cd c s hcd hc (absorbs_theHash_iff.mpr hlen),
    fun hcd hc => exec_raises_contextState (hnamed hcd) rfl hc nofun rfl,
    fun hcd hc => exec_raises_contextState (hnamed hcd) rfl hc nofun rfl, hfinalWith_raises_index theHash,
    ⟨rfl, rfl⟩, fun hcd => runWord_encode (i := .hfinal cd) (decide_eq_true hcd) s⟩

/-- R118: writing a slot with what it holds changes nothing. -/
theorem set_slot_self {s : State} {k : Nat} (h : k < s.nctx) : s.ctx.set k (s.slot k) = s.ctx := by
  have hk : k < s.ctx.length := h
  rw [State.slot, List.getD_eq_getElem _ _ hk, List.set_getElem_self]

/-- Settles O13: the checks in their order, destination, source, status of the source; then the copy. -/
theorem hcloneCopiesTheSlot : Obligations.HcloneCopiesTheSlot := by
  intro cd cs s
  have hnamed (hcd : cd < s.nctx) (hcs : cs < s.nctx) : ∀ l ∈ slotsNamed (.hclone cd cs), l < s.nctx := by
    simpa [slotsNamed] using ⟨hcd, hcs⟩
  exact ⟨fun c hcd hcs hc => hcloneSlots_completes cd cs c s hcd hcs hc, fun c hcd hc => hc ▸ set_slot_self hcd,
    hcloneSlots_raises_index, hcloneSlots_raises_sourceIndex,
    fun hcd hcs hc => exec_raises_contextState (hnamed hcd hcs) rfl hc nofun rfl,
    fun hcd hcs hc => exec_raises_contextState (hnamed hcd hcs) rfl hc nofun rfl,
    fun hcd hcs => runWord_encode (i := .hclone cd cs) ((Instr.wf_iff _).mpr ⟨hcd, hcs⟩) s⟩

/-! ## The life cycle of a slot (R122) -/

theorem st_of_ctx_set {s t : State} {k : Nat} {c : Ctx} (l : Nat) (ht : t.ctx = s.ctx.set k c) (hk : k < s.nctx) :
    (t.slot l).st = if l = k then c.st else (s.slot l).st := by
  rw [slot_of_ctx_set s t k l c ht hk, apply_ite Ctx.st]

theorem slot_hardReset (s : State) (k : Nat) : s.hardReset.slot k = .empty := by
  rw [State.slot, hardReset_ctx, List.getD_eq_getElem?_getD, List.getElem?_replicate]
  split
  · rfl
  · rfl

section LifeCycle
variable {s t : State} {cd cs k : Nat}

theorem exec_hseed_st (h : exec (.hseed cd) s = .next t) (hk : k < s.nctx) :
    (t.slot k).st = if k = cd then .live else (s.slot k).st := by
  obtain ⟨hcd, rfl⟩ | ⟨hcd, rfl⟩ := hseedWith_next theHash cd s t h
  · exact (if_neg (hk.trans_le hcd).ne).symm
  · exact st_of_ctx_set (c := .live (seedCtx theHash (operand0 s))) k rfl hcd

theorem exec_hupdate_st (h : exec (.hupdate cd) s = .next t) : (t.slot k).st = (s.slot k).st := by
  obtain ⟨-, rfl⟩ | ⟨-, -, rfl⟩ | ⟨hcd, c, hc, rfl⟩ := hupdateWith_next theHash cd s t h
  · rfl
  · rfl
  · rw [st_of_ctx_set k rfl hcd]
    split
    next hk => rw [hk, hc, Ctx.st, Ctx.st]
    next => rfl

theorem exec_hfinal_st (h : exec (.hfinal cd) s = .next t) (hk : k < s.nctx) :
    (t.slot k).st = if k = cd ∧ (s.slot k).st = .live then .spent else (s.slot k).st := by
  obtain ⟨hcd, rfl⟩ | ⟨-, hst, rfl⟩ | ⟨hcd, c, hc, rfl⟩ := hfinalWith_next theHash cd s t h
  · exact (if_neg fun ⟨hkcd, _⟩ => (hk.trans_le hcd).ne hkcd).symm
  · exact (if_neg fun ⟨hkcd, hlive⟩ => hst (hkcd ▸ hlive)).symm
  · have hlive : k = cd → (s.slot k).st = .live := fun hkcd => by rw [hkcd, hc, Ctx.st]
    rw [st_of_ctx_set k rfl hcd]
    simp only [and_iff_left_of_imp hlive]
    rfl

theorem exec_hclone_st (h : exec (.hclone cd cs) s = .next t) (hk : k < s.nctx) :
    (t.slot k).st = if k = cd ∧ cs < s.nctx ∧ (s.slot cs).st = .live then .live else (s.slot k).st := by
  obtain ⟨hcd, rfl⟩ | ⟨-, hcs, rfl⟩ | ⟨-, -, hst, rfl⟩ | ⟨hcd, hcs, c, hc, rfl⟩ := hcloneSlots_next cd cs s t h
  · exact (if_neg fun ⟨hkcd, _⟩ => (hk.trans_le hcd).ne hkcd).symm
  · exact (if_neg fun ⟨_, hlt, _⟩ => hlt.not_ge hcs).symm
  · exact (if_neg fun ⟨_, _, hlive⟩ => hst hlive).symm
  · have hlive : cs < s.nctx ∧ (s.slot cs).st = .live := ⟨hcs, congrArg Ctx.st hc⟩
    rw [st_of_ctx_set k rfl hcd]
    simp only [and_iff_left hlive]
    rfl

theorem exec_derive_slot (h : exec .derive s = .next t) (k : Nat) : t.slot k = s.slot k := by
  obtain ⟨e, -, rfl⟩ | ⟨-, hdone⟩ := exec_next h
  · rfl
  · cases hdone
    rfl

end LifeCycle

/-- Settles O15: a row of R122's table for each command; the dash is ContextState, and the frame of a command is the slot
it writes. -/
theorem slotStatusLifeCycle : Obligations.SlotStatusLifeCycle := by
  refine ⟨fun i s t h k hk => ?_, fun i s t k h hnamed hneeded hst => ?_, fun i s t k h hother => ?_,
    fun s k => congrArg Ctx.st (slot_hardReset s k)⟩
  · cases i with
    | hseed cd => exact exec_hseed_st h hk
    | hupdate cd => exact exec_hupdate_st h
    | hfinal cd => exact exec_hfinal_st h hk
    | hclone cd cs => exact exec_hclone_st h hk
    | derive => exact congrArg Ctx.st (exec_derive_slot h k)
  · cases h.symm.trans (exec_raises_contextState hnamed hneeded rfl hst rfl)
    exact ⟨rfl, rfl⟩
  · cases i with
    | hseed cd => exact (exec_sameSlotsBut h rfl).2 k hother
    | hupdate cd => exact (exec_sameSlotsBut h rfl).2 k hother
    | hfinal cd => exact (exec_sameSlotsBut h rfl).2 k hother
    | hclone cd cs => exact (exec_sameSlotsBut h rfl).2 k hother
    | derive => exact exec_derive_slot h k

/-! ## What the unit computes (R119 to R121) -/

/-- R111: feeding pieces one after another is feeding their concatenation. -/
theorem foldl_hmacUpdate (chunks : List Bytes) (c : LiveCtx) :
    chunks.foldl hmacUpdate c = hmacUpdate c chunks.flatten := by
  induction chunks generalizing c with
  | nil => simp [hmacUpdate, HUpdate]
  | cons d ds ih => rw [List.foldl_cons, ih, hmacUpdate_hmacUpdate, List.flatten_cons]

/-- R110 to R112, R119: seeding, feeding pieces and finalizing computes `HMAC`. -/
theorem hmacFinal_foldl_hmacSeed (P : HashPrimitive) (key : Bytes) (chunks : List Bytes) (s s' : State) :
    (hmacFinal P (chunks.foldl hmacUpdate (hmacSeed P key s).1) s').1 = hmac P key chunks.flatten := by
  rw [hmacSeed_eq, foldl_hmacUpdate, hmacFinal_eq, finalDigest_seedCtx]

/-- Settles O17: by induction over the pieces they are fed as one message, and `hmac` is R119's formula. -/
theorem finalOfSplitUpdatesIsHmac : Obligations.FinalOfSplitUpdatesIsHmac :=
  fun P K chunks s s' => hmacFinal_foldl_hmacSeed P K chunks s s'

section Key
variable (P : HashPrimitive) {key : Bytes}

theorem reducedKey_of_long (h : 64 < key.length) : reducedKey P key = (P.hash key).val := if_pos h

theorem reducedKey_of_short (h : key.length ≤ 64) : reducedKey P key = key := if_neg (Nat.not_lt.mpr h)

theorem reducedKey_eq : reducedKey P key = if key.length ≤ 64 then key else (P.hash key).val := by
  simp only [reducedKey, ← Nat.not_le, ite_not]

theorem length_reducedKey : (reducedKey P key).length = if key.length ≤ 64 then key.length else 32 := by
  rw [reducedKey_eq, apply_ite List.length, (P.hash key).2]

/-- R120: a long key and its digest, which is short, reduce to the same bytes. -/
theorem reducedKey_hash (h : 64 < key.length) : reducedKey P (P.hash key).val = reducedKey P key := by
  have hshort : (P.hash key).val.length ≤ 64 := (P.hash key).2.trans_le (by decide)
  rw [reducedKey_of_short P hshort, reducedKey_of_long P h]

theorem keyBlock_hash (h : 64 < key.length) : keyBlock P (P.hash key).val = keyBlock P key := by
  rw [keyBlock, reducedKey_hash P h, keyBlock]

theorem hmac_hash (h : 64 < key.length) (m : Bytes) : hmac P (P.hash key).val m = hmac P key m := by
  rw [hmac, keyBlock_hash P h, hmac]

end Key

/-- Settles O18: the two keys give the same key block; finalizing with no update is `HMAC` of the empty message. -/
theorem longKeyFolding : Obligations.LongKeyFolding := by
  intro P K hlong
  refine ⟨fun m => (hmac_hash P hlong m).symm, fun s => ?_⟩
  have hfinal (key : Bytes) : (hmacFinal P (hmacSeed P key s).1 s).1 = hmac P key [] :=
    hmacFinal_foldl_hmacSeed P key [] s s
  rw [hfinal, hfinal, hmac_hash P hlong]

/-- R119: past its end the key reads as the zeros that extend it. -/
theorem getD_keyBlock (P : HashPrimitive) (key : Bytes) (t : Nat) :
    (keyBlock P key).getD t 0 = (reducedKey P key).getD t 0 := by
  obtain hkey | hkey := Nat.lt_or_ge t (reducedKey P key).length
  · exact List.getD_append _ _ _ _ hkey
  · rw [keyBlock, List.getD_append_right _ _ _ _ hkey, List.getD_eq_default _ _ hkey]
    exact List.getElem?_getD_replicate_default_eq _ _ _

/-- R121: a byte of a pad block is the constant XORed with the key byte, and the constant alone past the key. -/
theorem getD_xorBytes_keyBlock (P : HashPrimitive) (key : Bytes) (c : Byte) {t : Nat} (ht : t < 64) :
    (xorBytes (keyBlock P key) (rep c 64)).getD t 0 =
      if t < (reducedKey P key).length then c ^^^ (reducedKey P key).getD t 0 else c := by
  have hblock : t < (keyBlock P key).length := ht.trans_eq (length_keyBlock P key).symm
  have hpad : t < (xorBytes (keyBlock P key) (rep c 64)).length := by
    rwa [length_xorBytes, length_keyBlock, length_rep, Nat.min_self]
  have hbyte : (xorBytes (keyBlock P key) (rep c 64)).getD t 0 = c ^^^ (reducedKey P key).getD t 0 := by
    rw [List.getD_eq_getElem _ _ hpad, ← getD_keyBlock, List.getD_eq_getElem _ _ hblock, BitVec.xor_comm]
    simp only [xorBytes, rep, List.getElem_zipWith, List.getElem_replicate]
  split
  next hkey => exact hbyte
  next hkey =>
    rw [hbyte, List.getD_eq_default _ _ (Nat.not_lt.mp hkey)]
    exact BitVec.xor_zero

/-- Settles O19: `klen` is the length of the reduced key, and the two pad blocks are its block XORed with a constant. -/
theorem keyLengthBoundary : Obligations.KeyLengthBoundary := by
  intro P key s
  simp only [hmacSeed_eq]
  exact ⟨length_reducedKey P, reducedKey_eq P, length_seedCtx_inner P key, length_seedCtx_outer P key,
    fun t ht => ⟨getD_xorBytes_keyBlock P key 0x36 ht, getD_xorBytes_keyBlock P key 0x5c ht⟩⟩

end Sys2Proof.Machine

namespace Sys2Proof.Machine

/-! ## The phases, each with its exact answer (R142 to R147) -/

/-- Settles O20: `hmac_seed` returns the context of the key and clears the buffers, whatever the state. -/
theorem seedDependsOnTheKeyAlone : Obligations.SeedDependsOnTheKeyAlone := by
  intro P key s s'
  simp only [hmacSeed_eq]
  exact ⟨rfl, rfl, rfl, rfl⟩

theorem clearedState_atBoundary {s : State} (h : s.BuffersCleared) : (clearedState s).AtBoundary :=
  ⟨rfl, rfl, rfl, rfl, rfl, rfl, rfl, rfl, h⟩

/-- Settles O35: `P_CLEAR` writes every register of the engine, which is what the boundary asks beside the buffers. -/
theorem phaseClearClearsTheEngine : Obligations.PhaseClearClearsTheEngine := by
  intro P s hp
  have hstep := engineStep_of_pClear P hp
  refine ⟨hstep, ⟨rfl, rfl, rfl⟩, fun hbuffers t ht => ?_⟩
  cases hstep.symm.trans ht
  exact clearedState_atBoundary hbuffers

theorem one_le_iff_toNat {x : U64} : 1 ≤ x ↔ 1 ≤ x.toNat := BitVec.le_def

theorem le_maxDklen_iff {d : U64} : d ≤ MAX_DKLEN ↔ d.toNat ≤ 137438953440 := BitVec.le_def

theorem maxDklen_lt_iff {d : U64} : MAX_DKLEN < d ↔ 137438953440 < d.toNat := BitVec.lt_def

/-- R140, R188: past the range `DERIVE` raises before it looks at anything else. -/
theorem deriveWith_raises_range (P : HashPrimitive) {s : State} (h : MAX_DKLEN < s.DKLEN) :
    deriveWith P s = .next (raised (.rangeError s.DKLEN) s) := deriveWith_raises P (if_pos h)

theorem toNat_add_one_of_lt {j c : U64} (h : j < c) : (j + 1).toNat = j.toNat + 1 :=
  BitVec.toNat_add_of_not_uaddOverflow (y := 1) <| by
    have hjc : j.toNat < c.toNat := BitVec.lt_def.mp h
    have hc := c.isLt
    simp only [BitVec.uaddOverflow, BitVec.reduceToNat, decide_eq_true_eq]
    omega

/-- Settles O36: the counters of the sequencer in `Nat`; the range is checked before any of them. -/
theorem engineArithmeticDoesNotWrap : Obligations.EngineArithmeticDoesNotWrap := by
  intro d i hd
  have hrange := le_maxDklen_iff.mp hd
  have hblocks := toNat_blocksOf_lt hd
  refine ⟨by omega, toNat_blocksOf hd, by omega, fun h1 h2 => ?_, fun j c hjc => ?_,
    fun P s => deriveWith_raises_range P⟩
  · have hi : i.toNat ≤ (blocksOf d).toNat := BitVec.le_def.mp h2
    have hoff := toNat_outOffset h1 (by omega)
    have hlt := outOffset_lt_dklen hd h1 h2
    have hroom : (outOffset i).toNat < d.toNat := BitVec.lt_def.mp hlt
    exact ⟨by omega, by omega, by omega, toNat_outCount hlt⟩
  · have hsucc := toNat_add_one_of_lt hjc
    have hlt : j.toNat < c.toNat := BitVec.lt_def.mp hjc
    exact ⟨hsucc, by omega⟩

theorem blocksOf_eq_ofNat {d : U64} (hd : d ≤ MAX_DKLEN) : blocksOf d = BitVec.ofNat 64 ((d.toNat + 31) / 32) := by
  rw [← toNat_blocksOf hd, BitVec.ofNat_toNat, BitVec.setWidth_eq]

/-- Settles O31: the limit allows the two absorptions of `P_SEED`, and `blocks` is exact. -/
theorem phaseSeedBuildsTheBase : Obligations.PhaseSeedBuildsTheBase := by
  intro P s hp hd habs
  have hone : 1 ≤ blocksOf s.DKLEN ↔ 1 ≤ (s.DKLEN.toNat + 31) / 32 := by rw [one_le_iff_toNat, toNat_blocksOf hd]
  rw [engineStep_of_pSeed P hp, phaseSeed_eq P s (deriveAbsorbs_seed habs) (deriveAbsorbs_salt habs)]
  simp only [seededState, hone]
  rw [blocksOf_eq_ofNat hd]
  rfl

/-- Settles O32: on the base context of R143 the digest finalized is `HMAC` of the salt and `INT(i)`. -/
theorem phaseFirstComputesU1 : Obligations.PhaseFirstComputesU1 := by
  intro P s passwd salt hp hbase h1 h2 hcounter hprf
  have hone : 1 < s.C ↔ 1 < s.C.toNat := BitVec.lt_def
  have hupdate : updateAbsorbs P (hmacUpdate (seedCtx P passwd) salt) 4 = true := by
    simpa [updateAbsorbs] using hcounter
  have hfinal : finalAbsorbs P (hmacUpdate (seedCtx P passwd) salt) = true := by simpa [finalAbsorbs] using hprf
  rw [engineStep_of_pFirst P hp, phaseFirst_eq P (hmacUpdate (seedCtx P passwd) salt) s hbase
    ⟨one_le_iff_toNat.mpr h1, BitVec.le_def.mpr h2⟩ hupdate hfinal]
  simp only [firstState, hmacUpdate_hmacUpdate, finalDigest_seedCtx, hone]

/-- R149: each byte of the XOR of two blocks is the XOR of their bytes. -/
theorem getD_xor {n : Nat} (a b : Block n) {q : Nat} (hq : q < n) :
    (a.xor b).val.getD q 0 = a.val.getD q 0 ^^^ b.val.getD q 0 := by
  rw [List.getD_eq_getElem _ _ ((a.xor b).2.symm ▸ hq), List.getD_eq_getElem _ _ (a.2.symm ▸ hq),
    List.getD_eq_getElem _ _ (b.2.symm ▸ hq)]
  exact List.getElem_zipWith

/-- Settles O33: the state after `P_ITER` is R145's, whose accumulator is read byte by byte. -/
theorem phaseIterChainsAndAccumulates : Obligations.PhaseIterChainsAndAccumulates := by
  intro P s hp h1 hlt hseed hprf
  have hj : s.j < s.C := BitVec.lt_def.mpr hlt
  have hsucc : (iterState P s).j.toNat = s.j.toNat + 1 := toNat_add_one_of_lt hj
  refine ⟨iterState P s, ?_, rfl, rfl, fun q => getD_xor s.T _, hsucc, by omega, if_congr BitVec.lt_def rfl rfl⟩
  rw [engineStep_of_pIter P hp, phaseIter_eq P s ⟨one_le_iff_toNat.mpr h1, hj⟩ hseed hprf]

/-- Settles O34: the offset and the count are exact, and the bytes written are those of `T` from its first on. -/
theorem phaseCopyWritesTheHeadOfT : Obligations.PhaseCopyWritesTheHeadOfT := by
  intro P s hp hd hblocks h1 h2 hj off n
  have heq : blocksOf s.DKLEN = s.blocks := BitVec.eq_of_toNat_eq ((toNat_blocksOf hd).trans hblocks.symm)
  have hi : 1 ≤ s.i ∧ s.i ≤ s.blocks := ⟨one_le_iff_toNat.mpr h1, BitVec.le_def.mpr h2⟩
  have hlt : outOffset s.i < s.DKLEN := outOffset_lt_dklen hd hi.1 (heq ▸ hi.2)
  have hbound := toNat_blocksOf_lt hd
  have hoff : (outOffset s.i).toNat = off :=
    (toNat_outOffset hi.1 (by rw [heq] at hbound; omega)).trans (Nat.mul_comm _ _)
  have hcount : (outCount s.DKLEN s.i).toNat = n := by rw [toNat_outCount hlt, hoff]
  have hlast : s.i = s.blocks ↔ s.i.toNat = s.blocks.toNat := BitVec.toNat_inj.symm
  have hlen : (s.T.val.take n).length = n := by
    rw [List.length_take, s.T.2]
    exact Nat.min_eq_left (Nat.min_le_left _ _)
  have hDKLEN := le_maxDklen_iff.mp hd
  refine ⟨by omega, by omega, fun h => ?_, fun h => ?_, ?_, fun a ha => ?_, fun hwf q hq => ?_⟩
  · rw [Ne, hlast] at h
    omega
  · rw [hlast] at h
    omega
  · rw [engineStep_of_pCopy P hp, phaseCopy_eq s hi hj hlt, copyState, hoff, hcount]
  · exact Memory.read_writeBytes_outside _ s.OUT off a (by rwa [hlen])
  · have hfit : off + (s.T.val.take n).length ≤ Memory.size := by
      rw [hlen, Memory.size]
      omega
    rw [Memory.read_writeBytes_inside _ s.OUT off q hwf hfit (by rwa [hlen]), List.getElem_take,
      List.getD_eq_getElem]

end Sys2Proof.Machine

namespace Sys2Proof.Machine

/-! ## The engine from `P_SEED` to `IDLE` (R140, R142, R151) -/

theorem deriveWith_of_engineRun {P : HashPrimitive} {s t : State} (hchk : s.ChecksPassed)
    (h : engineRun P (engineSteps s) (engineStart s) = .next t) :
    deriveWith P s = .next { t with ERR := 0, ERRINFO := 0 } := by
  simp only [deriveWith, deriveCheck_eq_none_iff.mpr hchk, h, complete_eq]

/-- Settles O7: a row of R142 for each phase, from the one state it can lead to; the rest is how a step unfolds. -/
theorem phasesFollowTheTransferGraph : Obligations.PhasesFollowTheTransferGraph := by
  refine ⟨fun P s t h => ?_, step_waiting, fun P s t => deriveWith_of_engineRun, step_busy⟩
  cases hp : s.phase with
  | idle =>
    cases (engineStep_of_idle P hp).symm.trans h
    rfl
  | pSeed =>
    rw [engineStep_of_pSeed P hp] at h
    rw [phaseSeed_next P s t h]
    exact if_congr one_le_iff_toNat rfl rfl
  | pFirst =>
    rw [engineStep_of_pFirst P hp] at h
    obtain ⟨b, -, -, rfl⟩ := phaseFirst_next P s t h
    exact if_congr BitVec.lt_def rfl rfl
  | pIter =>
    rw [engineStep_of_pIter P hp] at h
    obtain ⟨-, rfl⟩ := phaseIter_next P s t h
    exact if_congr BitVec.lt_def rfl rfl
  | pCopy =>
    rw [engineStep_of_pCopy P hp] at h
    obtain ⟨-, -, rfl⟩ := phaseCopy_next s t h
    by_cases hlast : s.i = s.blocks
    · simp only [copyState, if_pos hlast, and_self]
    · simp only [copyState, if_neg hlast, and_self]
  | pClear =>
    cases (engineStep_of_pClear P hp).symm.trans h
    rfl

/-- R151: where the engine stands `r` steps into block `m + 1`. -/
theorem engineRun_engineStart_phase {P : HashPrimitive} {s : State} (hchk : s.ChecksPassed)
    (habs : deriveAbsorbs P s = true) {m r : Nat} (hm : m < (blocksOf s.DKLEN).toNat) (hr : r ≤ s.C.toNat) :
    ∃ t, engineRun P (1 + m * (s.C.toNat + 1) + r) (engineStart s) = .next t ∧
      t.phase = if r = 0 then .pFirst else if r < s.C.toNat then .pIter else .pCopy := by
  obtain ⟨u, hu⟩ := engineRun_engineStart_blockStart hchk habs hm
  rw [engineRun_add P _ _ _ _ hu]
  cases r with
  | zero => exact ⟨blockStart P s m u, rfl, rfl⟩
  | succ n => exact ⟨prfState P s m n, engineRun_blockStart_prf hchk habs hm hr u, rfl⟩

/-- Settles O23: the run of the engine, block by block, with `blocks` written as R143 computes it. -/
theorem engineTakesExactlyTheStepsOfR151 : Obligations.EngineTakesExactlyTheStepsOfR151 := by
  intro P s hchk habs B c
  have hB : (blocksOf s.DKLEN).toNat = B := toNat_blocksOf hchk.1
  refine ⟨rfl, fun m r hm => engineRun_engineStart_phase hchk habs (hB ▸ hm), ?_, ?_⟩
  · obtain ⟨t, ht, hphase, -⟩ := engineRun_engineStart_pClear hchk habs
    exact ⟨t, hB ▸ ht, hphase⟩
  · have hrun := engineRun_engineSteps hchk habs
    rw [engineSteps, hB] at hrun
    exact hrun

/-- R142: the machine takes the steps of its engine, as long as these do not end the command. -/
theorem core_run_of_engineRun {n : Nat} {s t : State} (h : engineRun theHash n s = .next t) (ht : t.phase ≠ .idle)
    (k : Nat) : core.run (n + k) s = core.run k t := by
  induction n generalizing s with
  | zero =>
    cases h
    rw [Nat.zero_add]
  | succ n ih =>
    have hbusy : s.phase ≠ .idle := fun hidle => by
      cases (engineRun_idle theHash (n + 1) s hidle).symm.trans h
      exact ht hidle
    obtain ⟨u, hu, hrest⟩ := engineRun_succ_next hbusy h
    have hubusy : u.phase ≠ .idle := fun hidle => by
      cases (engineRun_idle theHash n u hidle).symm.trans hrest
      exact ht hidle
    have hstep : step s = .next u := by
      rw [step_busy s hbusy, busyStep, hu]
      exact if_neg hubusy
    rw [Nat.succ_add, core_run_next (n + k) s u hstep, ih hrest]

theorem step_of_pClear {s : State} (h : s.phase = .pClear) :
    step s = .next { clearedState s with ERR := 0, ERRINFO := 0 } := by
  rw [step_busy s (by simp [h]), busyStep, engineStep_of_pClear theHash h]
  rfl

/-- Settles O24: the machine follows the engine to `P_CLEAR`, and the step that ends the run completes the command. -/
theorem smallStepsAgreeWithDerive : Obligations.SmallStepsAgreeWithDerive := by
  intro s hchk habs
  obtain ⟨u, hu, hphase, hcleared⟩ := engineRun_engineStart_pClear hchk habs
  rw [← toNat_blocksOf hchk.1, Nat.add_right_comm 1 1, core_run_of_engineRun hu (by simp [hphase]),
    core_run_next 0 _ _ (step_of_pClear hphase), hcleared, core_run_zero]
  exact (deriveWith_completes hchk habs).symm

/-! ## `DERIVE` at a command boundary (R140, R154) -/

/-- R36, R147: the registers the engine clears were clear at the boundary, so the output is all it leaves. -/
theorem derivedState_of_atBoundary (P : HashPrimitive) {s : State} (h : s.AtBoundary) :
    derivedState P s =
      { s with OUT := s.OUT.writeBytes 0 (pbkdf2 P s.passwd s.salt s.C.toNat s.DKLEN.toNat) } := by
  obtain ⟨hphase, hbase, hwork, hi, hj, hblocks, hT, hU, hkbuf, hpad, hklen, hidig⟩ := h
  simp only [derivedState, hphase, hbase, hwork, hi, hj, hblocks, hT, hU, hkbuf, hpad, hklen, hidig, ite_self]

/-- R100: the limit need not leave room for `INT(i)` where there is no block. -/
theorem deriveWith_completes_of_fits {P : HashPrimitive} {s : State} (hchk : s.ChecksPassed) (h : DeriveFits P s) :
    deriveWith P s = .next { derivedState P s with ERR := 0, ERRINFO := 0 } := by
  obtain ⟨t, ht⟩ := engineRun_engineSteps_of_fits hchk h
  rw [deriveWith_of_engineRun hchk ht, engineRun_engineSteps_next hchk ht]

theorem checksPassed_iff {s : State} : s.ChecksPassed ↔ s.DKLEN.toNat ≤ 137438953440 ∧ s.C ≠ 0 := by
  rw [State.ChecksPassed, le_maxDklen_iff, one_le_iff_toNat, Nat.one_le_iff_ne_zero, ← BitVec.toNat_inj.ne]
  rfl

theorem deriveFits_theHash_iff {s : State} :
    DeriveFits theHash s ↔ s.LEN0.toNat ≤ 2 ^ 61 - 1 ∧ 64 + s.LEN1.toNat ≤ 2 ^ 61 - 1 ∧
      (s.DKLEN ≠ 0 → 64 + s.LEN1.toNat + 4 ≤ 2 ^ 61 - 1) := by
  have hprf : absorbs theHash 96 = true := rfl
  simp only [DeriveFits, seedAbsorbs_theHash, absorbs_theHash_iff, ← and_assoc, hprf, and_true]

/-- R36, R140: at a boundary `DERIVE` writes its output and the outcome registers, and nothing else. -/
theorem exec_derive_atBoundary {s : State} (hb : s.AtBoundary) (hchk : s.ChecksPassed)
    (hfits : DeriveFits theHash s) :
    exec .derive s = .next { s with
      OUT := s.OUT.writeBytes 0 (pbkdf2 theHash s.passwd s.salt s.C.toNat s.DKLEN.toNat), ERR := 0, ERRINFO := 0 } :=
  (deriveWith_completes_of_fits hchk hfits).trans (by rw [derivedState_of_atBoundary theHash hb])

/-- R75, R79: a word with the operation code of `DERIVE` and anything in its index fields is illegal. -/
theorem decode_illegal_of_derive_op {w : CmdWord} (hop : w.toNat / 256 = 0x10) (hw : w ≠ 0x1000) :
    ∃ why, decode w = .illegal why := by
  cases hd : decode w with
  | illegal why => exact ⟨why, rfl⟩
  | instr i =>
    obtain ⟨-, hencode⟩ := decode_eq_instr_iff_encode.mp hd
    obtain ⟨hi, -⟩ := decode_eq_instr_iff.mp hd
    rw [(opField_eq_iff (op := 0x10)).mpr hop] at hi
    cases i with
    | derive => exact absurd hencode.symm hw
    | hseed cd => cases hi
    | hupdate cd => cases hi
    | hfinal cd => cases hi
    | hclone cd cs => cases hi

/-- Settles O21: within the limit the derivation completes; a check that fails raises; one word decodes to `DERIVE`. -/
theorem deriveWritesPbkdf2 : Obligations.DeriveWritesPbkdf2 := by
  intro s hb dk
  refine ⟨fun hrange hC h0 h1 => ⟨exec_derive_atBoundary hb (checksPassed_iff.mpr ⟨hrange, hC⟩)
    (deriveFits_theHash_iff.mpr ⟨h0, by omega, fun _ => by omega⟩), fun hwf => ?_⟩,
    fun hrange => deriveWith_raises_range theHash (maxDklen_lt_iff.mpr hrange), fun hrange hC => ?_,
    runWord_encode (i := .derive) rfl s, fun w hop hw => ?_⟩
  · have hlen : dk.length = s.DKLEN.toNat := length_pbkdf2 _ _ _ _ _
    have hread := Memory.readBytes_writeBytes dk s.OUT 0 hwf (by rw [Nat.zero_add, hlen]; exact s.DKLEN.isLt.le)
    rwa [hlen] at hread
  · have hcheck : deriveCheck s = some .invalidParameter := by
      rw [deriveCheck, if_neg (by rwa [maxDklen_lt_iff, Nat.not_lt]), if_pos hC]
    exact deriveWith_raises theHash hcheck
  · obtain ⟨why, hwhy⟩ := decode_illegal_of_derive_op hop hw
    rw [runWord_illegal w why s hwhy, BitVec.ofNat_toNat]
    rfl

/-- Settles O30: with no block the derivation writes nothing, and `P_SEED` leads straight to `P_CLEAR`. -/
theorem zeroLengthIsValid : Obligations.ZeroLengthIsValid := by
  intro s hb hd hC h0 h1
  have hfits : DeriveFits theHash s := deriveFits_theHash_iff.mpr ⟨h0, by omega, fun hblock => absurd hd hblock⟩
  have hchk : s.ChecksPassed := checksPassed_iff.mpr ⟨by simp [hd], hC⟩
  have hblocks : blocksOf s.DKLEN = 0 := by rw [hd]; rfl
  refine ⟨?_, seededState theHash (engineStart s), phaseSeed_eq theHash (engineStart s) hfits.1.1 hfits.1.2, ?_,
    hblocks, rfl, rfl⟩
  · have hnil : pbkdf2 theHash s.passwd s.salt s.C.toNat s.DKLEN.toNat = [] :=
      List.length_eq_zero_iff.mp (by simp [hd])
    rw [exec_derive_atBoundary hb hchk hfits, hnil, Memory.writeBytes]
  · simp only [seededState, engineStart_DKLEN, hblocks]
    rfl

/-! ## The output, byte by byte (R141, R150, R152) -/

section Output
variable (P : HashPrimitive) (passwd salt : Bytes) (c : Nat)

theorem pbkdf2Blocks_prefix {m n : Nat} (h : m ≤ n) :
    pbkdf2Blocks P passwd salt c m <+: pbkdf2Blocks P passwd salt c n := by
  induction n, h using Nat.le_induction with
  | base => exact List.prefix_rfl
  | succ n _ ih => exact ih.trans (List.prefix_append _ _)

/-- R152: a longer output begins with the shorter one. -/
theorem take_pbkdf2 {n n' : Nat} (h : n ≤ n') : (pbkdf2 P passwd salt c n').take n = pbkdf2 P passwd salt c n := by
  obtain ⟨rest, hrest⟩ := pbkdf2Blocks_prefix P passwd salt c (m := (n + 31) / 32) (n := (n' + 31) / 32) (by omega)
  rw [pbkdf2, List.take_take, Nat.min_eq_left h, ← hrest, List.take_append_of_le_length, ← pbkdf2]
  rw [length_pbkdf2Blocks]
  omega

/-- R150: block `k + 1` stands at offset `32 k`, whole. -/
theorem getD_pbkdf2 {n q : Nat} (hq : q < n) :
    (pbkdf2 P passwd salt c n).getD q 0 = (pbkdf2T P passwd salt (q / 32 + 1) (c - 1)).val.getD (q % 32) 0 := by
  obtain ⟨rest, hrest⟩ := pbkdf2Blocks_prefix P passwd salt c (m := q / 32 + 1) (n := (n + 31) / 32) (by omega)
  have hlen := length_pbkdf2Blocks P passwd salt c
  calc (pbkdf2 P passwd salt c n).getD q 0
      = (pbkdf2Blocks P passwd salt c ((n + 31) / 32)).getD q 0 := by
        simp only [pbkdf2, List.getD_eq_getElem?_getD, List.getElem?_take_of_lt hq]
    _ = (pbkdf2Blocks P passwd salt c (q / 32 + 1)).getD q 0 := by
        rw [← hrest, List.getD_append _ _ _ _ (by rw [hlen]; omega)]
    _ = (pbkdf2T P passwd salt (q / 32 + 1) (c - 1)).val.getD (q % 32) 0 := by
        rw [pbkdf2Blocks, List.getD_append_right _ _ _ _ (by rw [hlen]; omega), hlen,
          show q - 32 * (q / 32) = q % 32 by omega]

end Output

/-- Settles O27: the shorter output reads fewer of the same blocks. -/
theorem lengthAndPrefixConsistency : Obligations.LengthAndPrefixConsistency :=
  fun P passwd salt c n _ h => ⟨length_pbkdf2 P passwd salt c n, (take_pbkdf2 P passwd salt c h).symm⟩

/-- Settles O28: each byte a completed `DERIVE` writes is a byte of PBKDF2, and that is a byte of its block; the first
block has the offsets 0 to 31. -/
theorem outputBytesAreTheHeadsOfTheBlocks : Obligations.OutputBytesAreTheHeadsOfTheBlocks := by
  intro s t hwf h h0
  have hbyte (q : Nat) (hq : q < s.DKLEN.toNat) : t.OUT.read q =
      (pbkdf2T theHash s.passwd s.salt (q / 32 + 1) (s.C.toNat - 1)).val.getD (q % 32) 0 := by
    rw [deriveWith_next_read hwf h h0 hq, getD_pbkdf2 theHash s.passwd s.salt _ hq]
  refine ⟨hbyte, fun hd => ?_⟩
  have hT := (pbkdf2T theHash s.passwd s.salt 1 (s.C.toNat - 1)).2
  refine List.ext_getElem (by rw [Memory.length_readBytes, hT]) fun q hq hqT => ?_
  rw [Memory.length_readBytes] at hq
  rw [Memory.getElem_readBytes, Nat.zero_add, hbyte q (by rw [hd]; exact hq), Nat.div_eq_of_lt hq,
    Nat.mod_eq_of_lt hq, List.getD_eq_getElem _ _ hqT]

/-! ## One iteration (R153) -/

/-- R153: what every state of a run with `C = 1` has: the PRF is applied once for a block, in `P_FIRST`. -/
def OnePrf (s : State) : Prop := s.C = 1 ∧ s.phase ≠ .pIter ∧ (s.phase = .pCopy → s.T = s.U)

theorem engineStep_keeps_onePrf {P : HashPrimitive} {s t : State} (hs : OnePrf s) (h : engineStep P s = .next t) :
    OnePrf t := by
  obtain ⟨hC, hiter, -⟩ := hs
  cases hp : s.phase with
  | idle =>
    cases (engineStep_of_idle P hp).symm.trans h
    simp [OnePrf, hC, hp]
  | pSeed =>
    rw [engineStep_of_pSeed P hp] at h
    rw [phaseSeed_next P s t h]
    refine ⟨hC, ?_⟩
    simp only [seededState]
    split <;> simp
  | pFirst =>
    rw [engineStep_of_pFirst P hp] at h
    obtain ⟨b, -, -, rfl⟩ := phaseFirst_next P s t h
    have hcopy : (firstState P b s).phase = .pCopy := if_neg (by rw [hC]; decide)
    exact ⟨hC, by simp [hcopy], fun _ => rfl⟩
  | pIter => exact absurd hp hiter
  | pCopy =>
    rw [engineStep_of_pCopy P hp] at h
    obtain ⟨-, -, rfl⟩ := phaseCopy_next s t h
    refine ⟨hC, ?_⟩
    simp only [copyState]
    split <;> simp
  | pClear =>
    cases (engineStep_of_pClear P hp).symm.trans h
    exact ⟨hC, nofun, nofun⟩

/-- Settles O29: the engine starts with `OnePrf` and every step keeps it; `T(i)` of one iteration is `U(i, 1)`. -/
theorem oneIterationIsOnePrf : Obligations.OneIterationIsOnePrf := by
  refine ⟨fun P s t k hC h => ?_, fun _ _ _ _ => rfl⟩
  have hstart : OnePrf (engineStart s) := ⟨hC, nofun, nofun⟩
  exact (engineRun_keeps P OnePrf (fun _ _ _ => engineStep_keeps_onePrf) k _ t hstart h).2

end Sys2Proof.Machine

namespace Sys2Proof.Machine

/-! ## Words that are no command (R75, R184) -/

/-- R184: an illegal word raises, whatever the state holds. -/
theorem runWord_of_instr?_none {w : CmdWord} (h : (decode w).instr? = none) (s : State) :
    runWord w s = .next (raised (.illegalCommand w) s) := by
  cases hd : decode w with
  | instr i => simp [hd, Decoded.instr?] at h
  | illegal why => exact runWord_illegal w why s hd

/-- R72: the opcode map has a row for every command. -/
theorem mnemonic_mem_opcodeTable (i : Instr) : i.mnemonic ∈ opcodeTable.map OpcodeRow.mnemonic := by
  cases i <;> simp [Instr.mnemonic, opcodeTable]

theorem instr?_eq_none_of_selects_none {w : CmdWord} (h : ∀ r ∈ opcodeTable, r.selects w = false) :
    (decode w).instr? = none := by
  refine Option.eq_none_iff_forall_ne_some.mpr fun i hi => ?_
  obtain ⟨r, hr, hmnemonic⟩ := List.mem_map.mp (mnemonic_mem_opcodeTable i)
  have hsel := (selects_iff_of_decode hr (instr?_eq_some_iff.mp hi)).mpr hmnemonic.symm
  exact Bool.false_ne_true ((h r hr).symm.trans hsel)

/-- Settles O4: a word that selects no row decodes to nothing, and such a word is answered before the state is read. -/
theorem illegalWordRaisesIllegalCommand : Obligations.IllegalWordRaisesIllegalCommand := by
  intro w s hw
  rw [runWord_of_instr?_none (hw.elim id instr?_eq_none_of_selects_none), BitVec.ofNat_toNat]
  rfl

/-! ## The outcomes of a command (R31, R180, R189) -/

/-- R31: a command that completes ends with both outcome registers 0. -/
theorem completes_outcome {P : HashPrimitive} {i : Instr} {s t : State} (h : Completes P s i t) :
    t.ERR = 0 ∧ t.ERRINFO = 0 := by
  cases h with
  | hseed => exact ⟨rfl, rfl⟩
  | hupdate => exact ⟨rfl, rfl⟩
  | hfinal => exact ⟨rfl, rfl⟩
  | hclone => exact ⟨rfl, rfl⟩
  | derive => exact ⟨rfl, rfl⟩

/-- R180, R189: a command word completes, is illegal, or raises what the checks of its command say. -/
theorem runWord_outcome {w : CmdWord} {s t : State} (h : runWord w s = .next t) :
    (t.ERR = 0 ∧ t.ERRINFO = 0) ∨ ((decode w).instr? = none ∧ t = raised (.illegalCommand w) s) ∨
      ∃ i e, decode w = .instr i ∧ commandCheck i s = some e ∧ t = raised e s := by
  obtain ⟨i, hd, hi⟩ | hillegal := runWord_next w s t h
  · obtain ⟨e, he, ht⟩ | ⟨-, hdone⟩ := exec_next hi
    · exact .inr (.inr ⟨i, e, hd, he, ht⟩)
    · exact .inl (completes_outcome hdone)
  · exact .inr (.inl hillegal)

theorem engineStep_sameOutcome {P : HashPrimitive} {s t : State} (h : engineStep P s = .next t) :
    t.ERR = s.ERR ∧ t.ERRINFO = s.ERRINFO := by
  obtain ⟨-, -, -, -, -, -, -, -, -, -, hERR, hERRINFO, -⟩ := engineStep_frame P s t h
  exact ⟨hERR, hERRINFO⟩

/-- R31, R142: a busy core writes `ERR` only in the step that ends its command. -/
theorem busyStep_ERR {P : HashPrimitive} {s t : State} (h : busyStep P s = .next t) : t.ERR = s.ERR ∨ t.ERR = 0 := by
  obtain ⟨u, hu, ⟨-, rfl⟩ | ⟨-, rfl⟩⟩ := busyStep_next P s t h
  · exact .inr rfl
  · exact .inl (engineStep_sameOutcome hu).1

/-- Settles O37: a command that does not complete ends in `raised`, which writes the two outcome registers; an engine
step writes neither. -/
theorem faultChangesOnlyErrAndErrinfo : Obligations.FaultChangesOnlyErrAndErrinfo := by
  refine ⟨raise_eq, fun w s t h hne => ?_, fun P s t => engineStep_sameOutcome,
    fun s t hbusy h => busyStep_ERR (step_busy s hbusy ▸ h)⟩
  obtain ⟨hERR, -⟩ | ⟨-, rfl⟩ | ⟨i, e, -, -, rfl⟩ := runWord_outcome h
  · exact absurd hERR hne
  · rfl
  · rfl

/-! ## The cause of each exception (R180 to R186) -/

theorem indexCheck_eq_some_iff {s : State} {k : Nat} {e : Exc} :
    indexCheck s k = some e ↔ s.nctx ≤ k ∧ e = .contextIndex k := by
  simp [indexCheck, eq_comm]

theorem liveCheck_eq_some_iff {s : State} {k : Nat} {e : Exc} :
    liveCheck s k = some e ↔ (s.slot k).st ≠ .live ∧ e = .contextState k (s.slot k).st := by
  simp [liveCheck, eq_comm]

theorem deriveCheck_of_zero_iterations {s : State} (hrange : s.DKLEN ≤ MAX_DKLEN) (hC : s.C = 0) :
    deriveCheck s = some .invalidParameter := by
  rw [deriveCheck, if_neg (BitVec.not_lt.mpr hrange), if_pos hC]

/-- R180: the causes of a command's exceptions, those of the table's rows that are raised after decoding. -/
inductive Cause (s : State) : Instr → Exc → Prop
  | range (h : MAX_DKLEN < s.DKLEN) : Cause s .derive (.rangeError s.DKLEN)
  | parameter (h : s.C = 0) : Cause s .derive .invalidParameter
  | index {i : Instr} {k : Nat} (hk : k ∈ slotsNamed i) (h : s.nctx ≤ k) : Cause s i (.contextIndex k)
  | state {i : Instr} {k : Nat} (hk : liveNeeded i = some k) (h : (s.slot k).st ≠ .live) :
      Cause s i (.contextState k (s.slot k).st)

section Cause
variable {s : State} {i : Instr} {e : Exc}

theorem cause_of_indexCheck {k : Nat} (hk : k ∈ slotsNamed i) (h : indexCheck s k = some e) : Cause s i e := by
  obtain ⟨hpast, rfl⟩ := indexCheck_eq_some_iff.mp h
  exact .index hk hpast

theorem cause_of_liveCheck {k : Nat} (hk : liveNeeded i = some k) (h : liveCheck s k = some e) : Cause s i e := by
  obtain ⟨hst, rfl⟩ := liveCheck_eq_some_iff.mp h
  exact .state hk hst

theorem cause_of_deriveCheck (h : deriveCheck s = some e) : Cause s .derive e := by
  unfold deriveCheck at h
  split_ifs at h with hrange hC <;> cases h
  · exact .range hrange
  · exact .parameter hC

/-- R180: a command raises for a cause that the table names. -/
theorem cause_of_commandCheck (h : commandCheck i s = some e) : Cause s i e := by
  cases i with
  | hseed cd => exact cause_of_indexCheck List.mem_cons_self h
  | hupdate cd =>
    obtain hcd | ⟨-, hst⟩ := Option.or_eq_some_iff.mp h
    · exact cause_of_indexCheck List.mem_cons_self hcd
    · exact cause_of_liveCheck rfl hst
  | hfinal cd =>
    obtain hcd | ⟨-, hst⟩ := Option.or_eq_some_iff.mp h
    · exact cause_of_indexCheck List.mem_cons_self hcd
    · exact cause_of_liveCheck rfl hst
  | hclone cd cs =>
    obtain hindex | ⟨-, hst⟩ := Option.or_eq_some_iff.mp h
    · obtain hcd | ⟨-, hcs⟩ := Option.or_eq_some_iff.mp hindex
      · exact cause_of_indexCheck List.mem_cons_self hcd
      · exact cause_of_indexCheck (List.mem_pair.mpr (.inr rfl)) hcs
    · exact cause_of_liveCheck rfl hst
  | derive => exact cause_of_deriveCheck h

end Cause

/-- Settles O38: an exception has its cause, and `raised` gives its code and its information word. -/
theorem outcomesOfACommand : Obligations.OutcomesOfACommand := by
  intro w s t h
  obtain hdone | ⟨hillegal, rfl⟩ | ⟨i, e, hd, he, rfl⟩ := runWord_outcome h
  · exact .inl hdone
  · exact .inr (.inr (.inr (.inl ⟨rfl, hillegal, (BitVec.ofNat_toNat 64 w).symm⟩)))
  · cases cause_of_commandCheck he with
    | range hrange => exact .inr (.inl ⟨rfl, hd, hrange, rfl⟩)
    | parameter hC => exact .inr (.inr (.inl ⟨rfl, hd, hC, rfl⟩))
    | index hk hpast => exact .inr (.inr (.inr (.inr (.inl ⟨rfl, i, _, hd, hk, hpast, rfl⟩))))
    | state hk hst => exact .inr (.inr (.inr (.inr (.inr ⟨rfl, i, _, hd, hk, hst, rfl⟩))))

/-! ## The two checks of `DERIVE` (R140, R181, R182) -/

/-- R180: `ERR` after a `DERIVE`, by its checks in their order. -/
theorem exec_derive_ERR {s t : State} (h : exec .derive s = .next t) :
    t.ERR = if MAX_DKLEN < s.DKLEN then 1 else if s.C = 0 then 2 else 0 := by
  rw [deriveWith_next_ERR h, deriveCheck]
  split_ifs <;> rfl

/-- Settles O39: each check that fails raises; the code tells which, and with both passed the derivation completes. -/
theorem deriveRejectsExactly : Obligations.DeriveRejectsExactly := by
  intro s
  simp only [← maxDklen_lt_iff, ← le_maxDklen_iff]
  refine ⟨deriveWith_raises_range theHash,
    fun hrange hC => deriveWith_raises theHash (deriveCheck_of_zero_iterations hrange hC), fun t h => ?_,
    fun hrange hC habs =>
      ⟨_, deriveWith_completes (checksPassed_iff.mpr ⟨le_maxDklen_iff.mp hrange, hC⟩) habs, rfl⟩⟩
  rw [exec_derive_ERR h, ← BitVec.not_lt]
  split_ifs with hrange hC
  · simp [hrange]
  · simp [hrange, hC]
  · simpa [hrange] using hC

/-! ## ContextIndex (R75, R185) -/

/-- R70, R75: an index of a command word is a 4-bit field. -/
theorem slotsNamed_lt_of_decode {w : CmdWord} {i : Instr} {k : Nat} (hd : decode w = .instr i)
    (hk : k ∈ slotsNamed i) : k < 16 := by
  obtain ⟨hcd, hcs⟩ := i.wf_iff.mp (decode_eq_instr_iff_encode.mp hd).1
  cases i with
  | hseed cd => exact List.mem_singleton.mp hk ▸ hcd
  | hupdate cd => exact List.mem_singleton.mp hk ▸ hcd
  | hfinal cd => exact List.mem_singleton.mp hk ▸ hcd
  | hclone cd cs =>
    obtain rfl | rfl := List.mem_pair.mp hk
    · exact hcd
    · exact hcs
  | derive => cases hk

/-- Settles O40: the destination is checked first; only an index past the file has code 4, and with 16 slots no word
holds one. -/
theorem contextIndexRaisedPastTheFile : Obligations.ContextIndexRaisedPastTheFile := by
  refine ⟨fun cd cs s => ⟨fun hcd => ⟨hseedWith_raises_index theHash hcd, hupdateWith_raises_index theHash hcd,
    hfinalWith_raises_index theHash hcd, hcloneSlots_raises_index hcd⟩, hcloneSlots_raises_sourceIndex⟩,
    fun w s t hn h => ?_⟩
  obtain ⟨hERR, -⟩ | ⟨-, rfl⟩ | ⟨i, e, hd, he, rfl⟩ := runWord_outcome h
  · rw [hERR]
    decide
  · exact nofun
  · cases cause_of_commandCheck he with
    | range => exact nofun
    | parameter => exact nofun
    | index hk hpast => exact absurd (slotsNamed_lt_of_decode hd hk) (by omega)
    | state => exact nofun

/-! ## The order of the checks (R188) -/

/-- Settles O41: the answer is known exactly in each case; it is that of the first check that fails. -/
theorem exceptionPriority : Obligations.ExceptionPriority := by
  refine ⟨fun w s t hw h => ?_, fun cd cs s t hcd _ h => ?_, fun cd cs s t hcd _ _ h => ?_,
    fun cd cs s t hcd hcs hst h => ?_, fun s t hrange _ h => ?_⟩
  · cases (runWord_of_instr?_none hw s).symm.trans h
    rfl
  · cases (hcloneSlots_raises_index hcd).symm.trans h
    exact ⟨rfl, rfl⟩
  · cases (hcloneSlots_raises_index hcd).symm.trans h
    exact ⟨rfl, rfl⟩
  · cases (hcloneSlots_raises_state hcd hcs hst).symm.trans h
    rfl
  · cases (deriveWith_raises_range theHash hrange).symm.trans h
    rfl

end Sys2Proof.Machine

namespace Sys2Proof.Machine

/-! ## What the host owns while the engine runs (R57, R216, log 13) -/

/-- R30, R35: what no engine step writes. -/
theorem engineStep_sameHostRegisters {P : HashPrimitive} {s t : State} (h : engineStep P s = .next t) :
    State.SameParams s t ∧ t.IN0 = s.IN0 ∧ t.IN1 = s.IN1 ∧ t.moves = s.moves := by
  obtain ⟨-, -, -, hC, hDKLEN, hLEN0, hLEN1, hIN0, hIN1, hmoves, -⟩ := engineStep_frame P s t h
  exact ⟨⟨hC, hDKLEN, hLEN0, hLEN1⟩, hIN0, hIN1, hmoves⟩

/-- R31, R142: the step that ends the command adds the outcome registers to what its engine step writes. -/
theorem busyStep_sameHostRegisters {P : HashPrimitive} {s t : State} (h : busyStep P s = .next t) :
    State.SameParams s t ∧ t.IN0 = s.IN0 ∧ t.IN1 = s.IN1 ∧ t.moves = s.moves := by
  obtain ⟨u, hu, hend⟩ := busyStep_next P s t h
  have hsame := engineStep_sameHostRegisters hu
  obtain ⟨-, rfl⟩ | ⟨-, rfl⟩ := hend
  · exact hsame
  · exact hsame

/-- Settles O8: a busy core takes an engine step, and no phase writes what the host may write. -/
theorem busyStepTakesNoHostMove : Obligations.BusyStepTakesNoHostMove := by
  intro s t hbusy h
  obtain ⟨hparams, h0, h1, hmoves⟩ := busyStep_sameHostRegisters (step_busy s hbusy ▸ h)
  exact ⟨hmoves, hparams, fun a => ⟨by rw [h0], by rw [h1]⟩⟩

/-! ## Reset while `DERIVE` runs (R211, log 12) -/

/-- R146, R211: how many blocks a derivation has copied to `OUT` in its first `k` steps: `P_SEED` is one step, each
block takes `C + 1`, and after the last block there is nothing to copy. -/
def blocksCopied (s : State) (k : Nat) : Nat := min (blocksOf s.DKLEN).toNat ((k - 1) / (s.C.toNat + 1))

theorem pbkdf2_of_wholeBlocks (P : HashPrimitive) (passwd salt : Bytes) (c m : Nat) :
    pbkdf2 P passwd salt c (32 * m) = pbkdf2Blocks P passwd salt c m := by
  rw [pbkdf2, show (32 * m + 31) / 32 = m by omega, List.take_of_length_le (length_pbkdf2Blocks P passwd salt c m).le]

/-- R210: after a run of the engine a reset finds what the host owns as it was before the run, but for `OUT`. -/
theorem hardReset_of_engineRun {P : HashPrimitive} {k : Nat} {s t : State} (h : engineRun P k s = .next t) :
    t.hardReset = { s.hardReset with OUT := t.OUT } := by
  obtain ⟨hctx, -, -, -, -, -, -, hIN0, hIN1, hmoves, -⟩ := engineRun_frame P k s t h
  simp only [State.hardReset, State.nctx, hctx, hIN0, hIN1, hmoves]

section Copied
variable {P : HashPrimitive} {s : State} (hchk : s.ChecksPassed) (habs : deriveAbsorbs P s = true)
include hchk habs

/-- R146: inside block `m + 1`, before its `P_COPY`, the blocks before it are in place. -/
theorem engineRun_engineStart_OUT_within {m r : Nat} (hm : m < (blocksOf s.DKLEN).toNat) (hr : r ≤ s.C.toNat) :
    ∃ t, engineRun P (1 + m * (s.C.toNat + 1) + r) (engineStart s) = .next t ∧
      t.OUT = s.OUT.writeBytes 0 (pbkdf2Blocks P s.passwd s.salt s.C.toNat m) := by
  obtain ⟨u, hu⟩ := engineRun_engineStart_blockStart hchk habs hm
  rw [engineRun_add P _ _ _ _ hu]
  cases r with
  | zero => exact ⟨blockStart P s m u, rfl, rfl⟩
  | succ n => exact ⟨prfState P s m n, engineRun_blockStart_prf hchk habs hm hr u, rfl⟩

/-- R147: from the copy of the last block on, or from `P_SEED` where there is none, the whole output is in place. -/
theorem engineRun_engineStart_OUT_after (n : Nat) :
    ∃ t, engineRun P (1 + (blocksOf s.DKLEN).toNat * (s.C.toNat + 1) + n) (engineStart s) = .next t ∧
      t.OUT = s.OUT.writeBytes 0 (pbkdf2 P s.passwd s.salt s.C.toNat s.DKLEN.toNat) := by
  obtain ⟨u, hu, hphase, hcleared⟩ := engineRun_engineStart_pClear hchk habs
  rw [engineRun_add P _ _ _ _ hu]
  cases n with
  | zero => exact ⟨u, rfl, congrArg State.OUT hcleared⟩
  | succ n =>
    refine ⟨derivedState P s, ?_, rfl⟩
    rw [engineRun_succ P n u _ (by simp [hphase]) (engineStep_of_pClear P hphase), hcleared]
    exact engineRun_idle P n _ rfl

/-- R211: what is in `OUT` after any number of steps of a derivation. -/
theorem engineRun_engineStart_OUT (k : Nat) :
    ∃ t, engineRun P k (engineStart s) = .next t ∧ t.OUT = s.OUT.writeBytes 0
      ((pbkdf2 P s.passwd s.salt s.C.toNat s.DKLEN.toNat).take (32 * blocksCopied s k)) := by
  have hB := toNat_blocksOf hchk.1
  cases k with
  | zero => exact ⟨engineStart s, rfl, by simp [blocksCopied, Memory.writeBytes]⟩
  | succ q =>
    rw [blocksCopied, Nat.add_sub_cancel, Nat.add_comm q 1]
    obtain hwithin | hafter := Nat.lt_or_ge (q / (s.C.toNat + 1)) (blocksOf s.DKLEN).toNat
    · have hr : q % (s.C.toNat + 1) ≤ s.C.toNat := Nat.le_of_lt_succ (Nat.mod_lt _ (Nat.succ_pos _))
      have hrun := engineRun_engineStart_OUT_within hchk habs hwithin hr
      rw [Nat.add_assoc, Nat.div_add_mod'] at hrun
      rwa [Nat.min_eq_right hwithin.le, take_pbkdf2 P _ _ _ (by omega), pbkdf2_of_wholeBlocks]
    · obtain ⟨n, rfl⟩ := Nat.exists_eq_add_of_le ((Nat.le_div_iff_mul_le (Nat.succ_pos _)).mp hafter)
      rw [Nat.min_eq_left hafter, ← Nat.add_assoc, List.take_of_length_le (by rw [length_pbkdf2]; omega)]
      exact engineRun_engineStart_OUT_after hchk habs n

/-- R211: the answer does not depend on `run`, since the derivation passes its checks and takes engine steps. -/
theorem resetDuring_of_derive {w : CmdWord} (hw : decode w = .instr .derive) (run : Instr → State → Answer) (k : Nat) :
    resetDuring P run w k s = .next { s.hardReset with
      OUT := s.OUT.writeBytes 0
        ((pbkdf2 P s.passwd s.salt s.C.toNat s.DKLEN.toNat).take (32 * blocksCopied s k)) } := by
  obtain ⟨-, -, heq⟩ | ⟨hno, -⟩ := resetDuring_eq P run w k s
  · obtain ⟨t, ht, hout⟩ := engineRun_engineStart_OUT hchk habs k
    rw [heq, ht, thenReset, hardReset_of_engineRun ht, hout]
    rfl
  · exact absurd ⟨hw, deriveCheck_eq_none_iff.mpr hchk⟩ hno

end Copied

/-- Settles O49: the reset reaches the derivation in a block, or after the last one, and there `OUT` holds the blocks
copied so far. -/
theorem resetDuringDerive : Obligations.ResetDuringDerive := by
  intro s w k rest hp hm hw hchk habs
  rw [← toNat_blocksOf hchk.1]
  exact (step_move s _ rest hp hm).trans (resetDuring_of_derive (s := { s with moves := rest }) hchk habs hw exec k)

end Sys2Proof.Machine
